-- ==== Sys2Proof/Word.lean ====
section
/-!
DEFINITION. The word types of the block: the decimal128 data word, the flag accumulator, the two
kinds of code word (spec/00_scope.md R8, R9; spec/10_state.md R22, R24; spec/30_encoding.md R77, R80).
-/
namespace Sys2Proof

/-- A 128-bit data word; bit 127 is the sign, bit 0 the least significant bit (R8, R70). -/
abbrev Word := BitVec 128

/-- The exception-flag accumulator `FLAGS[5:0]`, and a set of flags as its mask (R24, R25). -/
abbrev FlagWord := BitVec 6

/-- The command word `CMD[5:0] = (RM, OP)` (R77). -/
abbrev CommandWord := BitVec 6

/-- A unit function code `UFC[7:0] = (UNIT, FN)` (R80). -/
abbrev UnitCode := BitVec 8

end Sys2Proof
end

