-- ==== Sys2Proof/Config.lean ====
section
/-!
DEFINITION. The parameters of spec/00_scope.md R6: the constants of decimal128, and the five model
arguments of R7 as one record of plain data, which State holds and no step changes, and the table contents
the spec leaves open, as free values.
-/
namespace Sys2Proof

/-- `P`: precision in decimal digits (R6). -/
abbrev Config.P : Nat := 34

/-- `CMAX = 10^34 - 1`: the largest canonical coefficient (R6). -/
abbrev Config.CMAX : Nat := 9999999999999999999999999999999999

/-- `BIAS` (R6). -/
abbrev Config.BIAS : Int := 6176

/-- `QMIN`: the smallest quantum exponent (R6). -/
abbrev Config.QMIN : Int := -6176

/-- `QMAX`: the largest quantum exponent (R6). -/
abbrev Config.QMAX : Int := 6111

/-- `EMIN`: the smallest normal value is `10^EMIN` (R6). -/
abbrev Config.EMIN : Int := -6143

/-- `EBMAX`: the largest biased exponent (R6). -/
abbrev Config.EBMAX : Nat := 12287

/-- The model argument `TININESS` (R6, R214; D7). -/
inductive Tininess where
  | after
  | before
  deriving DecidableEq, Repr

/-- The model argument `MUL_NAN_FIRST`: which operand's NaN `MUL` returns first (R6, R290; D9). -/
inductive NanFirst where
  | a
  | b
  deriving DecidableEq, Repr

/-- The model arguments of R7. -/
structure ModelArgs where
  /-- `TININESS` (R214). -/
  tininess : Tininess
  /-- `NAN_PAYLOAD_LIMIT` (R162). -/
  nanPayloadLimit : Nat
  /-- `INF_DIV_ZERO_DZ` (R321). -/
  infDivZeroDz : Bool
  /-- `MUL_NAN_FIRST` (R290). -/
  mulNanFirst : NanFirst
  /-- `FLAGS_INIT` (R33). -/
  flagsInit : FlagWord
  deriving DecidableEq, Repr

/-- The defaults of R6. `FLAGS_INIT` has none in the spec: DESIGN CHOICE 0, the value a caller
that clears its accumulator leaves (log entry 4). -/
def ModelArgs.default : ModelArgs where
  tininess := .after
  nanPayloadLimit := 999999999999999999999999999999999
  infDivZeroDz := false
  mulNanFirst := .a
  flagsInit := 0#6

/-- `KX` of the engine class of width `W`, at index `x` (R31, R198). FREE VALUE: the spec gives the table a
contract and no contents (91_not_in_source.md N1; log entry 10). -/
opaque Config.kx : (W : Nat) → Nat → BitVec W

/-- `EX` of the engine class of width `W`, at index `x` (R31, R198). FREE VALUE (log entry 10). -/
opaque Config.ex : (W : Nat) → Nat → BitVec W

/-- `MASK` of the engine class of width `W`, at index `x` (R31, R198). FREE VALUE (log entry 10). -/
opaque Config.mask : (W : Nat) → Nat → BitVec W

/-- `TEN2MXTRUNC` of the engine class of width `W`, at index `x` (R31, R198). FREE VALUE (log entry 10). -/
opaque Config.ten2mxtrunc : (W : Nat) → Nat → BitVec W

/-- The entry of `DIGIT_THRESH` at a bit length that is not ambiguous, of the entry's width: R142 calls it
unused and gives it no content. FREE VALUE (log entry 20). -/
opaque Config.unusedThreshold : (W : Nat) → Nat → BitVec W

end Sys2Proof
end

