-- ==== Sys2Proof/Syntax.lean ====
section
/-!
DEFINITION. The syntax of the block: rounding modes, the internal records that unit functions take
as operands, and `Instr`, one constructor per row of spec/opcode_table.json.
-/
namespace Sys2Proof

/-- The five rounding modes of the `RM` field (spec/30_encoding.md R79). -/
inductive Rm where
  /-- to nearest, ties to even -/
  | rn
  /-- toward minus infinity -/
  | rd
  /-- toward plus infinity -/
  | ru
  /-- toward zero -/
  | rz
  /-- to nearest, ties away from zero -/
  | ra
  deriving DecidableEq, Repr

/-- The class of a datum (spec/00_scope.md R12). -/
inductive Cls where
  | zero
  | finite
  | inf
  | qnan
  | snan
  deriving DecidableEq, Repr

/-- The unpacked operand `(cls, s, E, Cf, PL)` (spec/10_state.md R29). -/
structure Record where
  cls : Cls
  /-- sign, true for negative -/
  s : Bool
  /-- biased exponent `E[13:0]` -/
  E : BitVec 14
  /-- coefficient `Cf[112:0]` -/
  Cf : BitVec 113
  /-- NaN payload `PL[109:0]` -/
  PL : BitVec 110
  deriving DecidableEq, Repr

/-- The rounding indicator set (spec/10_state.md R30, spec/43_rounding.md R193). -/
structure Indicators where
  ltMid : Bool
  gtMid : Bool
  midDn : Bool
  midUp : Bool
  deriving DecidableEq, Repr

/-- The exact product `(s4, C4, q4, e4)` that `ALIGN_FMA` takes (spec/45_fma_mul.md R282, R285). -/
structure Product where
  s4 : Bool
  C4 : BitVec 256
  q4 : Nat
  e4 : Int
  deriving DecidableEq, Repr

/-- The regions of `ALIGN_ADD` (spec/44_add.md R243). -/
inductive AddRegion where
  | absorb
  | exact
  deriving DecidableEq, Repr

/-- The regions of `ALIGN_FMA` (spec/45_fma_mul.md R285). -/
inductive FmaRegion where
  | addendDominates
  | productDominates
  | comparable
  deriving DecidableEq, Repr

/-- The instructions: the four operations of the command word (R78) and the unit functions (R81).
Operand words are port values, not part of the code (R22, R397), so they stand in State. -/
inductive Instr where
  | add (rm : Rm)
  | mul (rm : Rm)
  | fma (rm : Rm)
  | div (rm : Rm)
  | unpack
  | pack
  | quietnan
  | mwadd64
  | mwsub64
  | mwadd128
  | mwsub128
  | mwadd192
  | mwsub192
  | mwadd256
  | mwsub256
  | mwadd384
  | mwsub384
  | mwadd512
  | mwsub512
  | mul64x64_128
  | mul64x128_128
  | mul64x128_192
  | mul128x128_256
  | mul128x192_320
  | mul192x192_384
  | mul256x256_512
  | div128by128
  | div256by128
  | dcnt128
  | dcnt256
  | rnd64
  | rnd128
  | rnd192
  | rnd256
  | rmcorr
  | assemble
  | alignAdd
  | alignFma
  | divscale
  deriving DecidableEq, Repr

end Sys2Proof
end

