-- ==== Sys2Proof/WellFormed.lean ====
section
/-!
DEFINITION. Well-formedness: which code words spell an instruction (spec/30_encoding.md R83, R84),
which records the decoder produces (spec/42_decoder.md R161, R166, R169), which indicator sets the
engine produces (spec/43_rounding.md R193). An `Instr` has no ill-formed term: its one field is one
of the five modes.
-/
namespace Sys2Proof

/-- A command word with a defined `OP` (000 to 011) and a defined `RM` (000 to 100) (R78, R79, R83). -/
def CommandWord.wf (w : CommandWord) : Bool :=
  decide ((w.extractLsb 2 0).toNat < 4) && decide ((w.extractLsb 5 3).toNat < 5)

/-- A unit function code that R81 lists, unit by unit: the number of functions of each unit (R84). -/
def UnitCode.wf (u : UnitCode) : Bool :=
  let fn := (u.extractLsb 3 0).toNat
  match (u.extractLsb 7 4).toNat with
  | 0x0 => decide (fn < 3)
  | 0x1 => decide (fn < 12)
  | 0x2 => decide (fn < 7)
  | 0x3 => decide (fn < 2)
  | 0x4 => decide (fn < 2)
  | 0x5 => decide (fn < 4)
  | 0x6 => decide (fn < 2)
  | 0x7 => decide (fn < 3)
  | _ => false

/-- Every term of `Instr` is well formed: register numbers, immediates and modes of other machines
have no counterpart, and `Rm` holds the five defined modes only. -/
def Instr.wf (_ : Instr) : Bool := true

/-- A record the decoder produces under the payload limit `limit`: a field its class does not use
is 0, a zero or finite record has `E ≤ 12287` and `Cf ≤ 10^34 - 1`, and the class is `ZERO` exactly
when the coefficient is 0 (R161, R162, R166, R169). -/
def Record.wf (limit : Nat) (r : Record) : Bool :=
  match r.cls with
  | .zero => decide (r.E.toNat ≤ Config.EBMAX) && decide (r.Cf = 0) && decide (r.PL = 0)
  | .finite =>
      decide (r.E.toNat ≤ Config.EBMAX) && decide (r.Cf ≠ 0) && decide (r.Cf.toNat ≤ Config.CMAX)
        && decide (r.PL = 0)
  | .inf => decide (r.E = 0) && decide (r.Cf = 0) && decide (r.PL = 0)
  | .qnan => decide (r.E = 0) && decide (r.Cf = 0) && decide (r.PL.toNat ≤ limit)
  | .snan => decide (r.E = 0) && decide (r.Cf = 0) && decide (r.PL.toNat ≤ limit)

/-- At most one indicator is set: they are mutually exclusive by construction (R193). -/
def Indicators.wf (i : Indicators) : Bool :=
  decide (i.ltMid.toNat + i.gtMid.toNat + i.midDn.toNat + i.midUp.toNat ≤ 1)

end Sys2Proof
end

