-- ==== Sys2Proof/Decode.lean ====
section
/-!
DEFINITION. The decoder of the two kinds of code word, total and rejecting by name, and the encoder
written from the same tables (spec/30_encoding.md R77 to R84).
-/
namespace Sys2Proof

/-- A code word together with the request that carries it: an operation request carries a command
word, a unit function request carries a unit function code (spec/70_reset_and_hazards.md R397). The two
number spaces overlap, and nothing but the request tells them apart (R80). -/
inductive Code where
  | command (w : CommandWord)
  | unit (u : UnitCode)
  deriving DecidableEq, Repr

/-- Why a code word spells no instruction. -/
inductive DecodeError where
  /-- A command word with a reserved `OP` or a reserved `RM` (R83). -/
  | reservedCommand
  /-- A unit function code that R81 does not list (R84). -/
  | reservedUnitFunction
  deriving DecidableEq, Repr

/-- The `RM` field of a command word (R77). -/
def rmField (w : CommandWord) : BitVec 3 := w.extractLsb 5 3

/-- The `OP` field of a command word (R77). -/
def opField (w : CommandWord) : BitVec 3 := w.extractLsb 2 0

/-- The mode a code of R79 names; 101 to 111 are reserved. -/
def decodeRm (c : BitVec 3) : Option Rm :=
  match c.toNat with
  | 0 => some .rn
  | 1 => some .rd
  | 2 => some .ru
  | 3 => some .rz
  | 4 => some .ra
  | _ => none

/-- The code of a mode (R79). -/
def encodeRm : Rm → BitVec 3
  | .rn => 0b000#3
  | .rd => 0b001#3
  | .ru => 0b010#3
  | .rz => 0b011#3
  | .ra => 0b100#3

/-- The operation a code of R78 names, in a given mode; 100 to 111 are reserved. -/
def decodeOp (c : BitVec 3) (rm : Rm) : Option Instr :=
  match c.toNat with
  | 0 => some (.add rm)
  | 1 => some (.mul rm)
  | 2 => some (.fma rm)
  | 3 => some (.div rm)
  | _ => none

/-- Decoding a command word (R77, R78, R79, R83). -/
def decodeCommand (w : CommandWord) : Except DecodeError Instr :=
  match decodeRm (rmField w) with
  | none => .error .reservedCommand
  | some rm =>
    match decodeOp (opField w) rm with
    | none => .error .reservedCommand
    | some i => .ok i

/-- Decoding a unit function code: the table of R81, everything else reserved (R84). -/
def decodeUnit (u : UnitCode) : Except DecodeError Instr :=
  match u.toNat with
  | 0x00 => .ok .unpack
  | 0x01 => .ok .pack
  | 0x02 => .ok .quietnan
  | 0x10 => .ok .mwadd64
  | 0x11 => .ok .mwsub64
  | 0x12 => .ok .mwadd128
  | 0x13 => .ok .mwsub128
  | 0x14 => .ok .mwadd192
  | 0x15 => .ok .mwsub192
  | 0x16 => .ok .mwadd256
  | 0x17 => .ok .mwsub256
  | 0x18 => .ok .mwadd384
  | 0x19 => .ok .mwsub384
  | 0x1A => .ok .mwadd512
  | 0x1B => .ok .mwsub512
  | 0x20 => .ok .mul64x64_128
  | 0x21 => .ok .mul64x128_128
  | 0x22 => .ok .mul64x128_192
  | 0x23 => .ok .mul128x128_256
  | 0x24 => .ok .mul128x192_320
  | 0x25 => .ok .mul192x192_384
  | 0x26 => .ok .mul256x256_512
  | 0x30 => .ok .div128by128
  | 0x31 => .ok .div256by128
  | 0x40 => .ok .dcnt128
  | 0x41 => .ok .dcnt256
  | 0x50 => .ok .rnd64
  | 0x51 => .ok .rnd128
  | 0x52 => .ok .rnd192
  | 0x53 => .ok .rnd256
  | 0x60 => .ok .rmcorr
  | 0x61 => .ok .assemble
  | 0x70 => .ok .alignAdd
  | 0x71 => .ok .alignFma
  | 0x72 => .ok .divscale
  | _ => .error .reservedUnitFunction

/-- Decoding a code word of either kind. -/
def decode : Code → Except DecodeError Instr
  | .command w => decodeCommand w
  | .unit u => decodeUnit u

/-- The command word `(RM, OP)`, `RM` in bits 5:3 (R77). -/
def commandOf (rm : Rm) (op : BitVec 3) : CommandWord := encodeRm rm ++ op

/-- The code word of an instruction (R78, R79, R81). -/
def encode : Instr → Code
  | .add rm => .command (commandOf rm 0b000#3)
  | .mul rm => .command (commandOf rm 0b001#3)
  | .fma rm => .command (commandOf rm 0b010#3)
  | .div rm => .command (commandOf rm 0b011#3)
  | .unpack => .unit 0x00#8
  | .pack => .unit 0x01#8
  | .quietnan => .unit 0x02#8
  | .mwadd64 => .unit 0x10#8
  | .mwsub64 => .unit 0x11#8
  | .mwadd128 => .unit 0x12#8
  | .mwsub128 => .unit 0x13#8
  | .mwadd192 => .unit 0x14#8
  | .mwsub192 => .unit 0x15#8
  | .mwadd256 => .unit 0x16#8
  | .mwsub256 => .unit 0x17#8
  | .mwadd384 => .unit 0x18#8
  | .mwsub384 => .unit 0x19#8
  | .mwadd512 => .unit 0x1A#8
  | .mwsub512 => .unit 0x1B#8
  | .mul64x64_128 => .unit 0x20#8
  | .mul64x128_128 => .unit 0x21#8
  | .mul64x128_192 => .unit 0x22#8
  | .mul128x128_256 => .unit 0x23#8
  | .mul128x192_320 => .unit 0x24#8
  | .mul192x192_384 => .unit 0x25#8
  | .mul256x256_512 => .unit 0x26#8
  | .div128by128 => .unit 0x30#8
  | .div256by128 => .unit 0x31#8
  | .dcnt128 => .unit 0x40#8
  | .dcnt256 => .unit 0x41#8
  | .rnd64 => .unit 0x50#8
  | .rnd128 => .unit 0x51#8
  | .rnd192 => .unit 0x52#8
  | .rnd256 => .unit 0x53#8
  | .rmcorr => .unit 0x60#8
  | .assemble => .unit 0x61#8
  | .alignAdd => .unit 0x70#8
  | .alignFma => .unit 0x71#8
  | .divscale => .unit 0x72#8

/-- Which request a bare number of spec/opcode_table.json stands for. The table numbers command
words and unit function codes from 0 alike, so a number alone names both: DESIGN CHOICE (log entry 13),
the four numbers that the `ADD`, `MUL`, `FMA` and `DIV` rows fix (their free bits 0, mode `RN`) are
command words; any other number that R81 lists, or that does not fit 6 bits, is a unit function code;
what remains is a command word. A width of at most 6 bits is a command word's. -/
def tableCode (nbits w : Nat) : Code :=
  if nbits ≤ 6 ∨ w < 4 then .command (BitVec.ofNat 6 w)
  else if w ≥ 64 ∨ UnitCode.wf (BitVec.ofNat 8 w) then .unit (BitVec.ofNat 8 w)
  else .command (BitVec.ofNat 6 w)

/-- The instruction the decoder reads from a number of spec/opcode_table.json. -/
def decodeTableWord (nbits w : Nat) : Option Instr :=
  if w < 2 ^ nbits ∧ w < 256 then
    match decode (tableCode nbits w) with
    | .ok i => some i
    | .error _ => none
  else none

end Sys2Proof
end

