-- ==== Sys2Proof/Machine/State.lean ====
section
/-!
DEFINITION. The state of the block and of the requests made of it, as plain data, and the state
after reset (spec/10_state.md R22 to R33, spec/70_reset_and_hazards.md R390 to R399).
-/
namespace Sys2Proof.Machine

/-- The named unit faults of spec/60_exceptions.md R361. Each is recorded as a fault mark by a unit
function request outside the unit's precondition, never by an operation; the request drives no
output and changes no flag, and the next request is accepted (R398, R400). All are safe: no value is
produced where the spec gives none. No meaning ends in `Outcome.fault`. -/
inductive Fault where
  /-- Raised by `DCNT128` and `DCNT256` on a zero magnitude (R145). Safe. -/
  | zeroDigitCount
  /-- Raised by `RND64` to `RND256` outside their digit class or with `x` outside `1..q-1` (R192). Safe. -/
  | roundRange
  /-- Raised by `DIV128BY128` and `DIV256BY128` on a zero divisor (R125). Safe. -/
  | divideByZeroDivisor
  /-- Raised by `DIV256BY128` when the quotient needs more than 128 bits (R125). Safe. -/
  | quotientOverflow
  /-- Raised by `PACK`, and by `ASSEMBLE` through it, on an exponent or coefficient out of range (R171). Safe. -/
  | packRange
  /-- Raised by `QUIETNAN` on a record that is not a NaN (R172). Safe. -/
  | notNaN
  /-- Raised by `ASSEMBLE` on an exponent below `QMIN` (R208). Safe. -/
  | exponentRange
  /-- Raised by `ALIGN_ADD` and `ALIGN_FMA` on an operand that is not finite and nonzero (R243, R285). Safe. -/
  | alignOperand
  /-- Raised by `DIVSCALE` on an operand that is not finite and nonzero (R322). Safe. -/
  | divScaleOperand
  /-- Raised by a constant-table read outside the table (R51); no unit function commits one. Safe. -/
  | tableIndex
  deriving DecidableEq, Repr

/-- The refusals. The last three are recorded as refusal marks by a request the spec gives no
meaning; such a request drives no `RES` and changes no flag, and the next request is accepted (R83,
R398, R400). All are safe. No meaning ends in `Outcome.refused`. -/
inductive Refusal where
  /-- An instruction without a meaning in this model, raised by an arm of `exec`; there is none. Safe. -/
  | notModelled (mnemonic : String)
  /-- A command word with a reserved `OP` or `RM` (R83), recorded by the step. Safe. -/
  | reservedCommand
  /-- A unit function code R81 does not list (R84), recorded by the step. Safe. -/
  | reservedUnitFunction
  /-- Two operations in flight on one accumulator (R58, R395), recorded by the step. Safe. -/
  | sharedAccumulator
  deriving DecidableEq, Repr

/-- The operand ports of an operation request (R22). -/
structure Ports where
  a : Word
  b : Word
  c : Word
  deriving DecidableEq, Repr

/-- The input ports of a unit function request (R397, third row): every input any unit function
takes, under the name its rule gives it (numbers without a width: log entry 14). A function reads the ports its
rule names and no other. -/
structure UnitPorts where
  /-- `w` of `UNPACK` (R170). -/
  w : Word
  /-- `s` of `PACK`, `RMCORR`, `ASSEMBLE`. -/
  s : Bool
  /-- `E` of `PACK` (R171). -/
  E : Nat
  /-- `Cf` of `PACK`, `Cstar` of `RMCORR`, `C'` of `ASSEMBLE`. -/
  coef : Nat
  /-- `e` of `RMCORR`, `e'` of `ASSEMBLE`. -/
  exp : Int
  /-- `rm` of `RMCORR`, `ASSEMBLE`. -/
  rm : Rm
  /-- The indicator set of `RMCORR` (R207). -/
  ind : Indicators
  /-- `n` of `RMCORR`. -/
  n : Nat
  /-- `carried` of `RMCORR`. -/
  carried : Bool
  /-- `inexact` of `ASSEMBLE`. -/
  inexact : Bool
  /-- `tiny` of `ASSEMBLE`. -/
  tiny : Bool
  /-- The record of `QUIETNAN`, `x` of `ALIGN_ADD` and `DIVSCALE`, `z` of `ALIGN_FMA`. -/
  x : Record
  /-- `y` of `ALIGN_ADD` and `DIVSCALE`. -/
  y : Record
  /-- `prod` of `ALIGN_FMA` (R285). -/
  prod : Product
  /-- First integer input of the kernel, of the digit counter and of the rounding engine; a function
  of width `W` reads its low `W` bits (log entry 6). -/
  ia : BitVec 512
  /-- Second integer input of the kernel, read the same way. -/
  ib : BitVec 512
  /-- `cin` or `bin` of the adders and subtractors (R113). -/
  cin : Bool
  /-- `x` of the rounding engine: digits to discard (R191). -/
  discard : Nat
  deriving DecidableEq, Repr

/-- One host interaction (R397). -/
inductive Request where
  /-- An operation request: a command word and the operand ports. -/
  | operation (cmd : CommandWord) (p : Ports)
  /-- A unit function request: a unit function code and the unit's inputs. -/
  | unitFunction (ufc : UnitCode) (u : UnitPorts)
  /-- Two operation requests in flight at the same time on the one accumulator (R58, R395); their
  command words are not decoded (log entry 12). -/
  | overlapping (cmd₁ : CommandWord) (p₁ : Ports) (cmd₂ : CommandWord) (p₂ : Ports)
  /-- A new value for the bits of `FLAGS` that `mask` selects, between operations (log entry 16). -/
  | writeFlags (mask value : FlagWord)
  /-- A read of `FLAGS`, between operations. -/
  | readFlags
  deriving DecidableEq, Repr

/-- What `ALIGN_ADD` outputs (R243). -/
structure AddAlignment where
  L : Record
  S : Record
  d : Int
  region : AddRegion
  pow10 : Bool
  kL : Int
  kS : Int
  eA : Int
  deriving DecidableEq, Repr

/-- What `ALIGN_FMA` outputs (R285). -/
structure FmaAlignment where
  d : Int
  region : FmaRegion
  eA : Int
  k4 : Int
  k3 : Int
  deriving DecidableEq, Repr

/-- What `DIVSCALE` outputs (R322). -/
structure DivScaling where
  k : Nat
  N : Nat
  eq : Int
  deriving DecidableEq, Repr

/-- One output: the result word of an operation (R23), or the outputs of a unit function. -/
inductive Output where
  /-- `RES` of an operation. -/
  | res (w : Word)
  /-- `UNPACK` (R170). -/
  | record (r : Record)
  /-- `PACK`, `QUIETNAN` (R171, R172). -/
  | word (w : Word)
  /-- A `W`-bit sum and `cout`, or difference and `bout` (R113). -/
  | sum (W : Nat) (value : BitVec W) (carry : Bool)
  /-- A `W`-bit product (R115). -/
  | product (W : Nat) (p : BitVec W)
  /-- Quotient and remainder (R125). -/
  | quotient (q r : BitVec 128)
  /-- A digit count (R140). -/
  | digitCount (q : Nat)
  /-- `Cstar`, `incr` and the indicator set of the rounding engine (R191). -/
  | rounded (W : Nat) (Cstar : BitVec W) (incr : Bool) (ind : Indicators)
  /-- `(C', e')` of `RMCORR` (R207). -/
  | corrected (C : Int) (e : Int)
  /-- `(w, F)` of `ASSEMBLE` (R208). -/
  | assembled (w : Word) (F : FlagWord)
  /-- `ALIGN_ADD` (R243). -/
  | addAligned (a : AddAlignment)
  /-- `ALIGN_FMA` (R285). -/
  | fmaAligned (a : FmaAlignment)
  /-- `DIVSCALE` (R322). -/
  | divScaled (d : DivScaling)
  deriving DecidableEq, Repr

/-- The state. The spec gives the block one piece of state that survives an operation, `FLAGS` (R32);
the marks and the list of outputs are what R398 observes of a run. -/
structure State where
  /-- The model arguments of R7: no step changes them (log entry 3). -/
  args : ModelArgs
  /-- `FLAGS[5:0]` (R24, R25). -/
  flags : FlagWord
  /-- Values on the operand ports of the latest operation request (R22). -/
  ports : Ports
  /-- Values on the input ports of the latest unit function request (R397). -/
  unitPorts : UnitPorts
  /-- The host's interactions not yet taken, oldest first (R398; the model's own, log entry 1). -/
  pending : List Request
  /-- `RES` values and unit outputs, in issue order (R398). -/
  outputs : List Output
  /-- Values of `FLAGS` the host has read, in issue order (R397; the model's own, log entry 16). -/
  reads : List FlagWord
  /-- Fault marks, oldest first, kept to the end of the run (R398). -/
  faults : List Fault
  /-- Refusal marks, oldest first, kept to the end of the run (R398). -/
  refusals : List Refusal
  deriving DecidableEq, Repr

/-- Operand ports before any request: the spec gives them no reset value (R33). DESIGN CHOICE
(log entry 5): words of zeros. -/
def Ports.reset : Ports := ⟨0#128, 0#128, 0#128⟩

/-- A record of zeros: the decoding of the word of zeros. -/
def Record.reset : Record := ⟨.zero, false, 0#14, 0#113, 0#110⟩

/-- Unit input ports before any request: the spec gives them no reset value (R33). DESIGN CHOICE
(log entry 5): zeros. -/
def UnitPorts.reset : UnitPorts where
  w := 0#128
  s := false
  E := 0
  coef := 0
  exp := 0
  rm := .rn
  ind := ⟨false, false, false, false⟩
  n := 0
  carried := false
  inexact := false
  tiny := false
  x := Record.reset
  y := Record.reset
  prod := ⟨false, 0#256, 0, 0⟩
  ia := 0#512
  ib := 0#512
  cin := false
  discard := 0

/-- The state after reset under given model arguments: `FLAGS = FLAGS_INIT`, no marks, nothing
requested and nothing driven (R33, R391, R399). -/
def State.resetWith (args : ModelArgs) : State where
  args := args
  flags := args.flagsInit
  ports := Ports.reset
  unitPorts := UnitPorts.reset
  pending := []
  outputs := []
  reads := []
  faults := []
  refusals := []

/-- The state after reset under the default model arguments of R6. -/
def State.reset : State := State.resetWith ModelArgs.default

end Sys2Proof.Machine
end

