-- ==== Sys2Proof/Machine/Ops.lean ====
section
/-!
DEFINITION. The named operations over the state: driving an output, ORing into the accumulator,
recording a fault or a refusal mark (the block's only way to report one: it has no traps, R352, and
so no return from one), presenting ports, and the host's accesses to the accumulator.
-/
namespace Sys2Proof.Machine

/-- Drives an output: it is appended to the list of outputs (R398). -/
def State.emit (o : Output) (s : State) : State := { s with outputs := s.outputs ++ [o] }

/-- `FLAGS <- FLAGS | F` (R24). -/
def State.signal (F : FlagWord) (s : State) : State := { s with flags := s.flags ||| F }

/-- Ends an operation: drives `RES` and ORs its flag set into the accumulator once (R23, R24, R55). -/
def State.complete (r : Word × FlagWord) (s : State) : State := (s.emit (.res r.1)).signal r.2

/-- `fault Reason`: the request drives nothing and changes no flag; the mark is kept (R11, R361, R398). -/
def State.recordFault (r : Fault) (s : State) : State := { s with faults := s.faults ++ [r] }

/-- `refuse Reason`: the request drives nothing and changes no flag; the mark is kept (R11, R83, R398). -/
def State.recordRefusal (r : Refusal) (s : State) : State := { s with refusals := s.refusals ++ [r] }

/-- The first integer port at width `W`. -/
def portA (W : Nat) (s : State) : BitVec W := s.unitPorts.ia.extractLsb' 0 W

/-- The second integer port at width `W`. -/
def portB (W : Nat) (s : State) : BitVec W := s.unitPorts.ib.extractLsb' 0 W

/-- What a unit drives from what it computes, or its fault (R361). -/
def outputOf {α : Type} (f : α → Output) (r : Except Fault α) : Except Fault Output :=
  match r with
  | .ok x => .ok (f x)
  | .error e => .error e

/-- Ends a unit function: its output is driven, or its fault is recorded (R361). -/
def finishUnit (r : Except Fault Output) (s : State) : Host.Outcome State Fault Refusal :=
  match r with
  | .ok o => .next (s.emit o)
  | .error e => .next (s.recordFault e)

/-- Ends an operation, which never faults (R361). -/
def finishOperation (r : Word × FlagWord) (s : State) : Host.Outcome State Fault Refusal :=
  .next (s.complete r)

/-- The operand ports take the values of an operation request (R22). -/
def State.present (p : Ports) (s : State) : State := { s with ports := p }

/-- The unit input ports take the values of a unit function request (R397). -/
def State.presentUnit (u : UnitPorts) (s : State) : State := { s with unitPorts := u }

/-- The host writes the bits of `FLAGS` that `mask` selects (R25, R397). -/
def State.writeFlags (mask value : FlagWord) (s : State) : State :=
  { s with flags := (s.flags &&& ~~~mask) ||| (value &&& mask) }

/-- The host reads `FLAGS` (R397). -/
def State.readFlags (s : State) : State := { s with reads := s.reads ++ [s.flags] }

/-- The host's next interaction is taken. -/
def State.withPending (l : List Request) (s : State) : State := { s with pending := l }

end Sys2Proof.Machine
end

