-- ==== Sys2Proof/Machine/Flags.lean ====
section
/-!
DEFINITION. The flag bits of `FLAGS` and the flag sets operations signal (spec/10_state.md R25,
spec/60_exceptions.md R351 to R360).
-/
namespace Sys2Proof.Machine

/-- `IE` invalid operation, bit 0 (R25, R351). -/
def flagIE : FlagWord := 0x01#6

/-- `DE` denormal, bit 1: no operation sets it (R25, R357). -/
def flagDE : FlagWord := 0x02#6

/-- `ZE` divide-by-zero, bit 2 (R25, R353). -/
def flagZE : FlagWord := 0x04#6

/-- `OE` overflow, bit 3 (R25, R354). -/
def flagOE : FlagWord := 0x08#6

/-- `UE` underflow, bit 4 (R25, R355). -/
def flagUE : FlagWord := 0x10#6

/-- `PE` inexact, bit 5 (R25, R356). -/
def flagPE : FlagWord := 0x20#6

/-- The empty flag set. -/
def noFlags : FlagWord := 0#6

/-- Overflow is always signalled with inexact (R354). -/
def overflowFlags : FlagWord := flagOE ||| flagPE

/-- The flags of a finite result that did not overflow: none if exact, `PE` if inexact, `UE` with it
if tiny (R218, R355). -/
def finiteFlags (inexact tiny : Bool) : FlagWord :=
  if inexact then (if tiny then flagPE ||| flagUE else flagPE) else noFlags

/-- `IE` exactly when some operand the operation reads is a signaling NaN (R358). -/
def nanFlags (order : List Record) : FlagWord :=
  if order.any (fun r => r.cls == .snan) then flagIE else noFlags

end Sys2Proof.Machine
end

