-- ==== Sys2Proof/Machine/Operands.lean ====
section
/-!
DEFINITION. Every operand form: the decimal128 word and its fields, the decoder's record, packing and
NaN quieting (spec/30_encoding.md R70 to R89, spec/42_decoder.md R160 to R173), and the exact values the
operations compute with (spec/00_scope.md R10, R12).
-/
namespace Sys2Proof.Machine

/-- `digits(n)` for `n ≥ 1`: the least `d ≥ 1` with `n < 10^d` (R10). Callers exclude `n = 0`. -/
def digits (n : Nat) : Nat := Nat.log 10 n + 1

/-- `bitlen(n)` for `n ≥ 1`: the least `b ≥ 1` with `n < 2^b` (R10). Callers exclude `n = 0`. -/
def bitlen (n : Nat) : Nat := Nat.log 2 n + 1

/-- `clamp(v, lo, hi) = min(max(v, lo), hi)` (R10). -/
def clamp (v lo hi : Int) : Int := min (max v lo) hi

/-- A NaN record: `QNAN` or `SNAN` (R12). -/
def isNaN (r : Record) : Bool := r.cls == .qnan || r.cls == .snan

/-- `UNPACK(w)` under a payload limit (R162 to R166, R170). -/
def unpack (limit : Nat) (w : Word) : Record :=
  let s := w.getLsbD 127
  if w.extractLsb 126 122 = 0b11111#5 then
    let PL : BitVec 110 := w.extractLsb' 0 110
    { cls := if w.getLsbD 121 then .snan else .qnan, s := s, E := 0, Cf := 0,
      PL := if PL.toNat ≤ limit then PL else 0 }
  else if w.extractLsb 126 122 = 0b11110#5 then
    { cls := .inf, s := s, E := 0, Cf := 0, PL := 0 }
  else if w.extractLsb 126 125 = 0b11#2 then
    { cls := .zero, s := s, E := w.extractLsb' 111 14, Cf := 0, PL := 0 }
  else
    let F : BitVec 113 := w.extractLsb' 0 113
    let Cf : BitVec 113 := if F.toNat > Config.CMAX then 0 else F
    { cls := if Cf = 0 then .zero else .finite, s := s, E := w.extractLsb' 113 14, Cf := Cf, PL := 0 }

/-- The standard form `(s, E[13:0], Cf[112:0])` (R71, R171). -/
def packWord (s : Bool) (E Cf : Nat) : Word :=
  (BitVec.ofBool s ++ BitVec.ofNat 14 E) ++ BitVec.ofNat 113 Cf

/-- `PACK(s, E, Cf)`, with its precondition (R171). -/
def pack (s : Bool) (E Cf : Nat) : Except Fault Word :=
  if E ≤ Config.EBMAX ∧ Cf ≤ Config.CMAX then .ok (packWord s E Cf) else .error .packRange

/-- `INF(s)` (R75). -/
def infWord (s : Bool) : Word := (BitVec.ofBool s ++ 0b11110#5) ++ 0#122

/-- The quiet NaN of sign `s` and payload `PL` (R75, R172). -/
def qnanWord (s : Bool) (PL : BitVec 110) : Word :=
  ((BitVec.ofBool s ++ 0b11111#5) ++ 0#12) ++ PL

/-- `DNAN`: the default NaN, positive with payload 0 (R75). -/
def dnan : Word := qnanWord false 0

/-- `MAXFIN(s)` (R75). -/
def maxfin (s : Bool) : Word := packWord s Config.EBMAX Config.CMAX

/-- `QUIETNAN` of a record (R172). A payload above the limit, which no decoder produces, is written as it
stands (log entry 7). -/
def quietNaN (r : Record) : Except Fault Word :=
  if isNaN r then .ok (qnanWord r.s r.PL) else .error .notNaN

/-- The quantum exponent `e = E - BIAS` of a record (R12). -/
def quantumExp (r : Record) : Int := (r.E.toNat : Int) - Config.BIAS

/-- The signed coefficient `(-1)^s × Cf` of a record (R12). -/
def signedCoef (r : Record) : Int := if r.s then -(r.Cf.toNat : Int) else (r.Cf.toNat : Int)

/-- `NaNResult(order)`: the quiet canonical copy of the first NaN in the order, and `IE` exactly when
some operand is a signaling NaN (R358). The operations call it only with a NaN in the order; without
one it answers the default NaN. -/
def nanResult (order : List Record) : Word × FlagWord :=
  match order.find? isNaN with
  | some r => (qnanWord r.s r.PL, nanFlags order)
  | none => (dnan, nanFlags order)

/-- An exact positive value `num / den × 10^exp`: a rational that no width bounds (R10). -/
structure Magnitude where
  num : Nat
  den : Nat
  exp : Int
  deriving DecidableEq, Repr

/-- `v / 10^q` as a fraction of natural numbers: numerator and denominator. -/
def atExp (v : Magnitude) (q : Int) : Nat × Nat :=
  (v.num * 10 ^ (v.exp - q).toNat, v.den * 10 ^ (q - v.exp).toNat)

/-- `floor_log10(v)`: the integer `L` with `10^L ≤ v < 10^(L+1)` (R10). -/
def floorLog10 (v : Magnitude) : Int :=
  let d : Int := (digits v.num : Int) - digits v.den
  let (n, m) := atExp ⟨v.num, v.den, 0⟩ d
  if m ≤ n then v.exp + d else v.exp + d - 1

/-- The largest `j ≤ fuel` with `10^j` dividing `n`, for `n ≥ 1`. -/
def trailingZerosFuel : Nat → Nat → Nat
  | 0, _ => 0
  | fuel + 1, n => if n % 10 = 0 then trailingZerosFuel fuel (n / 10) + 1 else 0

/-- The number of trailing decimal zeros of `n ≥ 1`: the largest `j` with `10^j` dividing `n`. -/
def trailingZeros (n : Nat) : Nat := trailingZerosFuel (digits n) n

end Sys2Proof.Machine
end

