-- ==== Sys2Proof/Machine/Tables.lean ====
section
/-!
DEFINITION. The constant tables the units read (spec/10_state.md R31, spec/41_digit_counter.md R142).
A table is read whole by index, in entries of 64, 128, 192 or 256 bits; an index outside it is
`fault TableIndex` (spec/20_memory.md R51). No unit of the model reads `KX`, `EX`, `MASK` and `TEN2MXTRUNC`:
their contents are free values of Config, and the engine's result is the exact one (spec/43_rounding.md R198;
log entry 10).
-/
namespace Sys2Proof.Machine

/-- One entry of a table: its width and its content, read whole (R51). -/
structure TableEntry where
  width : Nat
  value : BitVec width
  deriving DecidableEq, Repr

/-- One entry of `NR_DIGITS`: the candidate digit count and the ambiguity bit, 64 bits together. R51 gives
the width; how the two share it is not in the source (N2; log entry 20). -/
structure DigitEntry where
  d : BitVec 63
  amb : Bool
  deriving DecidableEq, Repr

/-- The narrowest of the entry widths of R51 that holds a constant (log entry 20). -/
def entryWidth (v : Nat) : Nat :=
  if v < 2 ^ 64 then 64 else if v < 2 ^ 128 then 128 else if v < 2 ^ 192 then 192 else 256

/-- The entry that holds a constant below `2^256`. -/
def entryOf (v : Nat) : TableEntry := ⟨entryWidth v, BitVec.ofNat (entryWidth v) v⟩

/-- The width of an entry of `DIGIT_THRESH`: two limbs for `b ≤ 128`, four above (R142). -/
def threshWidth (b : Nat) : Nat := if b ≤ 128 then 128 else 256

/-- `NR_DIGITS`, bit lengths 1 to 64, as R142 lists it: the candidate digit count, and whether the bit
length spans two digit counts. -/
def nrDigits1 : List (Nat × Bool) :=
  [(1, false), (1, false), (1, false), (1, true), (2, false), (2, false), (2, true), (3, false),
   (3, false), (3, true), (4, false), (4, false), (4, false), (4, true), (5, false), (5, false),
   (5, true), (6, false), (6, false), (6, true), (7, false), (7, false), (7, false), (7, true),
   (8, false), (8, false), (8, true), (9, false), (9, false), (9, true), (10, false), (10, false),
   (10, false), (10, true), (11, false), (11, false), (11, true), (12, false), (12, false), (12, true),
   (13, false), (13, false), (13, false), (13, true), (14, false), (14, false), (14, true), (15, false),
   (15, false), (15, true), (16, false), (16, false), (16, false), (16, true), (17, false), (17, false),
   (17, true), (18, false), (18, false), (18, true), (19, false), (19, false), (19, false), (19, true)]

/-- `NR_DIGITS`, bit lengths 65 to 128 (R142). -/
def nrDigits2 : List (Nat × Bool) :=
  [(20, false), (20, false), (20, true), (21, false), (21, false), (21, true), (22, false), (22, false),
   (22, false), (22, true), (23, false), (23, false), (23, true), (24, false), (24, false), (24, true),
   (25, false), (25, false), (25, false), (25, true), (26, false), (26, false), (26, true), (27, false),
   (27, false), (27, true), (28, false), (28, false), (28, false), (28, true), (29, false), (29, false),
   (29, true), (30, false), (30, false), (30, true), (31, false), (31, false), (31, true), (32, false),
   (32, false), (32, false), (32, true), (33, false), (33, false), (33, true), (34, false), (34, false),
   (34, true), (35, false), (35, false), (35, false), (35, true), (36, false), (36, false), (36, true),
   (37, false), (37, false), (37, true), (38, false), (38, false), (38, false), (38, true), (39, false)]

/-- `NR_DIGITS`, bit lengths 129 to 192 (R142). -/
def nrDigits3 : List (Nat × Bool) :=
  [(39, false), (39, true), (40, false), (40, false), (40, true), (41, false), (41, false), (41, false),
   (41, true), (42, false), (42, false), (42, true), (43, false), (43, false), (43, true), (44, false),
   (44, false), (44, false), (44, true), (45, false), (45, false), (45, true), (46, false), (46, false),
   (46, true), (47, false), (47, false), (47, false), (47, true), (48, false), (48, false), (48, true),
   (49, false), (49, false), (49, true), (50, false), (50, false), (50, false), (50, true), (51, false),
   (51, false), (51, true), (52, false), (52, false), (52, true), (53, false), (53, false), (53, false),
   (53, true), (54, false), (54, false), (54, true), (55, false), (55, false), (55, true), (56, false),
   (56, false), (56, false), (56, true), (57, false), (57, false), (57, true), (58, false), (58, false)]

/-- `NR_DIGITS`, bit lengths 193 to 256 (R142). -/
def nrDigits4 : List (Nat × Bool) :=
  [(58, true), (59, false), (59, false), (59, true), (60, false), (60, false), (60, false), (60, true),
   (61, false), (61, false), (61, true), (62, false), (62, false), (62, true), (63, false), (63, false),
   (63, false), (63, true), (64, false), (64, false), (64, true), (65, false), (65, false), (65, true),
   (66, false), (66, false), (66, false), (66, true), (67, false), (67, false), (67, true), (68, false),
   (68, false), (68, true), (69, false), (69, false), (69, false), (69, true), (70, false), (70, false),
   (70, true), (71, false), (71, false), (71, true), (72, false), (72, false), (72, false), (72, true),
   (73, false), (73, false), (73, true), (74, false), (74, false), (74, true), (75, false), (75, false),
   (75, false), (75, true), (76, false), (76, false), (76, true), (77, false), (77, false), (77, true)]

/-- `NR_DIGITS` in full: entry `b` at position `b - 1`. -/
def nrDigits : List (Nat × Bool) := nrDigits1 ++ nrDigits2 ++ nrDigits3 ++ nrDigits4

/-- `ROM_NR_DIGITS[b]`, `1 ≤ b ≤ 256`. -/
def romNrDigits (b : Nat) : Except Fault DigitEntry :=
  match b with
  | 0 => .error .tableIndex
  | k + 1 =>
    match nrDigits[k]? with
    | some e => .ok ⟨BitVec.ofNat 63 e.1, e.2⟩
    | none => .error .tableIndex

/-- `ROM_DIGIT_THRESH[b]`: `10^d` at an ambiguous bit length; at any other the entry is unused and a free
value (R142; log entry 20). -/
def romDigitThresh (b : Nat) : Except Fault TableEntry :=
  match romNrDigits b with
  | .ok e =>
    .ok ⟨threshWidth b,
      if e.amb then BitVec.ofNat (threshWidth b) (10 ^ e.d.toNat)
      else Config.unusedThreshold (threshWidth b) b⟩
  | .error e => .error e

/-- `ROM_TEN_POW[k] = 10^k`, `0 ≤ k ≤ 76` (R31; the end of the range is the model's, log entry 11). -/
def romTenPow (k : Nat) : Except Fault TableEntry :=
  if k ≤ 76 then .ok (entryOf (10 ^ k)) else .error .tableIndex

/-- `ROM_HALF_ULP[x] = 5 * 10^(x-1)`, `1 ≤ x ≤ 75` (R31, R198). -/
def romHalfUlp (x : Nat) : Except Fault TableEntry :=
  if 1 ≤ x ∧ x ≤ 75 then .ok (entryOf (5 * 10 ^ (x - 1))) else .error .tableIndex

end Sys2Proof.Machine
end

