-- ==== Sys2Proof/Machine/Rounding.lean ====
section
/-!
DEFINITION. Rounding: the engine, the rounding-mode correction, the assembler, and the normative
`RoundToFormat` with its overflow and tininess rules (spec/43_rounding.md R190 to R220); then the
meanings of the unit functions `RND64`, `RND128`, `RND192`, `RND256`, `RMCORR` and `ASSEMBLE`.
-/
namespace Sys2Proof.Machine

/-- The engine's result (R191). -/
structure Rounded where
  Cstar : Nat
  incr : Bool
  ind : Indicators
  deriving DecidableEq, Repr

/-- No indicator: the rounding was exact (R193). -/
def indExact : Indicators := ⟨false, false, false, false⟩

/-- `LT_MID` (R193). -/
def indLtMid : Indicators := ⟨true, false, false, false⟩

/-- `GT_MID` (R193). -/
def indGtMid : Indicators := ⟨false, true, false, false⟩

/-- `MID_DN` (R193). -/
def indMidDn : Indicators := ⟨false, false, true, false⟩

/-- `MID_UP` (R193). -/
def indMidUp : Indicators := ⟨false, false, false, true⟩

/-- The magnitude was rounded down (R206). -/
def roundedDown (i : Indicators) : Bool := i.ltMid || i.midDn

/-- The magnitude was rounded up (R206). -/
def roundedUp (i : Indicators) : Bool := i.gtMid || i.midUp

/-- Some indicator is set: the rounding was inexact (R193). -/
def anyIndicator (i : Indicators) : Bool := roundedDown i || roundedUp i

/-- Quotient `Q` rounded to nearest, ties to even, from the remainder `R` against half a unit: the
comparison is of `R` with `half` (R191, R193). -/
def classify (Q R half : Nat) : Nat × Indicators :=
  if R = 0 then (Q, indExact)
  else if R < half then (Q, indLtMid)
  else if half < R then (Q + 1, indGtMid)
  else if Q % 2 = 0 then (Q, indMidDn)
  else (Q + 1, indMidUp)

/-- `RND(C, x)` with the half-ulp constant given (R191). -/
def rndWith (half C x : Nat) : Rounded :=
  let (c, ind) := classify (C / 10 ^ x) (C % 10 ^ x) half
  if c = 10 ^ (digits C - x) then ⟨10 ^ (digits C - x - 1), true, ind⟩ else ⟨c, false, ind⟩

/-- `RND(C, x)` for `1 ≤ x ≤ digits(C) - 1` (R191). -/
def rnd (C x : Nat) : Rounded := rndWith (5 * 10 ^ (x - 1)) C x

/-- One routine of the engine: its class of digit counts, its precondition, and its half-ulp constant
read from `HALF_ULP` (R190, R192, R198). -/
def rndUnit (lo hi C x : Nat) : Except Fault Rounded :=
  if lo ≤ digits C ∧ digits C ≤ hi ∧ 1 ≤ x ∧ x ≤ digits C - 1 then
    match romHalfUlp x with
    | .ok half => .ok (rndWith half.value.toNat C x)
    | .error e => .error e
  else .error .roundRange

/-- `inc` of `RMCORR` (R204, R206, R207). -/
def rmIncrements (s : Bool) (rm : Rm) (i : Indicators) : Bool :=
  match rm with
  | .ra => i.midDn
  | .ru => roundedDown i && !s
  | .rd => roundedDown i && s
  | .rn | .rz => false

/-- `dec` of `RMCORR` (R205, R206, R207). -/
def rmDecrements (s : Bool) (rm : Rm) (i : Indicators) : Bool :=
  match rm with
  | .rz => roundedUp i
  | .ru => roundedUp i && s
  | .rd => roundedUp i && !s
  | .rn | .ra => false

/-- `RMCORR(s, rm, Cstar, e, ind, n, carried)` (R207). The corrected coefficient is an integer: with a
`Cstar` of 0, which no engine gives beside `GT_MID` or `MID_UP`, the rule's `Cstar - 1` is -1 (log entry 8).
`Cstar = 10^(n-1)` is written `10 × Cstar = 10^n`, which says the same for every `n`. -/
def rmcorr (s : Bool) (rm : Rm) (Cstar : Nat) (e : Int) (ind : Indicators) (n : Nat) (carried : Bool) :
    Int × Int :=
  if rmIncrements s rm ind then
    if Cstar + 1 = 10 ^ Config.P then (10 ^ (Config.P - 1), e + 1) else ((Cstar : Int) + 1, e)
  else if rmDecrements s rm ind then
    if carried = true ∧ 10 * Cstar = 10 ^ n then (10 ^ n - 1, e - 1) else ((Cstar : Int) - 1, e)
  else (Cstar, e)

/-- `OVF(s, rm)` (R210). -/
def ovfWord (s : Bool) (rm : Rm) : Word :=
  match rm with
  | .rn | .ra => infWord s
  | .rz => maxfin s
  | .ru => if s then maxfin s else infWord s
  | .rd => if s then infWord s else maxfin s

/-- An overflow: its result and its flags (R208, R210). -/
def overflow (s : Bool) (rm : Rm) : Word × FlagWord := (ovfWord s rm, overflowFlags)

/-- The biased exponent `q + BIAS` as a natural number. -/
def biased (q : Int) : Nat := (q + Config.BIAS).toNat

/-- A packed word with a flag set, or the fault of the packing (R171, R208). -/
def packed (s : Bool) (E Cf : Nat) (F : FlagWord) : Except Fault (Word × FlagWord) :=
  match pack s E Cf with
  | .ok w => .ok (w, F)
  | .error e => .error e

/-- `ASSEMBLE(s, C', e', rm, inexact, tiny)` (R208); a coefficient the packer does not accept is the
packer's fault (log entry 9). -/
def assemble (s : Bool) (C : Nat) (e : Int) (rm : Rm) (inexact tiny : Bool) :
    Except Fault (Word × FlagWord) :=
  if e < Config.QMIN then .error .exponentRange
  else if Config.QMAX < e then
    let k := (e - Config.QMAX).toNat
    if inexact = false ∧ (C = 0 ∨ digits C + k ≤ Config.P) then
      packed s Config.EBMAX (C * 10 ^ k) noFlags
    else .ok (overflow s rm)
  else packed s (biased e) C (finiteFlags inexact tiny)

/-- `RoundInt(s, n / d, rm)` (R211). -/
def roundInt (s : Bool) (rm : Rm) (n d : Nat) : Nat :=
  let F := n / d
  let R := n % d
  if R = 0 then F
  else
    match rm with
    | .rz => F
    | .ru => if s then F else F + 1
    | .rd => if s then F + 1 else F
    | .rn => if 2 * R < d then F else if d < 2 * R then F + 1 else if F % 2 = 0 then F else F + 1
    | .ra => if 2 * R < d then F else F + 1

/-- `a × 10^i < b × 10^j`. -/
def scaledLt (a : Nat) (i : Int) (b : Nat) (j : Int) : Bool :=
  decide (a * 10 ^ (i - j).toNat < b * 10 ^ (j - i).toNat)

/-- The magnitude rounded to `P` digits at the exponent `q0`: the coefficient before and after the
carry into the next decade, with its exponent (R212, R214). -/
def roundAt (s : Bool) (rm : Rm) (v : Magnitude) (q0 : Int) : Nat × Int :=
  let (n, d) := atExp v q0
  let C0 := roundInt s rm n d
  if C0 = 10 ^ Config.P then (10 ^ (Config.P - 1), q0 + 1) else (C0, q0)

/-- `Tiny(s, v, rm)` under the `TININESS` policy (R214). -/
def tiny (policy : Tininess) (s : Bool) (v : Magnitude) (rm : Rm) : Bool :=
  match policy with
  | .before => decide (floorLog10 v < Config.EMIN)
  | .after =>
    let (C1, q1) := roundAt s rm v (floorLog10 v - (Config.P - 1 : Nat))
    scaledLt C1 q1 1 Config.EMIN

/-- `q0`, the exponent of the last kept digit (R212). -/
def lastKept (v : Magnitude) : Int := max (floorLog10 v - (Config.P - 1 : Nat)) Config.QMIN

/-- `v / 10^q` is not an integer. -/
def inexactAt (v : Magnitude) (q : Int) : Bool :=
  let (n, d) := atExp v q
  decide (n % d ≠ 0)

/-- The exact result of a value that is the integer `N` at exponent `q0`: the member of its cohort
closest to the preferred exponent (R212, R215). -/
def exactResult (s : Bool) (N : Nat) (q0 pref : Int) : Word × FlagWord :=
  let qb := q0 + trailingZeros N
  let q := clamp pref q0 (min qb Config.QMAX)
  (packWord s (biased q) (N / 10 ^ (q - q0).toNat), noFlags)

/-- `RoundToFormat(s, v, pref, rm)` (R212). -/
def roundToFormat (policy : Tininess) (s : Bool) (v : Magnitude) (pref : Int) (rm : Rm) :
    Word × FlagWord :=
  let q0 := lastKept v
  let (C, q) := roundAt s rm v q0
  if Config.QMAX < q then overflow s rm
  else if inexactAt v q0 then (packWord s (biased q) C, finiteFlags true (tiny policy s v rm))
  else exactResult s C q pref

/-- The sign of an exact zero sum (R217, R240). -/
def zsign (a b : Bool) (rm : Rm) : Bool := if a = b then a else decide (rm = .rd)

/-- The result of an exact signed sum `m × 10^e` of two terms with signs `sa` and `sb`: the zero of R217
or the sum rounded once. This is the shared helper of `ADD` and `FMA` (R240, R280, R288). -/
def sumResult (policy : Tininess) (rm : Rm) (m : Int) (e pref : Int) (sa sb : Bool) : Word × FlagWord :=
  if m = 0 then (packWord (zsign sa sb rm) (biased pref) 0, noFlags)
  else roundToFormat policy (decide (m < 0)) ⟨m.natAbs, 1, e⟩ pref rm

/-- The output of a routine of width `W` (R190). -/
def roundedOutput (W : Nat) (r : Rounded) : Output := .rounded W (BitVec.ofNat W r.Cstar) r.incr r.ind

/-- The outputs of `RMCORR` (R207). -/
def correctedOutput (r : Int × Int) : Output := .corrected r.1 r.2

/-- The outputs of `ASSEMBLE` (R208). -/
def assembledOutput (r : Word × FlagWord) : Output := .assembled r.1 r.2

/-- A routine of width `W` and digit class `lo` to `hi` on the ports (R190, R191). -/
def runRnd (W lo hi : Nat) (s : State) : Host.Outcome State Fault Refusal :=
  finishUnit (outputOf (roundedOutput W) (rndUnit lo hi (portA W s).toNat s.unitPorts.discard)) s

/-- `RND64` (R196). -/
def execRnd64 (s : State) : Host.Outcome State Fault Refusal := runRnd 64 2 18 s

/-- `RND128` (R197). -/
def execRnd128 (s : State) : Host.Outcome State Fault Refusal := runRnd 128 19 38 s

/-- `RND192` (R199). -/
def execRnd192 (s : State) : Host.Outcome State Fault Refusal := runRnd 192 39 57 s

/-- `RND256` (R200). -/
def execRnd256 (s : State) : Host.Outcome State Fault Refusal := runRnd 256 58 76 s

/-- `RMCORR` (R207). -/
def execRmcorr (s : State) : Host.Outcome State Fault Refusal :=
  let u := s.unitPorts
  finishUnit (.ok (correctedOutput (rmcorr u.s u.rm u.coef u.exp u.ind u.n u.carried))) s

/-- `ASSEMBLE` (R208): its flag set is an output; the operation that uses the unit ORs it into `FLAGS`. -/
def execAssemble (s : State) : Host.Outcome State Fault Refusal :=
  let u := s.unitPorts
  finishUnit (outputOf assembledOutput (assemble u.s u.coef u.exp u.rm u.inexact u.tiny)) s

end Sys2Proof.Machine
end

