-- ==== Sys2Proof/Machine/Add.lean ====
section
/-!
DEFINITION. `ADD` and its alignment unit `ALIGN_ADD` (spec/44_add.md R240 to R252).
-/
namespace Sys2Proof.Machine

/-- A record an alignment or scaling unit accepts: finite and nonzero (R243, R285, R322). A record of
class `FINITE` with a zero coefficient, which no decoder produces, counts as a zero (log entry 7). -/
def finiteNonzero (r : Record) : Bool := r.cls == .finite && decide (r.Cf ≠ 0)

/-- The digit count `q` of a record's coefficient (R242). -/
def coefDigits (r : Record) : Nat := digits r.Cf.toNat

/-- `q + e`: one more than the exponent of the leading digit (R242). -/
def leadPos (r : Record) : Int := (coefDigits r : Int) + quantumExp r

/-- The alignment of `L` and `S`, `L` the operand with the larger `q + e` (R243). -/
def alignOrdered (L S : Record) : AddAlignment :=
  let d := leadPos L - leadPos S
  let pow10 := decide (L.s ≠ S.s) && decide (L.Cf.toNat = 10 ^ (coefDigits L - 1))
  if (Config.P : Int) < d then
    let kL := (Config.P : Int) - coefDigits L
    { L := L, S := S, d := d, region := .absorb, pow10 := pow10, kL := kL, kS := 0,
      eA := quantumExp L - kL }
  else
    let eA := min (quantumExp L) (quantumExp S)
    { L := L, S := S, d := d, region := .exact, pow10 := pow10, kL := quantumExp L - eA,
      kS := quantumExp S - eA, eA := eA }

/-- `ALIGN_ADD(x, y)` (R243). -/
def alignAdd (x y : Record) : Except Fault AddAlignment :=
  if finiteNonzero x && finiteNonzero y then
    .ok (if leadPos y ≤ leadPos x then alignOrdered x y else alignOrdered y x)
  else .error .alignOperand

/-- The exact signed sum of two finite records as an integer at the smaller of their exponents. -/
def exactSum (x y : Record) : Int :=
  let e := min (quantumExp x) (quantumExp y)
  signedCoef x * 10 ^ (quantumExp x - e).toNat + signedCoef y * 10 ^ (quantumExp y - e).toNat

/-- `ADD(A, B, RM)` on decoded operands: `RES` and the flag set (R240). -/
def addRecords (policy : Tininess) (rm : Rm) (x y : Record) : Word × FlagWord :=
  if isNaN x || isNaN y then nanResult [x, y]
  else if x.cls = .inf ∧ y.cls = .inf then
    if x.s ≠ y.s then (dnan, flagIE) else (infWord x.s, noFlags)
  else if x.cls = .inf then (infWord x.s, noFlags)
  else if y.cls = .inf then (infWord y.s, noFlags)
  else
    let pref := min (quantumExp x) (quantumExp y)
    sumResult policy rm (exactSum x y) pref pref x.s y.s

/-- `ADD(A, B, RM)` on words (R240); port `C` is not read (R34). -/
def addWords (args : ModelArgs) (rm : Rm) (a b : Word) : Word × FlagWord :=
  addRecords args.tininess rm (unpack args.nanPayloadLimit a) (unpack args.nanPayloadLimit b)

/-- `ADD.<RM>` (R240). -/
def execAdd (rm : Rm) (s : State) : Host.Outcome State Fault Refusal :=
  finishOperation (addWords s.args rm s.ports.a s.ports.b) s

/-- `ALIGN_ADD` (R243). -/
def execAlignAdd (s : State) : Host.Outcome State Fault Refusal :=
  finishUnit (outputOf .addAligned (alignAdd s.unitPorts.x s.unitPorts.y)) s

end Sys2Proof.Machine
end

