-- ==== Sys2Proof/Machine/Decoder.lean ====
section
/-!
DEFINITION. The unit functions of the decoder: `UNPACK`, `PACK`, `QUIETNAN` (spec/42_decoder.md).
-/
namespace Sys2Proof.Machine

/-- `UNPACK` (R170). -/
def execUnpack (s : State) : Host.Outcome State Fault Refusal :=
  finishUnit (.ok (.record (unpack s.args.nanPayloadLimit s.unitPorts.w))) s

/-- `PACK` (R171). -/
def execPack (s : State) : Host.Outcome State Fault Refusal :=
  finishUnit (outputOf .word (pack s.unitPorts.s s.unitPorts.E s.unitPorts.coef)) s

/-- `QUIETNAN` (R172). -/
def execQuietnan (s : State) : Host.Outcome State Fault Refusal :=
  finishUnit (outputOf .word (quietNaN s.unitPorts.x)) s

end Sys2Proof.Machine
end

