-- ==== Sys2Proof/Machine/DigitCounter.lean ====
section
/-!
DEFINITION. The digit counter with its lookup table (spec/41_digit_counter.md R140 to R146).
-/
namespace Sys2Proof.Machine

/-- `DCNT(C)`: the table's estimate by bit length, and the comparison with the threshold where the
estimate is ambiguous (R141, R145). -/
def dcnt (C : Nat) : Except Fault Nat :=
  if C = 0 then .error .zeroDigitCount
  else
    match romNrDigits (bitlen C) with
    | .error e => .error e
    | .ok entry =>
      if entry.amb then
        match romDigitThresh (bitlen C) with
        | .error e => .error e
        | .ok t => if t.value.toNat ≤ C then .ok (entry.d.toNat + 1) else .ok entry.d.toNat
      else .ok entry.d.toNat

/-- The digit counter of width `W` on the ports. -/
def runDcnt (W : Nat) (s : State) : Host.Outcome State Fault Refusal :=
  finishUnit (outputOf .digitCount (dcnt (portA W s).toNat)) s

/-- `DCNT128` (R143). -/
def execDcnt128 (s : State) : Host.Outcome State Fault Refusal := runDcnt 128 s

/-- `DCNT256` (R144). -/
def execDcnt256 (s : State) : Host.Outcome State Fault Refusal := runDcnt 256 s

end Sys2Proof.Machine
end

