-- ==== Sys2Proof/Machine/Divide.lean ====
section
/-!
DEFINITION. `DIV` and its scaling unit `DIVSCALE` (spec/46_divide.md R320 to R329).
-/
namespace Sys2Proof.Machine

/-- The least `k` from `k0` on, at most `fuel` steps away, with `(C1 × 10^k) div C2 ≥ 10^(P-1)`. -/
def leastScale (C1 C2 : Nat) : Nat → Nat → Nat
  | 0, k0 => k0
  | fuel + 1, k0 =>
    if 10 ^ (Config.P - 1) ≤ C1 * 10 ^ k0 / C2 then k0 else leastScale C1 C2 fuel (k0 + 1)

/-- `DIVSCALE(x, y)` (R322): the least `k ≥ 0` is at most 68 for every 113-bit divisor. The power is
read from `TEN_POW`. -/
def divScale (x y : Record) : Except Fault DivScaling :=
  if finiteNonzero x && finiteNonzero y then
    let k := leastScale x.Cf.toNat y.Cf.toNat 68 0
    match romTenPow k with
    | .ok t => .ok { k := k, N := x.Cf.toNat * t.value.toNat, eq := quantumExp x - quantumExp y - k }
    | .error e => .error e
  else .error .divScaleOperand

/-- `DIV(A, B, RM)` on decoded operands: `RES` and the flag set (R320, R321). -/
def divRecords (args : ModelArgs) (rm : Rm) (x y : Record) : Word × FlagWord :=
  let s := x.s ^^ y.s
  if isNaN x || isNaN y then nanResult [x, y]
  else if x.cls = .inf then
    if y.cls = .inf then (dnan, flagIE)
    else (infWord s, if y.cls = .zero ∧ args.infDivZeroDz = true then flagZE else noFlags)
  else if y.cls = .inf then (packWord s 0 0, noFlags)
  else if y.cls = .zero then
    if x.cls = .zero then (dnan, flagIE) else (infWord s, flagZE)
  else
    let e := quantumExp x - quantumExp y
    let pref := clamp e Config.QMIN Config.QMAX
    if x.cls = .zero then (packWord s (biased pref) 0, noFlags)
    else roundToFormat args.tininess s ⟨x.Cf.toNat, y.Cf.toNat, e⟩ pref rm

/-- `DIV(A, B, RM)` on words (R320); port `C` is not read (R34). -/
def divWords (args : ModelArgs) (rm : Rm) (a b : Word) : Word × FlagWord :=
  divRecords args rm (unpack args.nanPayloadLimit a) (unpack args.nanPayloadLimit b)

/-- `DIV.<RM>` (R320). -/
def execDiv (rm : Rm) (s : State) : Host.Outcome State Fault Refusal :=
  finishOperation (divWords s.args rm s.ports.a s.ports.b) s

/-- `DIVSCALE` (R322). -/
def execDivscale (s : State) : Host.Outcome State Fault Refusal :=
  finishUnit (outputOf .divScaled (divScale s.unitPorts.x s.unitPorts.y)) s

end Sys2Proof.Machine
end

