-- ==== Sys2Proof/Machine/FmaMul.lean ====
section
/-!
DEFINITION. `FMA`, `MUL` and the alignment unit `ALIGN_FMA` (spec/45_fma_mul.md R280 to R293).
-/
namespace Sys2Proof.Machine

/-- `ALIGN_FMA(prod, z)` (R285). The product's digit count is the input `q4` as it stands, also where it is
not `digits(C4)` or where `C4` is no product of two coefficients (log entry 7). -/
def alignFma (p : Product) (z : Record) : Except Fault FmaAlignment :=
  if p.C4 = 0 ∨ finiteNonzero z = false then .error .alignOperand
  else
    let e3 := quantumExp z
    let d := leadPos z - ((p.q4 : Int) + p.e4)
    let region : FmaRegion :=
      if (Config.P : Int) < d then .addendDominates
      else if d < -(Config.P : Int) then .productDominates
      else .comparable
    let eA := min e3 p.e4
    .ok { d := d, region := region, eA := eA, k4 := p.e4 - eA, k3 := e3 - eA }

/-- The exact signed value `x × y + z` of finite records as an integer at the smaller of the product's
and the addend's exponents (R282). -/
def exactFma (x y z : Record) : Int :=
  let e4 := quantumExp x + quantumExp y
  let e := min e4 (quantumExp z)
  signedCoef x * signedCoef y * 10 ^ (e4 - e).toNat + signedCoef z * 10 ^ (quantumExp z - e).toNat

/-- `FMA(A, B, C, RM)` on decoded operands: `RES` and the flag set (R280, R281). -/
def fmaRecords (policy : Tininess) (rm : Rm) (x y z : Record) : Word × FlagWord :=
  let ps := x.s ^^ y.s
  if isNaN x || isNaN y || isNaN z then nanResult [y, z, x]
  else if x.cls = .inf ∨ y.cls = .inf then
    if x.cls = .zero ∨ y.cls = .zero then (dnan, flagIE)
    else if z.cls = .inf ∧ z.s ≠ ps then (dnan, flagIE)
    else (infWord ps, noFlags)
  else if z.cls = .inf then (infWord z.s, noFlags)
  else
    let e := min (quantumExp x + quantumExp y) (quantumExp z)
    sumResult policy rm (exactFma x y z) e (clamp e Config.QMIN Config.QMAX) ps z.s

/-- `FMA(A, B, C, RM)` on words (R280). -/
def fmaWords (args : ModelArgs) (rm : Rm) (a b c : Word) : Word × FlagWord :=
  fmaRecords args.tininess rm (unpack args.nanPayloadLimit a) (unpack args.nanPayloadLimit b)
    (unpack args.nanPayloadLimit c)

/-- `FMA.<RM>` (R280). -/
def execFma (rm : Rm) (s : State) : Host.Outcome State Fault Refusal :=
  finishOperation (fmaWords s.args rm s.ports.a s.ports.b s.ports.c) s

/-- The NaN order of `MUL` (R290, R358). -/
def mulOrder (first : NanFirst) (x y : Record) : List Record :=
  match first with
  | .a => [x, y]
  | .b => [y, x]

/-- `MUL(A, B, RM)` on decoded operands: `RES` and the flag set (R290). -/
def mulRecords (policy : Tininess) (first : NanFirst) (rm : Rm) (x y : Record) : Word × FlagWord :=
  let ps := x.s ^^ y.s
  if isNaN x || isNaN y then nanResult (mulOrder first x y)
  else if x.cls = .inf ∨ y.cls = .inf then
    if x.cls = .zero ∨ y.cls = .zero then (dnan, flagIE) else (infWord ps, noFlags)
  else
    let e := quantumExp x + quantumExp y
    let pref := clamp e Config.QMIN Config.QMAX
    if x.cls = .zero ∨ y.cls = .zero then (packWord ps (biased pref) 0, noFlags)
    else roundToFormat policy ps ⟨x.Cf.toNat * y.Cf.toNat, 1, e⟩ pref rm

/-- `MUL(A, B, RM)` on words (R290); port `C` is not read (R34). -/
def mulWords (args : ModelArgs) (rm : Rm) (a b : Word) : Word × FlagWord :=
  mulRecords args.tininess args.mulNanFirst rm (unpack args.nanPayloadLimit a)
    (unpack args.nanPayloadLimit b)

/-- `MUL.<RM>` (R290). -/
def execMul (rm : Rm) (s : State) : Host.Outcome State Fault Refusal :=
  finishOperation (mulWords s.args rm s.ports.a s.ports.b) s

/-- `ALIGN_FMA` (R285). -/
def execAlignFma (s : State) : Host.Outcome State Fault Refusal :=
  finishUnit (outputOf .fmaAligned (alignFma s.unitPorts.prod s.unitPorts.x)) s

end Sys2Proof.Machine
end

