-- ==== Sys2Proof/Machine/Kernel.lean ====
section
/-!
DEFINITION. The integer kernel: the multiword adder/subtractor, the widening multiplier and the long
divider (spec/40_integer_kernel.md R100 to R130). Each function reads the low bits of its integer
ports at its own width and touches nothing but the list of outputs, or the fault marks.
-/
namespace Sys2Proof.Machine

/-- `MWADD_W(a, b, cin)`: the sum modulo `2^W` and the carry out (R113). -/
def mwAdd (W : Nat) (a b : BitVec W) (cin : Bool) : BitVec W × Bool :=
  let t := a.toNat + b.toNat + cin.toNat
  (BitVec.ofNat W t, decide (2 ^ W ≤ t))

/-- `MWSUB_W(a, b, bin)`: the difference modulo `2^W` and the borrow out (R113). -/
def mwSub (W : Nat) (a b : BitVec W) (bin : Bool) : BitVec W × Bool :=
  (BitVec.ofInt W ((a.toNat : Int) - b.toNat - bin.toNat), decide (a.toNat < b.toNat + bin.toNat))

/-- The limb loop of `MWADD_W` over 64-bit limbs, least significant first: the limbs of the sum and the
carry out of the top limb (R113). -/
def addLimbs : List Nat → List Nat → Nat → List Nat × Nat
  | a :: as, b :: bs, c =>
    let t := a + b + c
    let (sum, cout) := addLimbs as bs (t / 2 ^ 64)
    (t % 2 ^ 64 :: sum, cout)
  | _, _, c => ([], c)

/-- The limb loop of `MWSUB_W` (R113). -/
def subLimbs : List Nat → List Nat → Nat → List Nat × Nat
  | a :: as, b :: bs, c =>
    let t : Int := (a : Int) - b - c
    let (diff, bout) := subLimbs as bs (if t < 0 then 1 else 0)
    ((t % 2 ^ 64).toNat :: diff, bout)
  | _, _, c => ([], c)

/-- The first `k` 64-bit limbs of a value, least significant first (spec/00_scope.md R9). -/
def limbs : Nat → Nat → List Nat
  | 0, _ => []
  | k + 1, v => v % 2 ^ 64 :: limbs k (v / 2 ^ 64)

/-- The value of a list of 64-bit limbs, least significant first (spec/00_scope.md R9). -/
def limbsValue : List Nat → Nat
  | [] => 0
  | l :: ls => l + 2 ^ 64 * limbsValue ls

/-- A multiplier: the low `W` bits of the exact product (R115, R117). With `W` the sum of the operand
widths nothing is lost. -/
def widenMul (W a b : Nat) : BitVec W := BitVec.ofNat W (a * b)

/-- A divider with a 128-bit quotient and its preconditions (R125). -/
def longDivide (n d : Nat) : Except Fault (BitVec 128 × BitVec 128) :=
  if d = 0 then .error .divideByZeroDivisor
  else if 2 ^ 128 ≤ n / d then .error .quotientOverflow
  else .ok (BitVec.ofNat 128 (n / d), BitVec.ofNat 128 (n % d))

/-- The outputs of an adder or subtractor of width `W` (R113). -/
def sumOutput (W : Nat) (r : BitVec W × Bool) : Output := .sum W r.1 r.2

/-- The outputs of a divider (R125). -/
def quotientOutput (r : BitVec 128 × BitVec 128) : Output := .quotient r.1 r.2

/-- An adder of width `W` on the ports (R113). -/
def runAdd (W : Nat) (s : State) : Host.Outcome State Fault Refusal :=
  finishUnit (.ok (sumOutput W (mwAdd W (portA W s) (portB W s) s.unitPorts.cin))) s

/-- A subtractor of width `W` on the ports (R113). -/
def runSub (W : Nat) (s : State) : Host.Outcome State Fault Refusal :=
  finishUnit (.ok (sumOutput W (mwSub W (portA W s) (portB W s) s.unitPorts.cin))) s

/-- A multiplier of operand widths `Wa`, `Wb` and destination width `W` on the ports (R115). -/
def runMul (Wa Wb W : Nat) (s : State) : Host.Outcome State Fault Refusal :=
  finishUnit (.ok (.product W (widenMul W (portA Wa s).toNat (portB Wb s).toNat))) s

/-- A divider of dividend width `Wn` on the ports (R125). -/
def runDivide (Wn : Nat) (s : State) : Host.Outcome State Fault Refusal :=
  finishUnit (outputOf quotientOutput (longDivide (portA Wn s).toNat (portB 128 s).toNat)) s

/-- `MWADD64` (R101). -/
def execMwadd64 (s : State) : Host.Outcome State Fault Refusal := runAdd 64 s

/-- `MWSUB64` (R102). -/
def execMwsub64 (s : State) : Host.Outcome State Fault Refusal := runSub 64 s

/-- `MWADD128` (R103). -/
def execMwadd128 (s : State) : Host.Outcome State Fault Refusal := runAdd 128 s

/-- `MWSUB128` (R104). -/
def execMwsub128 (s : State) : Host.Outcome State Fault Refusal := runSub 128 s

/-- `MWADD192` (R105). -/
def execMwadd192 (s : State) : Host.Outcome State Fault Refusal := runAdd 192 s

/-- `MWSUB192` (R106). -/
def execMwsub192 (s : State) : Host.Outcome State Fault Refusal := runSub 192 s

/-- `MWADD256` (R107). -/
def execMwadd256 (s : State) : Host.Outcome State Fault Refusal := runAdd 256 s

/-- `MWSUB256` (R108). -/
def execMwsub256 (s : State) : Host.Outcome State Fault Refusal := runSub 256 s

/-- `MWADD384` (R109). -/
def execMwadd384 (s : State) : Host.Outcome State Fault Refusal := runAdd 384 s

/-- `MWSUB384` (R110). -/
def execMwsub384 (s : State) : Host.Outcome State Fault Refusal := runSub 384 s

/-- `MWADD512` (R111). -/
def execMwadd512 (s : State) : Host.Outcome State Fault Refusal := runAdd 512 s

/-- `MWSUB512` (R112). -/
def execMwsub512 (s : State) : Host.Outcome State Fault Refusal := runSub 512 s

/-- `MUL64X64_128` (R116). -/
def execMul64x64_128 (s : State) : Host.Outcome State Fault Refusal := runMul 64 64 128 s

/-- `MUL64X128_128`: the product modulo `2^128` (R117). -/
def execMul64x128_128 (s : State) : Host.Outcome State Fault Refusal := runMul 64 128 128 s

/-- `MUL64X128_192` (R118). -/
def execMul64x128_192 (s : State) : Host.Outcome State Fault Refusal := runMul 64 128 192 s

/-- `MUL128X128_256` (R119). -/
def execMul128x128_256 (s : State) : Host.Outcome State Fault Refusal := runMul 128 128 256 s

/-- `MUL128X192_320` (R120). -/
def execMul128x192_320 (s : State) : Host.Outcome State Fault Refusal := runMul 128 192 320 s

/-- `MUL192X192_384` (R121). -/
def execMul192x192_384 (s : State) : Host.Outcome State Fault Refusal := runMul 192 192 384 s

/-- `MUL256X256_512` (R122). -/
def execMul256x256_512 (s : State) : Host.Outcome State Fault Refusal := runMul 256 256 512 s

/-- `DIV128BY128` (R126): its quotient always fits. -/
def execDiv128by128 (s : State) : Host.Outcome State Fault Refusal := runDivide 128 s

/-- `DIV256BY128` (R127). -/
def execDiv256by128 (s : State) : Host.Outcome State Fault Refusal := runDivide 256 s

end Sys2Proof.Machine
end

