-- ==== Sys2Proof/Machine/Dispatch.lean ====
section
/-!
DEFINITION. The dispatch: one arm per instruction, one direct call of its meaning.
-/
namespace Sys2Proof.Machine

/-- Runs one instruction on the values its request put on the ports. -/
def exec (i : Instr) (s : State) : Host.Outcome State Fault Refusal :=
  match i with
  | .add rm => Sys2Proof.Machine.execAdd rm s
  | .mul rm => Sys2Proof.Machine.execMul rm s
  | .fma rm => Sys2Proof.Machine.execFma rm s
  | .div rm => Sys2Proof.Machine.execDiv rm s
  | .unpack => Sys2Proof.Machine.execUnpack s
  | .pack => Sys2Proof.Machine.execPack s
  | .quietnan => Sys2Proof.Machine.execQuietnan s
  | .mwadd64 => Sys2Proof.Machine.execMwadd64 s
  | .mwsub64 => Sys2Proof.Machine.execMwsub64 s
  | .mwadd128 => Sys2Proof.Machine.execMwadd128 s
  | .mwsub128 => Sys2Proof.Machine.execMwsub128 s
  | .mwadd192 => Sys2Proof.Machine.execMwadd192 s
  | .mwsub192 => Sys2Proof.Machine.execMwsub192 s
  | .mwadd256 => Sys2Proof.Machine.execMwadd256 s
  | .mwsub256 => Sys2Proof.Machine.execMwsub256 s
  | .mwadd384 => Sys2Proof.Machine.execMwadd384 s
  | .mwsub384 => Sys2Proof.Machine.execMwsub384 s
  | .mwadd512 => Sys2Proof.Machine.execMwadd512 s
  | .mwsub512 => Sys2Proof.Machine.execMwsub512 s
  | .mul64x64_128 => Sys2Proof.Machine.execMul64x64_128 s
  | .mul64x128_128 => Sys2Proof.Machine.execMul64x128_128 s
  | .mul64x128_192 => Sys2Proof.Machine.execMul64x128_192 s
  | .mul128x128_256 => Sys2Proof.Machine.execMul128x128_256 s
  | .mul128x192_320 => Sys2Proof.Machine.execMul128x192_320 s
  | .mul192x192_384 => Sys2Proof.Machine.execMul192x192_384 s
  | .mul256x256_512 => Sys2Proof.Machine.execMul256x256_512 s
  | .div128by128 => Sys2Proof.Machine.execDiv128by128 s
  | .div256by128 => Sys2Proof.Machine.execDiv256by128 s
  | .dcnt128 => Sys2Proof.Machine.execDcnt128 s
  | .dcnt256 => Sys2Proof.Machine.execDcnt256 s
  | .rnd64 => Sys2Proof.Machine.execRnd64 s
  | .rnd128 => Sys2Proof.Machine.execRnd128 s
  | .rnd192 => Sys2Proof.Machine.execRnd192 s
  | .rnd256 => Sys2Proof.Machine.execRnd256 s
  | .rmcorr => Sys2Proof.Machine.execRmcorr s
  | .assemble => Sys2Proof.Machine.execAssemble s
  | .alignAdd => Sys2Proof.Machine.execAlignAdd s
  | .alignFma => Sys2Proof.Machine.execAlignFma s
  | .divscale => Sys2Proof.Machine.execDivscale s

end Sys2Proof.Machine
end

