-- ==== Sys2Proof/Machine/HostInterface.lean ====
section
/-!
DEFINITION. Taking one host interaction (spec/70_reset_and_hazards.md R397), and the request that stands
for a number of spec/opcode_table.json.
-/
namespace Sys2Proof.Machine

/-- The refusal a reserved code word is refused with (R83, R84). -/
def refusalOf : DecodeError → Refusal
  | .reservedCommand => .reservedCommand
  | .reservedUnitFunction => .reservedUnitFunction

/-- Runs a decoded code word, or records the refusal of a reserved one (R83, R84, R398). -/
def runCode (r : Except DecodeError Instr) (s : State) : Host.Outcome State Fault Refusal :=
  match r with
  | .ok i => exec i s
  | .error e => .next (s.recordRefusal (refusalOf e))

/-- Takes one interaction (R397): an operation or unit function request runs its code word on the
ports it sends; two operations in flight on the one accumulator are refused (R58), whatever their command words: neither
word is decoded, so a reserved one leaves no mark of its own (log entry 12); the accumulator is written or
read between operations. -/
def perform (r : Request) (s : State) : Host.Outcome State Fault Refusal :=
  match r with
  | .operation cmd p => runCode (decodeCommand cmd) (s.present p)
  | .unitFunction ufc u => runCode (decodeUnit ufc) (s.presentUnit u)
  | .overlapping _ _ _ _ => .next (s.recordRefusal .sharedAccumulator)
  | .writeFlags mask value => .next (s.writeFlags mask value)
  | .readFlags => .next s.readFlags

/-- The request for a code word, with the values that stand on the ports now. -/
def requestOf (c : Code) (s : State) : Request :=
  match c with
  | .command w => .operation w s.ports
  | .unit u => .unitFunction u s.unitPorts

end Sys2Proof.Machine
end

