-- ==== Sys2Proof/Machine/Step.lean ====
section
/-!
DEFINITION. One step: the oldest pending host interaction is taken (spec/70_reset_and_hazards.md R397, R398).
-/
namespace Sys2Proof.Machine

/-- One step. With no interaction pending the block waits for its next request, and nothing changes
(R400; DESIGN CHOICE, log entry 1). -/
def step (s : State) : Host.Outcome State Fault Refusal :=
  match s.pending with
  | [] => .next s
  | r :: rest => perform r (s.withPending rest)

/-- `s` with the request for a number of spec/opcode_table.json placed in front of the pending
interactions, its operands the values on the ports of `s`: the very next step runs it. -/
def State.withFetchWord (s : State) (nbits w : Nat) : State :=
  s.withPending (requestOf (tableCode nbits w) s :: s.pending)

end Sys2Proof.Machine
end

