-- ==== Sys2Proof/Machine/Datapath.lean ====
section
/-!
DEFINITION. How the units compute the operations' results: the realization of one rounding by engine,
correction and assembler (spec/43_rounding.md R219), the absorb and exact regions of `ADD` (spec/44_add.md
R244, R245), the regions of `FMA` (spec/45_fma_mul.md R285, R286), and the remainder rounding of `DIV` (spec/46_divide.md R323 to R325). The results of the
operations are fixed by their exact-value rules; that these datapaths give them is stated, not assumed.
-/
namespace Sys2Proof.Machine

/-- The exact branch of R219 and R325: a value `N × 10^e` that needs no rounding takes the exponent of
R215. `q0` is the smallest exponent at which its coefficient has at most `P` digits; if even that is
above `QMAX` the assembler overflows. -/
def assembleExact (s : Bool) (N : Nat) (e pref : Int) (rm : Rm) : Except Fault (Word × FlagWord) :=
  let q0 := max (e + digits N - Config.P) Config.QMIN
  let qb := e + trailingZeros N
  let q := max q0 (clamp pref q0 (min qb Config.QMAX))
  let C := N * 10 ^ (e - q).toNat / 10 ^ (q - e).toNat
  assemble s C q rm false false

/-- R219: one rounding of `M × 10^e`, `M ≥ 1`, by `RND`, `RMCORR` and `ASSEMBLE`. `RND` here is R191 for a
value of any digit count; above 76 digits R190 has no routine, and that R191 rounds such a value too is the
model's choice (log entry 19). -/
def realize (policy : Tininess) (s : Bool) (M : Nat) (e pref : Int) (rm : Rm) :
    Except Fault (Word × FlagWord) :=
  let v : Magnitude := ⟨M, 1, e⟩
  let q := digits M
  let x := (max (max ((q : Int) - Config.P) (Config.QMIN - e)) 0).toNat
  if x = 0 then assembleExact s M e pref rm
  else if q ≤ x then
    assemble s (roundInt s rm M (10 ^ x)) (e + x) rm true (tiny policy s v rm)
  else
    let r := rnd M x
    let n := q - x
    if anyIndicator r.ind = false then assembleExact s (M / 10 ^ x) (e + x) pref rm
    else
      let fits := r.incr && decide (n < Config.P)
      let Cstar := if fits then 10 ^ n else r.Cstar
      let incr := r.incr && !fits
      let n' := if fits then n + 1 else n
      let e1 := e + x + (if incr then 1 else 0)
      let (C, e') := rmcorr s rm Cstar e1 r.ind n' incr
      assemble s C.toNat e' rm true (tiny policy s v rm)

/-- The engine's view of an absorbed sum: `Cstar`, its exponent, the indicator, and whether the engine
carried, for the larger coefficient `C` scaled to `P` digits at exponent `eA` and a smaller operand of
less than a tenth of a unit of `C`, on the side `below` says (R244). When `C = 10^(P-1)` and the sum lies
below it, the unit is a tenth, and the sum is compared with half of that: `twiceS` against `unit`. -/
def absorbIndicator (C : Nat) (eA : Int) (below pow10 : Bool) (twiceS unit : Nat) :
    Nat × Int × Indicators × Bool :=
  if below = false then (C, eA, indLtMid, false)
  else if pow10 = false then (C, eA, indGtMid, false)
  else if twiceS < unit then (C, eA, indGtMid, true)
  else if twiceS = unit then (C, eA, indMidUp, true)
  else (10 ^ Config.P - 1, eA - 1, indLtMid, false)

/-- The datapath of `ADD` for two finite nonzero operands (R243 to R246): the absorb region through the
indicators of R244, the exact region through the exact sum and R219. The power-of-ten sub-case of R246 goes
the same way as the rest of the exact region: the smaller operand is not rounded first (log entry 21). -/
def addDatapath (policy : Tininess) (rm : Rm) (x y : Record) : Except Fault (Word × FlagWord) :=
  match alignAdd x y with
  | .error e => .error e
  | .ok a =>
    let pref := min (quantumExp x) (quantumExp y)
    let CL := a.L.Cf.toNat * 10 ^ a.kL.toNat
    let CS := a.S.Cf.toNat * 10 ^ a.kS.toNat
    match a.region with
    | .exact =>
      let m : Int := (if a.L.s then -(CL : Int) else CL) + (if a.S.s then -(CS : Int) else CS)
      if m = 0 then packed (zsign x.s y.s rm) (biased pref) 0 noFlags
      else realize policy (decide (m < 0)) m.natAbs a.eA pref rm
    | .absorb =>
      let e10 := a.eA - 1 - quantumExp a.S
      let (Cstar, e, ind, carried) :=
        absorbIndicator CL a.eA (decide (a.L.s ≠ a.S.s)) a.pow10 (2 * a.S.Cf.toNat) (10 ^ e10.toNat)
      let (C, e') := rmcorr a.L.s rm Cstar e ind Config.P carried
      assemble a.L.s C.toNat e' rm true false

/-- One term far above the other (R286, "nudged as in R244"): the larger, `CL × 10^eL` with sign `sL`, is
scaled to `P` digits, or as far as `QMIN` allows, and the smaller, `CS × 10^eS` with sign `sS`, enters as
the indicator of R244. Where `QMIN` stops the scaling, no digit below the last kept one exists, and the
power-of-ten case of R244 does not arise (log entry 17). `v` is the exact value. -/
def dominated (policy : Tininess) (rm : Rm) (v : Magnitude) (sL : Bool) (CL : Nat) (eL : Int) (sS : Bool)
    (CS : Nat) (eS : Int) : Except Fault (Word × FlagWord) :=
  let k := min (Config.P - digits CL) (eL - Config.QMIN).toNat
  let C := CL * 10 ^ k
  let eA := eL - k
  let below := decide (sL ≠ sS)
  let pow10 := below && decide (C = 10 ^ (Config.P - 1)) && decide (Config.QMIN < eA)
  let (Cstar, e, ind, carried) :=
    absorbIndicator C eA below pow10 (2 * CS) (10 ^ (eA - 1 - eS).toNat)
  let (C', e') := rmcorr sL rm Cstar e ind Config.P carried
  assemble sL C'.toNat e' rm true (tiny policy sL v rm)

/-- The datapath of `FMA` for three finite nonzero operands (R282, R285, R286): the exact product, then the
region. An addend wholly below the last digit of a product longer than `P` digits is a sticky digit of its
sign; one that overlaps the product's digits is added exactly, as in the comparable region (log entry 17). -/
def fmaDatapath (policy : Tininess) (rm : Rm) (x y z : Record) : Except Fault (Word × FlagWord) :=
  let C4 := x.Cf.toNat * y.Cf.toNat
  let prod : Product :=
    { s4 := x.s ^^ y.s, C4 := BitVec.ofNat 256 C4, q4 := digits C4, e4 := quantumExp x + quantumExp y }
  match alignFma prod z with
  | .error e => .error e
  | .ok a =>
    let C3 := z.Cf.toNat
    let e3 := quantumExp z
    let pref := clamp (min prod.e4 e3) Config.QMIN Config.QMAX
    let P4 := C4 * 10 ^ a.k4.toNat
    let P3 := C3 * 10 ^ a.k3.toNat
    let m : Int := (if prod.s4 then -(P4 : Int) else P4) + (if z.s then -(P3 : Int) else P3)
    let v : Magnitude := ⟨m.natAbs, 1, a.eA⟩
    let exactly :=
      if m = 0 then packed (zsign prod.s4 z.s rm) (biased pref) 0 noFlags
      else realize policy (decide (m < 0)) m.natAbs a.eA pref rm
    match a.region with
    | .comparable => exactly
    | .addendDominates => dominated policy rm v z.s C3 e3 prod.s4 C4 prod.e4
    | .productDominates =>
      if prod.q4 ≤ Config.P then dominated policy rm v prod.s4 C4 prod.e4 z.s C3 e3
      else if leadPos z < prod.e4 then
        realize policy prod.s4 (if prod.s4 = z.s then 10 * C4 + 1 else 10 * C4 - 1) (prod.e4 - 1) pref rm
      else exactly

/-- The datapath of `DIV` for two finite nonzero operands (R322 to R325): scaling, the long divide, the
indicators from the remainder, correction and assembly; a quotient below `QMIN` is rounded there with a
nonzero remainder as a sticky digit below every kept one (R324). -/
def divDatapath (policy : Tininess) (rm : Rm) (x y : Record) : Except Fault (Word × FlagWord) :=
  match divScale x y with
  | .error e => .error e
  | .ok sc =>
    match longDivide sc.N y.Cf.toNat with
    | .error e => .error e
    | .ok (Qw, Rw) =>
      let s := x.s ^^ y.s
      let Q := Qw.toNat
      let R := Rw.toNat
      let C2 := y.Cf.toNat
      let e := quantumExp x - quantumExp y
      let pref := clamp e Config.QMIN Config.QMAX
      let v : Magnitude := ⟨x.Cf.toNat, C2, e⟩
      if sc.eq < Config.QMIN then
        if R = 0 then realize policy s Q sc.eq pref rm
        else
          assemble s (roundInt s rm (10 * Q + 1) (10 * 10 ^ (Config.QMIN - sc.eq).toNat)) Config.QMIN rm
            true (tiny policy s v rm)
      else if R = 0 then assembleExact s Q sc.eq pref rm
      else
        let (c, ind) := classify Q (2 * R) C2
        let carried := decide (c = 10 ^ Config.P)
        let Cstar := if carried then 10 ^ (Config.P - 1) else c
        let e1 := if carried then sc.eq + 1 else sc.eq
        let (C, e') := rmcorr s rm Cstar e1 ind Config.P carried
        assemble s C.toNat e' rm true (tiny policy s v rm)

end Sys2Proof.Machine
end

