-- ==== Sys2Proof/Safety.lean ====
section
/-!
DEFINITION. What counts as a successful run, its launch premises and its observation
(spec/70_reset_and_hazards.md R398, R399), the values data denote, and the invariant of the outputs
(spec/30_encoding.md R75), in the terms statements use.
-/
namespace Sys2Proof.Machine

/-- `NoFaultRecorded` (R399). -/
abbrev NoFaultRecorded (s : State) : Prop := s.faults = []

/-- `NotRefused` (R399). -/
abbrev NotRefused (s : State) : Prop := s.refusals = []

/-- The request puts two operations in flight on one accumulator. -/
def isOverlapping : Request → Bool
  | .overlapping _ _ _ _ => true
  | .operation _ _ => false
  | .unitFunction _ _ => false
  | .writeFlags _ _ => false
  | .readFlags => false

/-- The operations in progress in a state. A state stands between two steps, and an operation begins and
ends within one step (R5, R393), so there is none, in whatever state (DEDUCED, log entry 12). -/
def operationsInProgress (_ : State) : List Request := []

/-- `NothingInFlight` (R399): no operation is in progress on the block. -/
abbrev NothingInFlight (s : State) : Prop := operationsInProgress s = []

/-- No interaction still to come puts two operations in flight at the same time (R395). -/
abbrev NoOverlapRequested (s : State) : Prop := s.pending.all (fun r => !isOverlapping r) = true

/-- `FlagsAtLaunch(v)` (R399). -/
abbrev FlagsAtLaunch (v : FlagWord) (s : State) : Prop := s.flags = v

/-- A read answers an entry of one of the widths of R51 that holds a constant. -/
def ReadsConstant (r : Except Fault TableEntry) (v : Nat) : Prop :=
  ∃ e, r = .ok e ∧ e.width ∈ [64, 128, 192, 256] ∧ e.value.toNat = v

/-- One entry of the digit counter's tables meets its contract (R142): the digit count of the smallest value
of the bit length, the ambiguity bit, and, where that bit is set, the threshold in two limbs or four. The
threshold of any other bit length is unused and has no contract. -/
def DigitEntryMeetsContract (b : Nat) : Prop :=
  ∃ e, romNrDigits b = .ok e ∧ e.d.toNat = digits (2 ^ (b - 1)) ∧
    (e.amb = true ↔ digits (2 ^ (b - 1)) < digits (2 ^ b - 1)) ∧
    (e.amb = true → ∃ t, romDigitThresh b = .ok t ∧ t.width = (if b ≤ 128 then 128 else 256) ∧
      t.value.toNat = 10 ^ digits (2 ^ (b - 1)))

/-- The contracts of the four tables whose contents the spec gives (R31, R51, R142, R198). -/
def ReadTablesMeetContracts : Prop :=
  (∀ b, 1 ≤ b → b ≤ 256 → DigitEntryMeetsContract b) ∧
    (∀ k, k ≤ 76 → ReadsConstant (romTenPow k) (10 ^ k)) ∧
    (∀ x, 1 ≤ x → x ≤ 75 → ReadsConstant (romHalfUlp x) (10 ^ x / 2))

/-- The contract of one entry of the engine's method tables, in the class of digit counts `lo` to `hi`, at
index `x` (R31, R198): `KX` is `10^(-x)` scaled by `2^EX` and rounded up by less than one unit, with enough
guard bits that the floor of the scaled product is within 1 of the true floor for every value of the class;
`MASK` is a mask of low bits; `TEN2MXTRUNC` is `10^(-x)` scaled by a binary power and truncated. The scales
are not in the source, and how `MASK` and `TEN2MXTRUNC` are read is the model's choice (log entry 10). -/
def MethodEntryMeetsContract (lo hi x kx ex mask trunc : Nat) : Prop :=
  (2 ^ ex ≤ kx * 10 ^ x ∧ kx * 10 ^ x < 2 ^ ex + 10 ^ x) ∧
    (∀ C, 10 ^ (lo - 1) ≤ C → C < 10 ^ hi →
      let trueFloor := (C + 10 ^ x / 2) / 10 ^ x
      let scaledFloor := (C + 10 ^ x / 2) * kx / 2 ^ ex
      scaledFloor ≤ trueFloor + 1 ∧ trueFloor ≤ scaledFloor + 1) ∧
    (∃ m, mask + 1 = 2 ^ m) ∧ (∃ scale, trunc = 2 ^ scale / 10 ^ x)

/-- The contract of the method tables of one engine class, of operand width `W`, over the indices its digit
counts need (R190, R198). -/
def MethodTablesMeetContracts (lo hi W : Nat) : Prop :=
  ∀ x, 1 ≤ x → x + 1 ≤ hi →
    MethodEntryMeetsContract lo hi x (Config.kx W x).toNat (Config.ex W x).toNat (Config.mask W x).toNat
      (Config.ten2mxtrunc W x).toNat

/-- `TablesMeetContracts` (R392 (1), R399): every table of R31 meets its contract. The contents of the method
tables are free values, so this is a premise, as R399 names it, and nothing proves it (log entry 10). -/
def TablesMeetContracts : Prop :=
  ReadTablesMeetContracts ∧ MethodTablesMeetContracts 2 18 64 ∧ MethodTablesMeetContracts 19 38 128 ∧
    MethodTablesMeetContracts 39 57 192 ∧ MethodTablesMeetContracts 58 76 256

/-- A successful run carries no mark (R398). -/
abbrev Successful (s : State) : Prop := NoFaultRecorded s ∧ NotRefused s

/-- What is observed at the end of a run (R398). -/
structure Observation where
  outputs : List Output
  flags : FlagWord
  faults : List Fault
  refusals : List Refusal
  deriving DecidableEq, Repr

/-- The observation of a state (R398). -/
def observe (s : State) : Observation := ⟨s.outputs, s.flags, s.faults, s.refusals⟩

/-- The value `(-1)^s × Cf × 10^(E - BIAS)` of a finite record (R12). -/
def valueOf (r : Record) : ℚ := signedCoef r * (10 : ℚ) ^ quantumExp r

/-- The value of an exact magnitude. -/
def magnitudeValue (v : Magnitude) : ℚ := (v.num : ℚ) / v.den * (10 : ℚ) ^ v.exp

/-- A finite operand: `ZERO` or `FINITE` (R12). -/
def isFinite (r : Record) : Bool := r.cls == .zero || r.cls == .finite

/-- The encodings the block emits: a finite word in standard form with a canonical coefficient, the
canonical infinities, and the quiet NaNs with a canonical payload (R75). -/
def canonicalWord (limit : Nat) (w : Word) : Bool :=
  (decide (w.extractLsb 126 125 ≠ 0b11#2) && decide ((w.extractLsb' 0 113).toNat ≤ Config.CMAX))
    || decide (w = infWord (w.getLsbD 127))
    || (decide (w = qnanWord (w.getLsbD 127) (w.extractLsb' 0 110))
        && decide ((w.extractLsb' 0 110).toNat ≤ limit))

/-- What every output the block drives satisfies: a result word is one the block emits (R75), a record
is one the decoder produces (R161, R169), a digit count is between 1 and 78 (R143, R144), an indicator set
has at most one indicator (R193), an assembled word is one the block emits (R208). -/
def outputOk (limit : Nat) : Output → Bool
  | .res w => canonicalWord limit w
  | .record r => Record.wf limit r
  | .word _ => true
  | .sum _ _ _ => true
  | .product _ _ => true
  | .quotient _ _ => true
  | .digitCount q => decide (1 ≤ q) && decide (q ≤ 78)
  | .rounded _ _ _ ind => Indicators.wf ind
  | .corrected _ _ => true
  | .assembled w _ => canonicalWord limit w
  | .addAligned _ => true
  | .fmaAligned _ => true
  | .divScaled _ => true

/-- The invariant of the machine: every output driven so far is one the block emits. -/
def OutputsOk (s : State) : Prop := ∀ o ∈ s.outputs, outputOk s.args.nanPayloadLimit o = true

/-- `C` is the non-negative rational `N` rounded to an integer in the given mode, for a value of sign `s`:
toward zero, away from zero, or to nearest with the mode's rule for ties (R211). -/
def RoundsTo (s : Bool) (rm : Rm) (N : ℚ) (C : Nat) : Prop :=
  match rm with
  | .rz => (C : ℚ) ≤ N ∧ N < C + 1
  | .ru => if s then (C : ℚ) ≤ N ∧ N < C + 1 else N ≤ C ∧ (C : ℚ) < N + 1
  | .rd => if s then N ≤ C ∧ (C : ℚ) < N + 1 else (C : ℚ) ≤ N ∧ N < C + 1
  | .rn => |N - C| ≤ 1 / 2 ∧ (|N - C| = 1 / 2 → C % 2 = 0)
  | .ra => |N - C| ≤ 1 / 2 ∧ (|N - C| = 1 / 2 → N < C)

/-- The value is tiny under a policy: below `10^EMIN` before rounding, or after rounding to `P` digits with
an unbounded exponent range, `q` being the exponent of the last of `P` digits (R214). -/
def TinyValue (policy : Tininess) (s : Bool) (rm : Rm) (v : ℚ) : Prop :=
  match policy with
  | .before => v < (10 : ℚ) ^ Config.EMIN
  | .after =>
    ∃ (q : Int) (C : Nat), (10 : ℚ) ^ (q + 33) ≤ v ∧ v < (10 : ℚ) ^ (q + 34) ∧
      RoundsTo s rm (v / (10 : ℚ) ^ q) C ∧ (C : ℚ) * (10 : ℚ) ^ q < (10 : ℚ) ^ Config.EMIN

/-- A positive value is a coefficient of at most `P` digits at an exponent of the format. -/
def RepresentableAs (v : ℚ) (C : Nat) (q : Int) : Prop :=
  C ≤ Config.CMAX ∧ Config.QMIN ≤ q ∧ q ≤ Config.QMAX ∧ v = C * (10 : ℚ) ^ q

/-- `INF(s)` (R75). -/
abbrev infinityOf (s : Bool) : Word :=
  if s then 0xF8000000000000000000000000000000#128 else 0x78000000000000000000000000000000#128

/-- `DNAN` (R75). -/
abbrev defaultNaN : Word := 0x7C000000000000000000000000000000#128

/-- The largest finite value of a sign (R75, R210). -/
abbrev largestFinite (s : Bool) : Word :=
  if s then 0xDFFFED09BEAD87C0378D8E63FFFFFFFF#128 else 0x5FFFED09BEAD87C0378D8E63FFFFFFFF#128

/-- The result of an overflow by mode and sign, the table of R210 (`s` is true for negative). -/
def overflowTable (rm : Rm) (s : Bool) : Word :=
  match rm, s with
  | .rn, s => infinityOf s
  | .ra, s => infinityOf s
  | .rz, s => largestFinite s
  | .ru, false => infinityOf false
  | .ru, true => largestFinite true
  | .rd, false => largestFinite false
  | .rd, true => infinityOf true

/-- An overflow: rounded to units of `10^QMAX` the value needs more than `P` digits; the result is that of
the mode, with both flags (R210, R354). -/
def OverflowResult (s : Bool) (rm : Rm) (v : ℚ) (w : Word) (F : FlagWord) : Prop :=
  (∃ C : Nat, RoundsTo s rm (v / (10 : ℚ) ^ Config.QMAX) C ∧ Config.CMAX < C) ∧
    w = overflowTable rm s ∧ F = 0x28#6

/-- An exact result: the value itself, without a flag, at the exponent of its cohort closest to the
preferred one (R215). -/
def ExactResult (s : Bool) (pref : Int) (v : ℚ) (w : Word) (F : FlagWord) : Prop :=
  F = 0#6 ∧ ∃ C q, RepresentableAs v C q ∧ w = packWord s (biased q) C ∧
    ∀ C' q', RepresentableAs v C' q' → |q - pref| ≤ |q' - pref|

/-- `(C, q)` is the positive value rounded as the mode says at `q0`, the exponent of its 34th digit, or at
`QMIN` if that lies higher; a coefficient that rounds up to `10^34` is carried into the next decade (R212,
R216). -/
def RoundedAtPrecision (s : Bool) (rm : Rm) (v : ℚ) (C : Nat) (q : Int) : Prop :=
  ∃ (q0 : Int) (C0 : Nat), Config.QMIN ≤ q0 ∧ v < (10 : ℚ) ^ (q0 + 34) ∧
    ((10 : ℚ) ^ (q0 + 33) ≤ v ∨ q0 = Config.QMIN) ∧ RoundsTo s rm (v / (10 : ℚ) ^ q0) C0 ∧
    ((C0 ≤ Config.CMAX ∧ C = C0 ∧ q = q0) ∨ (C0 = 10 ^ 34 ∧ C = 10 ^ 33 ∧ q = q0 + 1))

/-- An inexact result: a value no coefficient of the format represents, rounded to `P` digits, or fewer at
`QMIN`, as the mode says; inexact is signalled, and underflow exactly when the value is tiny (R214, R216). -/
def InexactResult (policy : Tininess) (s : Bool) (rm : Rm) (v : ℚ) (w : Word) (F : FlagWord) : Prop :=
  (∀ C q, ¬ RepresentableAs v C q) ∧
    (∃ C q, q ≤ Config.QMAX ∧ RoundedAtPrecision s rm v C q ∧ w = packWord s (biased q) C) ∧
    (TinyValue policy s rm v → F = 0x30#6) ∧ (¬ TinyValue policy s rm v → F = 0x20#6)

/-- `(w, F)` is the nonzero exact value `v` rounded once to the format, with the flags of R218. -/
def CorrectlyRounded (policy : Tininess) (rm : Rm) (pref : Int) (v : ℚ) (w : Word) (F : FlagWord) : Prop :=
  OverflowResult (decide (v < 0)) rm |v| w F ∨ ExactResult (decide (v < 0)) pref |v| w F ∨
    InexactResult policy (decide (v < 0)) rm |v| w F

/-- The decoded operand on port `A`. -/
def operandA (s : State) : Record := unpack s.args.nanPayloadLimit s.ports.a

/-- The decoded operand on port `B`. -/
def operandB (s : State) : Record := unpack s.args.nanPayloadLimit s.ports.b

/-- The decoded operand on port `C`. -/
def operandC (s : State) : Record := unpack s.args.nanPayloadLimit s.ports.c

/-- The operation answers a next state in which `RES = w` has been driven, the flag set `F` has been ORed
into the accumulator, and nothing else has changed (R23, R24). -/
def Drives (i : Instr) (s : State) (w : Word) (F : FlagWord) : Prop :=
  exec i s = .next { s with outputs := s.outputs ++ [.res w], flags := s.flags ||| F }

/-- The unit function answers a next state in which its output has been driven and nothing else has
changed (R397). -/
def UnitDrives (i : Instr) (s : State) (o : Output) : Prop :=
  exec i s = .next { s with outputs := s.outputs ++ [o] }

/-- The unit function answers a next state in which its fault has been recorded and nothing else has
changed (R361, R398; log entry 2). -/
def UnitFaults (i : Instr) (s : State) (r : Fault) : Prop :=
  exec i s = .next { s with faults := s.faults ++ [r] }

/-- The instruction is one of the four operations of the command word (R78). -/
def isOperation : Instr → Bool
  | .add _ | .mul _ | .fma _ | .div _ => true
  | .unpack | .pack | .quietnan => false
  | .mwadd64 | .mwsub64 | .mwadd128 | .mwsub128 | .mwadd192 | .mwsub192 => false
  | .mwadd256 | .mwsub256 | .mwadd384 | .mwsub384 | .mwadd512 | .mwsub512 => false
  | .mul64x64_128 | .mul64x128_128 | .mul64x128_192 | .mul128x128_256 => false
  | .mul128x192_320 | .mul192x192_384 | .mul256x256_512 => false
  | .div128by128 | .div256by128 | .dcnt128 | .dcnt256 => false
  | .rnd64 | .rnd128 | .rnd192 | .rnd256 | .rmcorr | .assemble => false
  | .alignAdd | .alignFma | .divscale => false

/-- The values on the two integer ports fit the widths a unit gives its inputs (R9, R101 to R127). -/
abbrev PortsFit (Wa Wb : Nat) (s : State) : Prop :=
  s.unitPorts.ia.toNat < 2 ^ Wa ∧ s.unitPorts.ib.toNat < 2 ^ Wb

/-- An adder of width `W`: sum and carry out together are the exact sum of the inputs and the carry in
(R113). -/
def AddsAt (W : Nat) (i : Instr) (s : State) : Prop :=
  ∃ v c, UnitDrives i s (.sum W v c) ∧
    v.toNat + 2 ^ W * c.toNat =
      s.unitPorts.ia.toNat + s.unitPorts.ib.toNat + s.unitPorts.cin.toNat

/-- A subtractor of width `W`: difference and borrow out together are the exact difference of the inputs
and the borrow in (R113). -/
def SubtractsAt (W : Nat) (i : Instr) (s : State) : Prop :=
  ∃ v c, UnitDrives i s (.sum W v c) ∧
    v.toNat + s.unitPorts.ib.toNat + s.unitPorts.cin.toNat =
      s.unitPorts.ia.toNat + 2 ^ W * c.toNat

/-- A multiplier of destination width `W`: the product of the inputs is exact (R115). -/
def MultipliesAt (W : Nat) (i : Instr) (s : State) : Prop :=
  ∃ p, UnitDrives i s (.product W p) ∧ p.toNat = s.unitPorts.ia.toNat * s.unitPorts.ib.toNat

/-- The widths at which a unit function reads the two integer ports (R101 to R127, R143, R144, R190); 0 for
a port it does not read. -/
def portWidths : Instr → Nat × Nat
  | .mwadd64 | .mwsub64 | .mul64x64_128 => (64, 64)
  | .mwadd128 | .mwsub128 | .mul128x128_256 | .div128by128 => (128, 128)
  | .mwadd192 | .mwsub192 | .mul192x192_384 => (192, 192)
  | .mwadd256 | .mwsub256 | .mul256x256_512 => (256, 256)
  | .mwadd384 | .mwsub384 => (384, 384)
  | .mwadd512 | .mwsub512 => (512, 512)
  | .mul64x128_128 | .mul64x128_192 => (64, 128)
  | .mul128x192_320 => (128, 192)
  | .div256by128 => (256, 128)
  | .rnd64 => (64, 0)
  | .dcnt128 | .rnd128 => (128, 0)
  | .rnd192 => (192, 0)
  | .dcnt256 | .rnd256 => (256, 0)
  | .add _ | .mul _ | .fma _ | .div _ => (0, 0)
  | .unpack | .pack | .quietnan | .rmcorr | .assemble | .alignAdd | .alignFma | .divscale => (0, 0)

/-- The precondition of a rounding routine of width `W`: the coefficient `C` on the first integer port fits,
lies in the digit class `lo` to `hi`, and `x`, the number of digits to discard, is from 1 to one less than
the number of its digits (R190, R192). -/
def EngineAccepts (lo hi W : Nat) (s : State) : Prop :=
  s.unitPorts.ia.toNat < 2 ^ W ∧ lo ≤ digits s.unitPorts.ia.toNat ∧ digits s.unitPorts.ia.toNat ≤ hi ∧
    1 ≤ s.unitPorts.discard ∧ s.unitPorts.discard ≤ digits s.unitPorts.ia.toNat - 1

/-- A rounding routine of width `W`: `C / 10^x` rounded to nearest with ties to even, a result of
`10^(q-x)` corrected to `10^(q-x-1)` and reported, and the indicator set that says where the exact quotient
lies (R191, R193, R194). -/
def RoundsAt (W : Nat) (i : Instr) (s : State) : Prop :=
  let C := s.unitPorts.ia.toNat
  let x := s.unitPorts.discard
  ∃ Cstar incr ind, UnitDrives i s (.rounded W Cstar incr ind) ∧
    (∃ T : Nat, RoundsTo false .rn ((C : ℚ) / 10 ^ x) T ∧ (incr = true ↔ T = 10 ^ (digits C - x)) ∧
      (incr = true → Cstar.toNat = 10 ^ (digits C - x - 1)) ∧ (incr = false → Cstar.toNat = T)) ∧
    (ind.ltMid = true ↔ 0 < C % 10 ^ x ∧ 2 * (C % 10 ^ x) < 10 ^ x) ∧
    (ind.gtMid = true ↔ 10 ^ x < 2 * (C % 10 ^ x)) ∧
    (ind.midDn = true ↔ 2 * (C % 10 ^ x) = 10 ^ x ∧ C / 10 ^ x % 2 = 0) ∧
    (ind.midUp = true ↔ 2 * (C % 10 ^ x) = 10 ^ x ∧ C / 10 ^ x % 2 = 1)

/-- The precondition of a digit counter of width `W`: a magnitude that fits and is not 0 (R140, R145). -/
abbrev CounterAccepts (W : Nat) (s : State) : Prop :=
  1 ≤ s.unitPorts.ia.toNat ∧ s.unitPorts.ia.toNat < 2 ^ W

/-- A digit counter: the least `q ≥ 1` with `C < 10^q`, at most `most` (R140). -/
def CountsAt (most : Nat) (i : Instr) (s : State) : Prop :=
  ∃ q, UnitDrives i s (.digitCount q) ∧ 1 ≤ q ∧ q ≤ most ∧ s.unitPorts.ia.toNat < 10 ^ q ∧
    ∀ q', 1 ≤ q' → s.unitPorts.ia.toNat < 10 ^ q' → q ≤ q'

/-- The precondition of a divider of dividend width `W`: inputs that fit, a divisor that is not 0 and a
quotient of at most 128 bits (R125). -/
abbrev DividerAccepts (W : Nat) (s : State) : Prop :=
  PortsFit W 128 s ∧ s.unitPorts.ib.toNat ≠ 0 ∧
    s.unitPorts.ia.toNat < 2 ^ 128 * s.unitPorts.ib.toNat

/-- A divider: quotient and remainder of the inputs (R125). -/
def DividesAt (i : Instr) (s : State) : Prop :=
  ∃ q r, UnitDrives i s (.quotient q r) ∧
    s.unitPorts.ia.toNat = q.toNat * s.unitPorts.ib.toNat + r.toNat ∧ r.toNat < s.unitPorts.ib.toNat

/-- Bits `hi` down to `lo` of a word, as the unsigned integer they form (R8). -/
def field (w : Word) (hi lo : Nat) : Nat := w.toNat / 2 ^ lo % 2 ^ (hi + 1 - lo)

/-- The word of the standard form with sign `s`, biased exponent `E` and coefficient `Cf` (R71, R171). -/
abbrev IsStandardForm (w : Word) (s : Bool) (E Cf : Nat) : Prop :=
  w.toNat = s.toNat * 2 ^ 127 + E * 2 ^ 113 + Cf

/-- The word of the quiet NaN with sign `s` and payload `PL` (R75, R172). -/
abbrev IsQuietNaN (w : Word) (s : Bool) (PL : Nat) : Prop :=
  w.toNat = s.toNat * 2 ^ 127 + 0x7C * 2 ^ 120 + PL

/-- The operation answers the quiet canonical copy of the first NaN of its operand order, with `IE` exactly
when some operand of the order is a signaling NaN (R358). -/
def PropagatesNaN (i : Instr) (s : State) (order : List Record) : Prop :=
  ∃ r w F, Drives i s w F ∧ order.find? isNaN = some r ∧ IsQuietNaN w r.s r.PL.toNat ∧
    ((∃ x ∈ order, x.cls = .snan) → F = 0x01#6) ∧ ((∀ x ∈ order, x.cls ≠ .snan) → F = 0#6)

/-- A record that a decoder produces and whose class is `FINITE` (R166, R169): finite and nonzero. -/
abbrev IsFiniteNonzero (r : Record) : Prop := r.cls = .finite ∧ r.Cf ≠ 0

/-- A finite nonzero record within the decoder's ranges (R169). -/
abbrev IsDecodedFinite (r : Record) : Prop :=
  r.cls = .finite ∧ r.Cf ≠ 0 ∧ r.E.toNat ≤ Config.EBMAX ∧ r.Cf.toNat ≤ Config.CMAX

end Sys2Proof.Machine
end

