-- ==== Sys2Proof/Certificates/Slice0/Obligations.lean ====
section
/-!
DEFINITION. The statements of this model, each a formal reading of rules of spec/; OBLIGATIONS.json lists
them with the rules they rest on.
-/

open Sys2Proof Sys2Proof.Machine

/-- Code words written out from R77, R78, R79 and R81 decode to the instructions those tables give. -/
def Obligations.WrittenCodeWordsDecode : Prop :=
  decodeCommand 0b000000#6 = .ok (.add .rn) ∧ decodeCommand 0b001000#6 = .ok (.add .rd) ∧
  decodeCommand 0b010001#6 = .ok (.mul .ru) ∧ decodeCommand 0b011010#6 = .ok (.fma .rz) ∧
  decodeCommand 0b100011#6 = .ok (.div .ra) ∧ decodeUnit 0b00000010#8 = .ok .quietnan ∧
  decodeUnit 0b00011010#8 = .ok .mwadd512 ∧ decodeUnit 0b00011011#8 = .ok .mwsub512 ∧
  decodeUnit 0b00100100#8 = .ok .mul128x192_320 ∧ decodeUnit 0b00110001#8 = .ok .div256by128 ∧
  decodeUnit 0b01000001#8 = .ok .dcnt256 ∧ decodeUnit 0b01010011#8 = .ok .rnd256 ∧
  decodeUnit 0b01100001#8 = .ok .assemble ∧ decodeUnit 0b01110010#8 = .ok .divscale

/-- Decoding the code word of an instruction gives that instruction, and a code word that decodes is the
code word of what it decodes to: no two code words spell one instruction (R77 to R84). -/
def Obligations.DecodeAndEncodeAgree : Prop :=
  (∀ i, decode (encode i) = .ok i) ∧ (∀ c i, decode c = .ok i → encode i = c)

/-- An operation request whose command word decodes runs exactly that operation, on the operand words it
carries; a unit function request whose code decodes runs exactly that function, on the inputs it carries
(R22, R397). Around it the step takes the request from the pending ones and puts its values on the ports. -/
def Obligations.StepRunsTheDecodedInstruction : Prop :=
  (∀ s cmd p rest i, s.pending = Request.operation cmd p :: rest → decodeCommand cmd = .ok i →
    step s = exec i { s with pending := rest, ports := p }) ∧
  (∀ s ufc u rest i, s.pending = Request.unitFunction ufc u :: rest → decodeUnit ufc = .ok i →
    step s = exec i { s with pending := rest, unitPorts := u })

/-- A command word with a reserved `OP` (100 to 111) or a reserved `RM` (101 to 111), a unit function code
that R81 does not list, and two operations in flight on one accumulator are refused: a refusal mark is
kept, nothing is driven and no flag changes (R58, R83, R84, R398). That two operations in flight leave the
one mark `SharedAccumulator`, whatever their command words, is the model's choice (log entry 12). -/
def Obligations.UndefinedRequestsAreRefused : Prop :=
  (∀ s cmd p rest, s.pending = Request.operation cmd p :: rest →
    (4 ≤ cmd.toNat % 8 ∨ 5 ≤ cmd.toNat / 8) →
    step s = .next { s with pending := rest, ports := p, refusals := s.refusals ++ [.reservedCommand] }) ∧
  (∀ s ufc u rest, s.pending = Request.unitFunction ufc u :: rest →
    ufc.toNat ∉ [0x00, 0x01, 0x02, 0x10, 0x11, 0x12, 0x13, 0x14, 0x15, 0x16, 0x17, 0x18, 0x19, 0x1A, 0x1B,
      0x20, 0x21, 0x22, 0x23, 0x24, 0x25, 0x26, 0x30, 0x31, 0x40, 0x41, 0x50, 0x51, 0x52, 0x53, 0x60, 0x61,
      0x70, 0x71, 0x72] →
    step s = .next { s with pending := rest, unitPorts := u,
                            refusals := s.refusals ++ [.reservedUnitFunction] }) ∧
  (∀ s c₁ p₁ c₂ p₂ rest, s.pending = Request.overlapping c₁ p₁ c₂ p₂ :: rest →
    step s = .next { s with pending := rest, refusals := s.refusals ++ [.sharedAccumulator] })

/-- Between operations the host writes any bits of `FLAGS` and reads it (R25, R397): a write sets the bits
it selects and leaves the others, a read hands over the value and changes nothing. The mask and the list of
values read are the model's (log entry 16). -/
def Obligations.HostWritesAndReadsTheAccumulator : Prop :=
  (∀ s mask value rest, s.pending = Request.writeFlags mask value :: rest →
    ∃ F, step s = .next { s with pending := rest, flags := F } ∧
      ∀ i, i < 6 → F.getLsbD i = if mask.getLsbD i then value.getLsbD i else s.flags.getLsbD i) ∧
  (∀ s rest, s.pending = Request.readFlags :: rest →
    step s = .next { s with pending := rest, reads := s.reads ++ [s.flags] })

/-- After reset the accumulator holds `FLAGS_INIT`, whatever the model arguments, and nothing is pending,
driven or marked (R33, R391, R399); under the default arguments it holds 0 (log entry 4). -/
def Obligations.ResetLeavesFlagsInit : Prop :=
  (∀ args, (State.resetWith args).flags = args.flagsInit ∧ (State.resetWith args).args = args ∧
    (State.resetWith args).pending = [] ∧ (State.resetWith args).outputs = [] ∧
    NoFaultRecorded (State.resetWith args) ∧ NotRefused (State.resetWith args) ∧
    NothingInFlight (State.resetWith args) ∧ NoOverlapRequested (State.resetWith args)) ∧
  State.reset = State.resetWith ModelArgs.default ∧ FlagsAtLaunch 0#6 State.reset

/-- The block always accepts its next request: every step ends in a next state, with the oldest pending
interaction taken (R400); with none pending nothing changes (log entry 1). -/
def Obligations.EveryRequestIsAccepted : Prop :=
  ∀ s, ∃ t, step s = .next t ∧ t.pending = s.pending.tail ∧ (s.pending = [] → t = s)

/-- No step changes a model argument, withdraws an output already driven, or clears a fault or refusal mark
(R7, R398). -/
def Obligations.StepKeepsMarksAndArguments : Prop :=
  ∀ s t, step s = .next t → t.args = s.args ∧ s.outputs <+: t.outputs ∧ s.faults <+: t.faults ∧
    s.refusals <+: t.refusals ∧ s.reads <+: t.reads

/-- Only a host write clears a bit of `FLAGS` (R24), and only a host write changes `DE` (R357). -/
def Obligations.OnlyAHostWriteClearsAFlag : Prop :=
  ∀ s t, step s = .next t → (∀ mask value rest, s.pending ≠ Request.writeFlags mask value :: rest) →
    (∀ i, s.flags.getLsbD i = true → t.flags.getLsbD i = true) ∧ t.flags.getLsbD 1 = s.flags.getLsbD 1

/-- Every step keeps the invariant of the outputs: whatever the request, a result word is a standard-form
word with a canonical coefficient, a canonical infinity or a quiet NaN with a canonical payload (R75), a
decoded record lies in the decoder's ranges (R161, R169), a digit count is between 1 and 78 and an
indicator set has at most one indicator (R193). -/
def Obligations.StepKeepsOutputsCanonical : Prop :=
  ∀ s t, OutputsOk s → step s = .next t → OutputsOk t

/-- The invariant of the outputs holds after reset, whatever the model arguments. -/
def Obligations.ResetOutputsCanonical : Prop :=
  ∀ args, OutputsOk (State.resetWith args)

/-- A run of operation requests with defined command words ends, is successful, and has driven one output
for each request (R398, R400). -/
def Obligations.RunOfDefinedOperationsSucceeds : Prop :=
  ∀ s : State, Successful s →
    (∀ r ∈ s.pending, ∃ cmd p, r = Request.operation cmd p ∧ CommandWord.wf cmd = true) →
    ∃ t : State, Host.Core.run core s.pending.length s = .next t ∧ Successful t ∧ t.pending = [] ∧
      t.outputs.length = s.outputs.length + s.pending.length

/-- Two operation requests may be issued in either order: each drives the same `RES`, and the final `FLAGS`
is the same (R57). -/
def Obligations.OrderOfOperationsIsImmaterial : Prop :=
  ∀ (s : State) cmd₁ p₁ cmd₂ p₂, CommandWord.wf cmd₁ = true → CommandWord.wf cmd₂ = true →
    ∃ (w₁ w₂ : Word) (t u : State),
      Host.Core.run core 2 { s with pending := [.operation cmd₁ p₁, .operation cmd₂ p₂] } = .next t ∧
      Host.Core.run core 2 { s with pending := [.operation cmd₂ p₂, .operation cmd₁ p₁] } = .next u ∧
      t.outputs = s.outputs ++ [.res w₁, .res w₂] ∧ u.outputs = s.outputs ++ [.res w₂, .res w₁] ∧
      t.flags = u.flags

/-- Every operation completes on every input, with one result word and one flag set ORed into `FLAGS`, and
nothing else changed; word and set are a function of the instruction, the operand words and the model
arguments alone, so no result depends on `FLAGS` and no bit is cleared (R23, R24, R26). -/
def Obligations.OperationsDriveOneResultAndAccumulateFlags : Prop :=
  ∀ i args p, isOperation i = true →
    ∃ w F, ∀ s, s.args = args → s.ports = p → Drives i s w F

/-- A unit function drives one output, or records one fault, changes nothing else, and what it drives or
records is a function of its inputs and the model arguments alone: it reads no flag and signals none. -/
def Obligations.UnitFunctionsTouchNothingElse : Prop :=
  ∀ i args u, isOperation i = false →
    (∃ o, ∀ s, s.args = args → s.unitPorts = u → UnitDrives i s o) ∨
      (∃ r, ∀ s, s.args = args → s.unitPorts = u → UnitFaults i s r)

/-- `ADD`, `MUL` and `DIV` ignore port `C`, whatever it holds (R34). -/
def Obligations.UnreadPortIsIgnored : Prop :=
  ∀ rm s c, ∀ i ∈ [Instr.add rm, Instr.mul rm, Instr.div rm],
    ∃ w F, Drives i s w F ∧ Drives i { s with ports := { s.ports with c := c } } w F

/-- A unit function reads each integer port at its own width: port values that agree in those bits give the
same output or fault. The spec gives each input its width (R9); that a wider value is read at its low bits
is the model's choice (log entry 6). -/
def Obligations.UnitsReadTheirOwnWidths : Prop :=
  ∀ i s ia ib, isOperation i = false →
    ia.toNat % 2 ^ (portWidths i).1 = s.unitPorts.ia.toNat % 2 ^ (portWidths i).1 →
    ib.toNat % 2 ^ (portWidths i).2 = s.unitPorts.ib.toNat % 2 ^ (portWidths i).2 →
    let t := { s with unitPorts := { s.unitPorts with ia := ia, ib := ib } }
    (∃ o, UnitDrives i s o ∧ UnitDrives i t o) ∨ (∃ r, UnitFaults i s r ∧ UnitFaults i t r)

/-- The six adders: with inputs of the adder's width, sum and carry out together are the exact sum; no flag,
no fault (R101, R103, R105, R107, R109, R111). -/
def Obligations.AddersGiveSumAndCarry : Prop :=
  ∀ s, (PortsFit 64 64 s → AddsAt 64 .mwadd64 s) ∧ (PortsFit 128 128 s → AddsAt 128 .mwadd128 s) ∧
    (PortsFit 192 192 s → AddsAt 192 .mwadd192 s) ∧ (PortsFit 256 256 s → AddsAt 256 .mwadd256 s) ∧
    (PortsFit 384 384 s → AddsAt 384 .mwadd384 s) ∧ (PortsFit 512 512 s → AddsAt 512 .mwadd512 s) ∧
    encode .mwadd64 = .unit 0x10#8 ∧ encode .mwadd128 = .unit 0x12#8 ∧ encode .mwadd192 = .unit 0x14#8 ∧
    encode .mwadd256 = .unit 0x16#8 ∧ encode .mwadd384 = .unit 0x18#8 ∧ encode .mwadd512 = .unit 0x1A#8

/-- The six subtractors: with inputs of the subtractor's width, difference and borrow out together are the
exact difference; no flag, no fault (R102, R104, R106, R108, R110, R112). -/
def Obligations.SubtractorsGiveDifferenceAndBorrow : Prop :=
  ∀ s, (PortsFit 64 64 s → SubtractsAt 64 .mwsub64 s) ∧ (PortsFit 128 128 s → SubtractsAt 128 .mwsub128 s) ∧
    (PortsFit 192 192 s → SubtractsAt 192 .mwsub192 s) ∧ (PortsFit 256 256 s → SubtractsAt 256 .mwsub256 s) ∧
    (PortsFit 384 384 s → SubtractsAt 384 .mwsub384 s) ∧ (PortsFit 512 512 s → SubtractsAt 512 .mwsub512 s) ∧
    encode .mwsub64 = .unit 0x11#8 ∧ encode .mwsub128 = .unit 0x13#8 ∧ encode .mwsub192 = .unit 0x15#8 ∧
    encode .mwsub256 = .unit 0x17#8 ∧ encode .mwsub384 = .unit 0x19#8 ∧ encode .mwsub512 = .unit 0x1B#8

/-- The limb loops of R113 give the sum and carry, and the difference and borrow, of any number of 64-bit
limbs. -/
def Obligations.LimbLoopsMatchTheWideResult : Prop :=
  ∀ k (a b : BitVec (64 * k)) (c : Bool),
    limbsValue (addLimbs (limbs k a.toNat) (limbs k b.toNat) c.toNat).1 = (mwAdd (64 * k) a b c).1.toNat ∧
    (addLimbs (limbs k a.toNat) (limbs k b.toNat) c.toNat).2 = (mwAdd (64 * k) a b c).2.toNat ∧
    limbsValue (subLimbs (limbs k a.toNat) (limbs k b.toNat) c.toNat).1 = (mwSub (64 * k) a b c).1.toNat ∧
    (subLimbs (limbs k a.toNat) (limbs k b.toNat) c.toNat).2 = (mwSub (64 * k) a b c).2.toNat

/-- The multipliers whose destination is the sum of the operand widths are exact (R116, R118, R119, R121,
R122). -/
def Obligations.WideMultipliersAreExact : Prop :=
  ∀ s, (PortsFit 64 64 s → MultipliesAt 128 .mul64x64_128 s) ∧
    (PortsFit 64 128 s → MultipliesAt 192 .mul64x128_192 s) ∧
    (PortsFit 128 128 s → MultipliesAt 256 .mul128x128_256 s) ∧
    (PortsFit 192 192 s → MultipliesAt 384 .mul192x192_384 s) ∧
    (PortsFit 256 256 s → MultipliesAt 512 .mul256x256_512 s) ∧
    encode .mul64x64_128 = .unit 0x20#8 ∧ encode .mul64x128_192 = .unit 0x22#8 ∧
    encode .mul128x128_256 = .unit 0x23#8 ∧ encode .mul192x192_384 = .unit 0x25#8 ∧
    encode .mul256x256_512 = .unit 0x26#8

/-- `MUL64X128_128` gives the low 128 bits of the product (R117), and `MUL128X192_320` the exact one, in a
destination whose width the spec derives (R120). -/
def Obligations.NarrowMultiplierWraps : Prop :=
  ∀ s, (PortsFit 64 128 s → ∃ p, UnitDrives .mul64x128_128 s (.product 128 p) ∧
      p.toNat = s.unitPorts.ia.toNat * s.unitPorts.ib.toNat % 2 ^ 128) ∧
    (PortsFit 128 192 s → MultipliesAt 320 .mul128x192_320 s)

/-- The dividers give quotient and remainder wherever the divisor is not 0 and the quotient fits, which for
`DIV128BY128` it always does; no normalization of the divisor is asked (R125, R126, R127, R129). -/
def Obligations.DividersGiveQuotientAndRemainder : Prop :=
  ∀ s, (PortsFit 128 128 s → s.unitPorts.ib.toNat ≠ 0 → DividesAt .div128by128 s) ∧
    (DividerAccepts 256 s → DividesAt .div256by128 s)

/-- Outside their preconditions the divider, the digit counter and the rounding engine record their fault
and drive nothing (R125, R145, R192, R361). -/
def Obligations.ArithmeticUnitFaultsAreMarked : Prop :=
  ∀ s, (PortsFit 128 128 s → s.unitPorts.ib.toNat = 0 → UnitFaults .div128by128 s .divideByZeroDivisor) ∧
    (PortsFit 256 128 s → s.unitPorts.ib.toNat = 0 → UnitFaults .div256by128 s .divideByZeroDivisor) ∧
    (PortsFit 256 128 s → s.unitPorts.ib.toNat ≠ 0 → ¬ DividerAccepts 256 s →
      UnitFaults .div256by128 s .quotientOverflow) ∧
    (s.unitPorts.ia.toNat = 0 → UnitFaults .dcnt128 s .zeroDigitCount ∧
      UnitFaults .dcnt256 s .zeroDigitCount) ∧
    (s.unitPorts.ia.toNat < 2 ^ 64 → ¬ EngineAccepts 2 18 64 s → UnitFaults .rnd64 s .roundRange) ∧
    (s.unitPorts.ia.toNat < 2 ^ 128 → ¬ EngineAccepts 19 38 128 s → UnitFaults .rnd128 s .roundRange) ∧
    (s.unitPorts.ia.toNat < 2 ^ 192 → ¬ EngineAccepts 39 57 192 s → UnitFaults .rnd192 s .roundRange) ∧
    (s.unitPorts.ia.toNat < 2 ^ 256 → ¬ EngineAccepts 58 76 256 s → UnitFaults .rnd256 s .roundRange)

/-- Outside their preconditions the packer, the NaN quieter, the assembler, the alignment units and the
scaling unit record their fault and drive nothing (R171, R172, R208, R243, R285, R322, R361). That the
assembler faults through the packer on a coefficient above `10^34 - 1`, and that a record of class
`FINITE` with coefficient 0 counts as a zero, are the model's readings (log entries 9 and 7). -/
def Obligations.OperandUnitFaultsAreMarked : Prop :=
  ∀ s, (¬ (s.unitPorts.E ≤ Config.EBMAX ∧ s.unitPorts.coef ≤ Config.CMAX) →
      UnitFaults .pack s .packRange) ∧
    (isNaN s.unitPorts.x = false → UnitFaults .quietnan s .notNaN) ∧
    (s.unitPorts.exp < Config.QMIN → UnitFaults .assemble s .exponentRange) ∧
    (Config.QMIN ≤ s.unitPorts.exp → s.unitPorts.exp ≤ Config.QMAX → Config.CMAX < s.unitPorts.coef →
      UnitFaults .assemble s .packRange) ∧
    (¬ (IsFiniteNonzero s.unitPorts.x ∧ IsFiniteNonzero s.unitPorts.y) →
      UnitFaults .alignAdd s .alignOperand ∧ UnitFaults .divscale s .divScaleOperand) ∧
    (¬ (s.unitPorts.prod.C4 ≠ 0 ∧ IsFiniteNonzero s.unitPorts.x) → UnitFaults .alignFma s .alignOperand)

/-- No instruction records the fault `TableIndex`: the digit counters, the rounding engine and the scaling
unit name other faults for every input outside their preconditions (R143 to R145, R192, R196, R197, R199,
R200, R322), and within them their indices lie in the tables, whose ends are those of log entries 10 and 11. -/
def Obligations.NoUnitReadsOutsideATable : Prop :=
  ∀ i s, ¬ UnitFaults i s .tableIndex

/-- The digit counters give the number of decimal digits of a magnitude: the least `q ≥ 1` with
`C < 10^q` (R140). -/
def Obligations.DigitCountersCount : Prop :=
  ∀ s, (CounterAccepts 128 s → CountsAt 39 .dcnt128 s) ∧ (CounterAccepts 256 s → CountsAt 78 .dcnt256 s)

/-- The four tables whose contents the spec gives, `TEN_POW`, `NR_DIGITS`, `DIGIT_THRESH` and `HALF_ULP`, meet
their contracts entry by entry, in entries of the widths the spec names (R31, R51, R142, R198). `KX`, `EX`,
`MASK` and `TEN2MXTRUNC` are not in this statement: their contents are free values and their contract a
premise (log entry 10). The end of `TEN_POW` and the width of each entry within those the spec names are the
model's (log entries 11 and 20); the unused entries of `DIGIT_THRESH` have no contract. -/
def Obligations.ConstantTablesMeetTheirContracts : Prop := ReadTablesMeetContracts

/-- `UNPACK` fills the record as R170 says: NaNs first, then infinities, then the alternate form, then the
standard form. -/
def Obligations.UnpackFollowsTheClassTable : Prop :=
  encode .unpack = .unit 0x00#8 ∧ ∀ s, ∃ r, UnitDrives .unpack s (.record r) ∧
    let w := s.unitPorts.w
    r.s = decide (field w 127 127 = 1) ∧
    (field w 126 122 = 31 → r.cls = (if field w 121 121 = 1 then .snan else .qnan) ∧ r.E = 0 ∧ r.Cf = 0 ∧
      r.PL.toNat = if field w 109 0 ≤ s.args.nanPayloadLimit then field w 109 0 else 0) ∧
    (field w 126 122 = 30 → r.cls = .inf ∧ r.E = 0 ∧ r.Cf = 0 ∧ r.PL = 0) ∧
    (field w 126 122 < 30 → field w 126 125 = 3 →
      r.cls = .zero ∧ r.E.toNat = field w 124 111 ∧ r.Cf = 0 ∧ r.PL = 0) ∧
    (field w 126 125 < 3 →
      r.E.toNat = field w 126 113 ∧ r.PL = 0 ∧
      r.Cf.toNat = (if field w 112 0 ≤ 10 ^ 34 - 1 then field w 112 0 else 0) ∧
      r.cls = if r.Cf = 0 then .zero else .finite)

/-- `PACK` writes the standard form, which never has steering bits 11 (R171); `QUIETNAN` keeps sign and
payload, clears bit 121 and writes zeros below it down to the payload (R172). That it writes a payload above
the limit, which no decoder produces, as it stands is the model's choice (log entry 7). -/
def Obligations.PackAndQuietnanWriteTheirForms : Prop :=
  (∀ s, s.unitPorts.E ≤ Config.EBMAX → s.unitPorts.coef ≤ Config.CMAX →
    ∃ w, UnitDrives .pack s (.word w) ∧ IsStandardForm w s.unitPorts.s s.unitPorts.E s.unitPorts.coef ∧
      field w 126 125 ≠ 3) ∧
  (∀ s, isNaN s.unitPorts.x = true →
    ∃ w, UnitDrives .quietnan s (.word w) ∧ IsQuietNaN w s.unitPorts.x.s s.unitPorts.x.PL.toNat)

/-- Unpacking and packing a finite word gives a canonical standard-form word back, and turns any other
finite word into the zero of its sign and exponent (R173). -/
def Obligations.UnpackThenPackRoundTrip : Prop :=
  ∀ limit w, field w 126 122 < 30 →
    ∃ w', pack (unpack limit w).s (unpack limit w).E.toNat (unpack limit w).Cf.toNat = .ok w' ∧
      (field w 126 125 < 3 → field w 112 0 ≤ 10 ^ 34 - 1 → w' = w) ∧
      (field w 126 125 < 3 → 10 ^ 34 ≤ field w 112 0 →
        IsStandardForm w' (decide (field w 127 127 = 1)) (field w 126 113) 0) ∧
      (field w 126 125 = 3 → IsStandardForm w' (decide (field w 127 127 = 1)) (field w 124 111) 0)

/-- The rounding engine rounds to nearest with ties to even and classifies the discarded part (R191). -/
def Obligations.EngineRoundsToNearestEven : Prop :=
  ∀ s, (EngineAccepts 2 18 64 s → RoundsAt 64 .rnd64 s) ∧ (EngineAccepts 19 38 128 s → RoundsAt 128 .rnd128 s) ∧
    (EngineAccepts 39 57 192 s → RoundsAt 192 .rnd192 s) ∧ (EngineAccepts 58 76 256 s → RoundsAt 256 .rnd256 s)

/-- `RMCORR` increments or decrements by the mode, the sign and the indicators, with the decade carry and
its undoing (R203 to R207). A coefficient of 0 that is decremented gives -1 (log entry 8). -/
def Obligations.RmcorrFollowsTheModes : Prop :=
  ∀ s, ∃ C e, UnitDrives .rmcorr s (.corrected C e) ∧
    let u := s.unitPorts
    let below := u.ind.ltMid = true ∨ u.ind.midDn = true
    let above := u.ind.gtMid = true ∨ u.ind.midUp = true
    let inc := (u.rm = .ra ∧ u.ind.midDn = true) ∨ (u.rm = .ru ∧ below ∧ u.s = false) ∨
      (u.rm = .rd ∧ below ∧ u.s = true)
    let dec := (u.rm = .rz ∧ above) ∨ (u.rm = .ru ∧ above ∧ u.s = true) ∨
      (u.rm = .rd ∧ above ∧ u.s = false)
    ¬ (inc ∧ dec) ∧
    (inc → u.coef + 1 = 10 ^ 34 → C = 10 ^ 33 ∧ e = u.exp + 1) ∧
    (inc → u.coef + 1 ≠ 10 ^ 34 → C = u.coef + 1 ∧ e = u.exp) ∧
    (dec → (u.carried = true ∧ 1 ≤ u.n ∧ u.coef = 10 ^ (u.n - 1)) → C = 10 ^ u.n - 1 ∧ e = u.exp - 1) ∧
    (dec → ¬ (u.carried = true ∧ 1 ≤ u.n ∧ u.coef = 10 ^ (u.n - 1)) → C = u.coef - 1 ∧ e = u.exp) ∧
    (¬ inc → ¬ dec → C = u.coef ∧ e = u.exp)

/-- Engine and correction together round in every mode: the corrected coefficient at its exponent is
`C / 10^x` rounded as the mode says (R202 to R209). Above 76 digits, where the engine has no routine, the
rounding of R191 is the model's choice (log entry 19). -/
def Obligations.CorrectionGivesEveryMode : Prop :=
  ∀ s rm C x e, 1 ≤ x → x + 1 ≤ digits C →
    let r := rnd C x
    let c := rmcorr s rm r.Cstar (e + (if r.incr then 1 else 0)) r.ind (digits C - x) r.incr
    ∃ T : Nat, RoundsTo s rm ((C : ℚ) / 10 ^ x) T ∧ (c.1 : ℚ) * (10 : ℚ) ^ c.2 = T * (10 : ℚ) ^ e

/-- `ASSEMBLE` packs a result within the format's exponents with the flags its inputs name, folds down an
exact result above them whose coefficient can grow, and overflows otherwise, by the table of R210 (R208). -/
def Obligations.AssemblePacksFoldsOrOverflows : Prop :=
  ∀ s, Config.QMIN ≤ s.unitPorts.exp → s.unitPorts.coef ≤ Config.CMAX →
    ∃ w F, UnitDrives .assemble s (.assembled w F) ∧
      let u := s.unitPorts
      let k := (u.exp - Config.QMAX).toNat
      (u.exp ≤ Config.QMAX → IsStandardForm w u.s (u.exp + Config.BIAS).toNat u.coef ∧
        F = if u.inexact then (if u.tiny then 0x30#6 else 0x20#6) else 0#6) ∧
      (Config.QMAX < u.exp → u.inexact = false → u.coef * 10 ^ k ≤ Config.CMAX →
        IsStandardForm w u.s Config.EBMAX (u.coef * 10 ^ k) ∧ F = 0#6) ∧
      (Config.QMAX < u.exp → (u.inexact = true ∨ Config.CMAX < u.coef * 10 ^ k) →
        w = overflowTable u.rm u.s ∧ F = 0x28#6)

/-- Tininess under both policies: below `10^EMIN` before rounding, or after rounding to 34 digits with an
unbounded exponent range (R214). -/
def Obligations.TininessFollowsThePolicy : Prop :=
  ∀ policy s v rm, v.num ≠ 0 → v.den ≠ 0 →
    (tiny policy s v rm = true ↔ TinyValue policy s rm (magnitudeValue v))

/-- Engine, correction and assembler give the one rounding of `RoundToFormat`, for every value, mode and
tininess policy (R219, R220). Above 76 digits, where the engine has no routine, the rounding of R191 is the
model's choice (log entry 19). -/
def Obligations.UnitsRealizeOneRounding : Prop :=
  ∀ policy s M e pref rm, 1 ≤ M → realize policy s M e pref rm = .ok (roundToFormat policy s ⟨M, 1, e⟩ pref rm)

/-- The datapath of `ADD`, absorbing or exact, gives the result of the operation for any two finite nonzero
operands (R243, R244, R245, R246). That the power-of-ten sub-case of R246 forms the exact sum, without rounding
the smaller operand first, is the model's choice (log entry 21). -/
def Obligations.AddDatapathGivesTheSum : Prop :=
  ∀ policy rm x y, IsDecodedFinite x → IsDecodedFinite y →
    addDatapath policy rm x y = .ok (addRecords policy rm x y)

/-- The model's datapath of `FMA`, whichever of product and addend dominates, gives the result of the operation
for any three finite nonzero operands (R282, R285, R286). How it enters an addend far below the product as a
sticky digit, adds one that overlaps it, and scales down to `QMIN` is the model's choice (log entry 17), and
so is the rounding of an exact sum above 76 digits (log entry 19). -/
def Obligations.FmaDatapathGivesTheResult : Prop :=
  ∀ policy rm x y z, IsDecodedFinite x → IsDecodedFinite y → IsDecodedFinite z →
    fmaDatapath policy rm x y z = .ok (fmaRecords policy rm x y z)

/-- The datapath of `DIV`, scaling, dividing and rounding by the remainder, gives the result of the
operation for any two finite nonzero operands (R323, R324, R325). -/
def Obligations.DivDatapathGivesTheQuotient : Prop :=
  ∀ args rm x y, IsDecodedFinite x → IsDecodedFinite y →
    divDatapath args.tininess rm x y = .ok (divRecords args rm x y)

/-- `ALIGN_ADD` orders two operands by the position of their leading digits and gives the region and the
alignment (R242, R243). The rules are about decoded records; that the same formulas hold for a finite nonzero
record beyond the decoder's ranges is the model's choice (log entry 7). -/
def Obligations.AlignAddOrdersAndScales : Prop :=
  ∀ s, IsFiniteNonzero s.unitPorts.x → IsFiniteNonzero s.unitPorts.y →
    ∃ a, UnitDrives .alignAdd s (.addAligned a) ∧
      let x := s.unitPorts.x
      let y := s.unitPorts.y
      (leadPos y ≤ leadPos x → a.L = x ∧ a.S = y) ∧ (leadPos x < leadPos y → a.L = y ∧ a.S = x) ∧
      a.d = |leadPos x - leadPos y| ∧
      (a.pow10 = true ↔ a.L.s ≠ a.S.s ∧ a.L.Cf.toNat = 10 ^ (digits a.L.Cf.toNat - 1)) ∧
      (34 < a.d → a.region = .absorb ∧ a.kL = 34 - digits a.L.Cf.toNat ∧ a.kS = 0 ∧
        a.eA = quantumExp a.L - a.kL) ∧
      (a.d ≤ 34 → a.region = .exact ∧ a.eA = min (quantumExp a.L) (quantumExp a.S) ∧
        a.kL = quantumExp a.L - a.eA ∧ a.kS = quantumExp a.S - a.eA)

/-- `ALIGN_FMA` gives the region of product and addend and their alignment (R284, R285). The rule is about a
decoded addend and a product of two coefficients with its digit count; that the same formulas hold for a finite
nonzero addend beyond the decoder's ranges, and for any nonzero `C4` with any `q4`, is the model's choice (log
entry 7). -/
def Obligations.AlignFmaGivesTheRegion : Prop :=
  ∀ s, s.unitPorts.prod.C4 ≠ 0 → IsFiniteNonzero s.unitPorts.x →
    ∃ a, UnitDrives .alignFma s (.fmaAligned a) ∧
      let p := s.unitPorts.prod
      let z := s.unitPorts.x
      a.d = digits z.Cf.toNat + quantumExp z - (p.q4 + p.e4) ∧
      (34 < a.d → a.region = .addendDominates) ∧ (a.d < -34 → a.region = .productDominates) ∧
      (-34 ≤ a.d → a.d ≤ 34 → a.region = .comparable) ∧
      a.eA = min (quantumExp z) p.e4 ∧ a.k4 = p.e4 - a.eA ∧ a.k3 = quantumExp z - a.eA

/-- `DIVSCALE` gives the least scale at which the quotient has 34 digits; for decoded operands the scale is
at most 67 and the quotient has exactly 34 digits (R322). The rule is about decoded records; that the same
formulas hold for finite nonzero records beyond the decoder's ranges is the model's choice (log entry 7). -/
def Obligations.DivscaleGivesTheLeastScale : Prop :=
  ∀ s, IsFiniteNonzero s.unitPorts.x → IsFiniteNonzero s.unitPorts.y →
    ∃ d, UnitDrives .divscale s (.divScaled d) ∧
      let C₁ := s.unitPorts.x.Cf.toNat
      let C₂ := s.unitPorts.y.Cf.toNat
      d.N = C₁ * 10 ^ d.k ∧ d.eq = quantumExp s.unitPorts.x - quantumExp s.unitPorts.y - d.k ∧
      10 ^ 33 ≤ d.N / C₂ ∧ (∀ j, j < d.k → C₁ * 10 ^ j / C₂ < 10 ^ 33) ∧
      (C₁ ≤ Config.CMAX → C₂ ≤ Config.CMAX → d.k ≤ 67 ∧ d.N / C₂ < 10 ^ 34)

/-- `ADD` of finite operands with a nonzero sum is the exact sum rounded once, with the flags of that
rounding (R212 to R216, R240). -/
def Obligations.AddIsCorrectlyRounded : Prop :=
  ∀ rm s, isFinite (operandA s) = true → isFinite (operandB s) = true →
    valueOf (operandA s) + valueOf (operandB s) ≠ 0 →
    ∃ w F, Drives (.add rm) s w F ∧
      CorrectlyRounded s.args.tininess rm (min (quantumExp (operandA s)) (quantumExp (operandB s)))
        (valueOf (operandA s) + valueOf (operandB s)) w F

/-- `MUL` of finite nonzero operands is the exact product rounded once (R212 to R216, R290). -/
def Obligations.MulIsCorrectlyRounded : Prop :=
  ∀ rm s, isFinite (operandA s) = true → isFinite (operandB s) = true →
    valueOf (operandA s) * valueOf (operandB s) ≠ 0 →
    ∃ w F, Drives (.mul rm) s w F ∧
      CorrectlyRounded s.args.tininess rm
        (clamp (quantumExp (operandA s) + quantumExp (operandB s)) Config.QMIN Config.QMAX)
        (valueOf (operandA s) * valueOf (operandB s)) w F

/-- `FMA` of finite operands with a nonzero result is the exact `A × B + C` rounded once: the product is
not rounded before the addition (R212 to R216, R280, R282). -/
def Obligations.FmaIsCorrectlyRounded : Prop :=
  ∀ rm s, isFinite (operandA s) = true → isFinite (operandB s) = true → isFinite (operandC s) = true →
    valueOf (operandA s) * valueOf (operandB s) + valueOf (operandC s) ≠ 0 →
    ∃ w F, Drives (.fma rm) s w F ∧
      CorrectlyRounded s.args.tininess rm
        (clamp (min (quantumExp (operandA s) + quantumExp (operandB s)) (quantumExp (operandC s)))
          Config.QMIN Config.QMAX)
        (valueOf (operandA s) * valueOf (operandB s) + valueOf (operandC s)) w F

/-- `DIV` of finite nonzero operands is the exact quotient rounded once (R212 to R216, R320). -/
def Obligations.DivIsCorrectlyRounded : Prop :=
  ∀ rm s, isFinite (operandA s) = true → isFinite (operandB s) = true →
    valueOf (operandA s) ≠ 0 → valueOf (operandB s) ≠ 0 →
    ∃ w F, Drives (.div rm) s w F ∧
      CorrectlyRounded s.args.tininess rm
        (clamp (quantumExp (operandA s) - quantumExp (operandB s)) Config.QMIN Config.QMAX)
        (valueOf (operandA s) / valueOf (operandB s)) w F

/-- An exactly zero sum of finite operands is a zero at the smaller exponent, without a flag: terms of one
sign keep it, terms of opposite signs give minus zero exactly under `RD` (R251). -/
def Obligations.ExactZeroSumsOfAdd : Prop :=
  ∀ rm s, isFinite (operandA s) = true → isFinite (operandB s) = true →
    valueOf (operandA s) + valueOf (operandB s) = 0 →
    ∃ w, Drives (.add rm) s w 0#6 ∧
      IsStandardForm w
        (if (operandA s).s = (operandB s).s then (operandA s).s else decide (rm = .rd))
        (min (operandA s).E.toNat (operandB s).E.toNat) 0

/-- An exactly zero `A × B + C` of finite operands is a zero at the preferred exponent, without a flag, its
sign that of the terms where they agree, else minus exactly under `RD` (R213, R217, R280). -/
def Obligations.ExactZeroResultsOfFma : Prop :=
  ∀ rm s, isFinite (operandA s) = true → isFinite (operandB s) = true → isFinite (operandC s) = true →
    valueOf (operandA s) * valueOf (operandB s) + valueOf (operandC s) = 0 →
    ∃ w, Drives (.fma rm) s w 0#6 ∧
      IsStandardForm w
        (if ((operandA s).s ^^ (operandB s).s) = (operandC s).s then (operandC s).s else decide (rm = .rd))
        (clamp (min (quantumExp (operandA s) + quantumExp (operandB s)) (quantumExp (operandC s)))
          Config.QMIN Config.QMAX + Config.BIAS).toNat 0

/-- A product with a zero factor and a zero quotient of finite operands are zeros of the product sign at the
preferred exponent, without a flag (R213, R217, R290, R320). -/
def Obligations.ZeroProductsAndQuotients : Prop :=
  ∀ rm s, isFinite (operandA s) = true → isFinite (operandB s) = true →
    ((valueOf (operandA s) = 0 ∨ valueOf (operandB s) = 0) →
      ∃ w, Drives (.mul rm) s w 0#6 ∧ IsStandardForm w ((operandA s).s ^^ (operandB s).s)
        (clamp (quantumExp (operandA s) + quantumExp (operandB s)) Config.QMIN Config.QMAX
          + Config.BIAS).toNat 0) ∧
    (valueOf (operandA s) = 0 → valueOf (operandB s) ≠ 0 →
      ∃ w, Drives (.div rm) s w 0#6 ∧ IsStandardForm w ((operandA s).s ^^ (operandB s).s)
        (clamp (quantumExp (operandA s) - quantumExp (operandB s)) Config.QMIN Config.QMAX
          + Config.BIAS).toNat 0)

/-- A NaN operand gives the quiet canonical copy of the first NaN in the operation's order, with `IE` exactly
when some operand it reads is a signaling NaN (R358). -/
def Obligations.NaNOperandsPropagate : Prop :=
  ∀ rm s, let A := operandA s
    let B := operandB s
    let C := operandC s
    (isNaN A = true ∨ isNaN B = true → PropagatesNaN (.add rm) s [A, B] ∧ PropagatesNaN (.div rm) s [A, B] ∧
      (s.args.mulNanFirst = .a → PropagatesNaN (.mul rm) s [A, B]) ∧
      (s.args.mulNanFirst = .b → PropagatesNaN (.mul rm) s [B, A])) ∧
    (isNaN A = true ∨ isNaN B = true ∨ isNaN C = true → PropagatesNaN (.fma rm) s [B, C, A])

/-- `ADD` with an infinite operand and no NaN: the infinity, or the default NaN with `IE` for infinities of
opposite signs (R240, R351). -/
def Obligations.AddOfInfinities : Prop :=
  ∀ rm s, let A := operandA s
    let B := operandB s
    (A.cls = .inf → B.cls = .inf → A.s ≠ B.s → Drives (.add rm) s defaultNaN 0x01#6) ∧
    (A.cls = .inf → B.cls = .inf → A.s = B.s → Drives (.add rm) s (infinityOf A.s) 0#6) ∧
    (A.cls = .inf → isFinite B = true → Drives (.add rm) s (infinityOf A.s) 0#6) ∧
    (isFinite A = true → B.cls = .inf → Drives (.add rm) s (infinityOf B.s) 0#6)

/-- `MUL` with an infinite operand and no NaN: the infinity of the product sign, or the default NaN with `IE`
for an infinity times a zero (R290, R351). -/
def Obligations.MulOfInfinities : Prop :=
  ∀ rm s, let A := operandA s
    let B := operandB s
    ((A.cls = .inf ∧ B.cls = .zero) ∨ (A.cls = .zero ∧ B.cls = .inf) →
      Drives (.mul rm) s defaultNaN 0x01#6) ∧
    ((A.cls = .inf ∧ B.cls ∈ [.inf, .finite]) ∨ (A.cls = .finite ∧ B.cls = .inf) →
      Drives (.mul rm) s (infinityOf (A.s ^^ B.s)) 0#6)

/-- `FMA` with an infinite operand and no NaN: the table of R281, row by row. -/
def Obligations.FmaOfInfinities : Prop :=
  ∀ rm s, let A := operandA s
    let B := operandB s
    let C := operandC s
    let ps := A.s ^^ B.s
    let infiniteProduct := (A.cls = .inf ∧ B.cls ∈ [.inf, .finite]) ∨ (A.cls = .finite ∧ B.cls = .inf)
    ((A.cls = .inf ∧ B.cls = .zero) ∨ (A.cls = .zero ∧ B.cls = .inf) → isNaN C = false →
      Drives (.fma rm) s defaultNaN 0x01#6) ∧
    (infiniteProduct → C.cls = .inf → C.s ≠ ps → Drives (.fma rm) s defaultNaN 0x01#6) ∧
    (infiniteProduct → (C.cls = .inf ∧ C.s = ps) ∨ isFinite C = true →
      Drives (.fma rm) s (infinityOf ps) 0#6) ∧
    (isFinite A = true → isFinite B = true → C.cls = .inf → Drives (.fma rm) s (infinityOf C.s) 0#6)

/-- `DIV` with special operands and no NaN: the table of R321, row by row but for its last, a zero quotient
of finite operands. -/
def Obligations.DivOfSpecialOperands : Prop :=
  ∀ rm s, let A := operandA s
    let B := operandB s
    let sign := A.s ^^ B.s
    (A.cls = .inf → B.cls = .inf → Drives (.div rm) s defaultNaN 0x01#6) ∧
    (A.cls = .inf → B.cls = .finite → Drives (.div rm) s (infinityOf sign) 0#6) ∧
    (A.cls = .inf → B.cls = .zero →
      Drives (.div rm) s (infinityOf sign) (if s.args.infDivZeroDz then 0x04#6 else 0#6)) ∧
    (isFinite A = true → B.cls = .inf →
      ∃ w, Drives (.div rm) s w 0#6 ∧ IsStandardForm w sign 0 0) ∧
    (A.cls = .zero → B.cls = .zero → Drives (.div rm) s defaultNaN 0x01#6) ∧
    (A.cls = .finite → B.cls = .zero → Drives (.div rm) s (infinityOf sign) 0x04#6)

/-- A finite nonzero value divided by itself is exactly one, without a flag: R327 says so of the mode to
nearest, and in every other mode the quotient is exact as well. -/
def Obligations.DivByItselfIsOne : Prop :=
  ∀ rm s, (operandA s).cls = .finite → s.ports.b = s.ports.a →
    Drives (.div rm) s 0x30400000000000000000000000000001#128 0#6

/-- `ADD` gives the same result and flags with its operands exchanged, unless both are NaNs (R252). -/
def Obligations.AddIsSymmetric : Prop :=
  ∀ rm s, ¬ (isNaN (operandA s) = true ∧ isNaN (operandB s) = true) →
    ∃ w F, Drives (.add rm) s w F ∧
      Drives (.add rm) { s with ports := ⟨s.ports.b, s.ports.a, s.ports.c⟩ } w F

/-- For finite nonzero operands `MUL` equals `FMA` with plus zero at the largest exponent as addend, bit for
bit and in flags (R291). -/
def Obligations.MulIsFmaWithTheLargestZero : Prop :=
  ∀ rm s, (operandA s).cls = .finite → (operandB s).cls = .finite →
    s.ports.c = 0x5FFE0000000000000000000000000000#128 →
    ∃ w F, Drives (.mul rm) s w F ∧ Drives (.fma rm) s w F

/-- The flag sets an operation can signal: none, invalid, divide-by-zero, inexact, underflow with inexact,
overflow with inexact; only `DIV` signals divide-by-zero, and `ADD` never underflow (R249, R353, R360). -/
def Obligations.PossibleFlagSets : Prop :=
  ∀ rm s,
    (∃ w F, Drives (.add rm) s w F ∧ F ∈ [0x00#6, 0x01#6, 0x20#6, 0x28#6]) ∧
    (∃ w F, Drives (.mul rm) s w F ∧ F ∈ [0x00#6, 0x01#6, 0x20#6, 0x30#6, 0x28#6]) ∧
    (∃ w F, Drives (.fma rm) s w F ∧ F ∈ [0x00#6, 0x01#6, 0x20#6, 0x30#6, 0x28#6]) ∧
    (∃ w F, Drives (.div rm) s w F ∧ F ∈ [0x00#6, 0x01#6, 0x04#6, 0x20#6, 0x30#6, 0x28#6])

/-- A zero operand leaves the other operand's value unchanged, without a flag; the result has the other
operand's coefficient and exponent where that exponent is at most the zero's (R248). -/
def Obligations.AddingAZeroKeepsTheValue : Prop :=
  ∀ rm s, (operandA s).cls = .finite → (operandB s).cls = .zero →
    ∃ w, Drives (.add rm) s w 0#6 ∧ valueOf (unpack s.args.nanPayloadLimit w) = valueOf (operandA s) ∧
      ((operandA s).E.toNat ≤ (operandB s).E.toNat →
        IsStandardForm w (operandA s).s (operandA s).E.toNat (operandA s).Cf.toNat)
end

