-- ==== Sys2Proof/Laws/State.lean ====
section
/-!
SUPPORT. One lemma per field per update of the state, true by unfolding, so that no later proof unfolds
a record update; and the fields of the state after reset.
-/
namespace Sys2Proof.Machine

variable (s : State)

@[simp] theorem State.emit_args (o : Output) : (s.emit o).args = s.args := rfl
@[simp] theorem State.emit_flags (o : Output) : (s.emit o).flags = s.flags := rfl
@[simp] theorem State.emit_ports (o : Output) : (s.emit o).ports = s.ports := rfl
@[simp] theorem State.emit_unitPorts (o : Output) : (s.emit o).unitPorts = s.unitPorts := rfl
@[simp] theorem State.emit_pending (o : Output) : (s.emit o).pending = s.pending := rfl
@[simp] theorem State.emit_outputs (o : Output) : (s.emit o).outputs = s.outputs ++ [o] := rfl
@[simp] theorem State.emit_reads (o : Output) : (s.emit o).reads = s.reads := rfl
@[simp] theorem State.emit_faults (o : Output) : (s.emit o).faults = s.faults := rfl
@[simp] theorem State.emit_refusals (o : Output) : (s.emit o).refusals = s.refusals := rfl

@[simp] theorem State.signal_args (F : FlagWord) : (s.signal F).args = s.args := rfl
@[simp] theorem State.signal_flags (F : FlagWord) : (s.signal F).flags = s.flags ||| F := rfl
@[simp] theorem State.signal_ports (F : FlagWord) : (s.signal F).ports = s.ports := rfl
@[simp] theorem State.signal_unitPorts (F : FlagWord) : (s.signal F).unitPorts = s.unitPorts := rfl
@[simp] theorem State.signal_pending (F : FlagWord) : (s.signal F).pending = s.pending := rfl
@[simp] theorem State.signal_outputs (F : FlagWord) : (s.signal F).outputs = s.outputs := rfl
@[simp] theorem State.signal_reads (F : FlagWord) : (s.signal F).reads = s.reads := rfl
@[simp] theorem State.signal_faults (F : FlagWord) : (s.signal F).faults = s.faults := rfl
@[simp] theorem State.signal_refusals (F : FlagWord) : (s.signal F).refusals = s.refusals := rfl

@[simp] theorem State.complete_args (r : Word × FlagWord) : (s.complete r).args = s.args := rfl
@[simp] theorem State.complete_flags (r : Word × FlagWord) : (s.complete r).flags = s.flags ||| r.2 := rfl
@[simp] theorem State.complete_ports (r : Word × FlagWord) : (s.complete r).ports = s.ports := rfl
@[simp] theorem State.complete_unitPorts (r : Word × FlagWord) : (s.complete r).unitPorts = s.unitPorts := rfl
@[simp] theorem State.complete_pending (r : Word × FlagWord) : (s.complete r).pending = s.pending := rfl
@[simp] theorem State.complete_outputs (r : Word × FlagWord) : (s.complete r).outputs = s.outputs ++ [.res r.1] := rfl
@[simp] theorem State.complete_reads (r : Word × FlagWord) : (s.complete r).reads = s.reads := rfl
@[simp] theorem State.complete_faults (r : Word × FlagWord) : (s.complete r).faults = s.faults := rfl
@[simp] theorem State.complete_refusals (r : Word × FlagWord) : (s.complete r).refusals = s.refusals := rfl

@[simp] theorem State.recordFault_args (r : Fault) : (s.recordFault r).args = s.args := rfl
@[simp] theorem State.recordFault_flags (r : Fault) : (s.recordFault r).flags = s.flags := rfl
@[simp] theorem State.recordFault_ports (r : Fault) : (s.recordFault r).ports = s.ports := rfl
@[simp] theorem State.recordFault_unitPorts (r : Fault) : (s.recordFault r).unitPorts = s.unitPorts := rfl
@[simp] theorem State.recordFault_pending (r : Fault) : (s.recordFault r).pending = s.pending := rfl
@[simp] theorem State.recordFault_outputs (r : Fault) : (s.recordFault r).outputs = s.outputs := rfl
@[simp] theorem State.recordFault_reads (r : Fault) : (s.recordFault r).reads = s.reads := rfl
@[simp] theorem State.recordFault_faults (r : Fault) : (s.recordFault r).faults = s.faults ++ [r] := rfl
@[simp] theorem State.recordFault_refusals (r : Fault) : (s.recordFault r).refusals = s.refusals := rfl

@[simp] theorem State.recordRefusal_args (r : Refusal) : (s.recordRefusal r).args = s.args := rfl
@[simp] theorem State.recordRefusal_flags (r : Refusal) : (s.recordRefusal r).flags = s.flags := rfl
@[simp] theorem State.recordRefusal_ports (r : Refusal) : (s.recordRefusal r).ports = s.ports := rfl
@[simp] theorem State.recordRefusal_unitPorts (r : Refusal) : (s.recordRefusal r).unitPorts = s.unitPorts := rfl
@[simp] theorem State.recordRefusal_pending (r : Refusal) : (s.recordRefusal r).pending = s.pending := rfl
@[simp] theorem State.recordRefusal_outputs (r : Refusal) : (s.recordRefusal r).outputs = s.outputs := rfl
@[simp] theorem State.recordRefusal_reads (r : Refusal) : (s.recordRefusal r).reads = s.reads := rfl
@[simp] theorem State.recordRefusal_faults (r : Refusal) : (s.recordRefusal r).faults = s.faults := rfl
@[simp] theorem State.recordRefusal_refusals (r : Refusal) : (s.recordRefusal r).refusals = s.refusals ++ [r] := rfl

@[simp] theorem State.present_args (p : Ports) : (s.present p).args = s.args := rfl
@[simp] theorem State.present_flags (p : Ports) : (s.present p).flags = s.flags := rfl
@[simp] theorem State.present_ports (p : Ports) : (s.present p).ports = p := rfl
@[simp] theorem State.present_unitPorts (p : Ports) : (s.present p).unitPorts = s.unitPorts := rfl
@[simp] theorem State.present_pending (p : Ports) : (s.present p).pending = s.pending := rfl
@[simp] theorem State.present_outputs (p : Ports) : (s.present p).outputs = s.outputs := rfl
@[simp] theorem State.present_reads (p : Ports) : (s.present p).reads = s.reads := rfl
@[simp] theorem State.present_faults (p : Ports) : (s.present p).faults = s.faults := rfl
@[simp] theorem State.present_refusals (p : Ports) : (s.present p).refusals = s.refusals := rfl

@[simp] theorem State.presentUnit_args (u : UnitPorts) : (s.presentUnit u).args = s.args := rfl
@[simp] theorem State.presentUnit_flags (u : UnitPorts) : (s.presentUnit u).flags = s.flags := rfl
@[simp] theorem State.presentUnit_ports (u : UnitPorts) : (s.presentUnit u).ports = s.ports := rfl
@[simp] theorem State.presentUnit_unitPorts (u : UnitPorts) : (s.presentUnit u).unitPorts = u := rfl
@[simp] theorem State.presentUnit_pending (u : UnitPorts) : (s.presentUnit u).pending = s.pending := rfl
@[simp] theorem State.presentUnit_outputs (u : UnitPorts) : (s.presentUnit u).outputs = s.outputs := rfl
@[simp] theorem State.presentUnit_reads (u : UnitPorts) : (s.presentUnit u).reads = s.reads := rfl
@[simp] theorem State.presentUnit_faults (u : UnitPorts) : (s.presentUnit u).faults = s.faults := rfl
@[simp] theorem State.presentUnit_refusals (u : UnitPorts) : (s.presentUnit u).refusals = s.refusals := rfl

@[simp] theorem State.writeFlags_args (mask value : FlagWord) : (s.writeFlags mask value).args = s.args := rfl
@[simp] theorem State.writeFlags_flags (mask value : FlagWord) : (s.writeFlags mask value).flags = (s.flags &&& ~~~mask) ||| (value &&& mask) := rfl
@[simp] theorem State.writeFlags_ports (mask value : FlagWord) : (s.writeFlags mask value).ports = s.ports := rfl
@[simp] theorem State.writeFlags_unitPorts (mask value : FlagWord) : (s.writeFlags mask value).unitPorts = s.unitPorts := rfl
@[simp] theorem State.writeFlags_pending (mask value : FlagWord) : (s.writeFlags mask value).pending = s.pending := rfl
@[simp] theorem State.writeFlags_outputs (mask value : FlagWord) : (s.writeFlags mask value).outputs = s.outputs := rfl
@[simp] theorem State.writeFlags_reads (mask value : FlagWord) : (s.writeFlags mask value).reads = s.reads := rfl
@[simp] theorem State.writeFlags_faults (mask value : FlagWord) : (s.writeFlags mask value).faults = s.faults := rfl
@[simp] theorem State.writeFlags_refusals (mask value : FlagWord) : (s.writeFlags mask value).refusals = s.refusals := rfl

@[simp] theorem State.readFlags_args : (s.readFlags).args = s.args := rfl
@[simp] theorem State.readFlags_flags : (s.readFlags).flags = s.flags := rfl
@[simp] theorem State.readFlags_ports : (s.readFlags).ports = s.ports := rfl
@[simp] theorem State.readFlags_unitPorts : (s.readFlags).unitPorts = s.unitPorts := rfl
@[simp] theorem State.readFlags_pending : (s.readFlags).pending = s.pending := rfl
@[simp] theorem State.readFlags_outputs : (s.readFlags).outputs = s.outputs := rfl
@[simp] theorem State.readFlags_reads : (s.readFlags).reads = s.reads ++ [s.flags] := rfl
@[simp] theorem State.readFlags_faults : (s.readFlags).faults = s.faults := rfl
@[simp] theorem State.readFlags_refusals : (s.readFlags).refusals = s.refusals := rfl

@[simp] theorem State.withPending_args (l : List Request) : (s.withPending l).args = s.args := rfl
@[simp] theorem State.withPending_flags (l : List Request) : (s.withPending l).flags = s.flags := rfl
@[simp] theorem State.withPending_ports (l : List Request) : (s.withPending l).ports = s.ports := rfl
@[simp] theorem State.withPending_unitPorts (l : List Request) : (s.withPending l).unitPorts = s.unitPorts := rfl
@[simp] theorem State.withPending_pending (l : List Request) : (s.withPending l).pending = l := rfl
@[simp] theorem State.withPending_outputs (l : List Request) : (s.withPending l).outputs = s.outputs := rfl
@[simp] theorem State.withPending_reads (l : List Request) : (s.withPending l).reads = s.reads := rfl
@[simp] theorem State.withPending_faults (l : List Request) : (s.withPending l).faults = s.faults := rfl
@[simp] theorem State.withPending_refusals (l : List Request) : (s.withPending l).refusals = s.refusals := rfl

@[simp] theorem State.resetWith_args (a : ModelArgs) : (State.resetWith a).args = a := rfl
@[simp] theorem State.resetWith_flags (a : ModelArgs) : (State.resetWith a).flags = a.flagsInit := rfl
@[simp] theorem State.resetWith_ports (a : ModelArgs) : (State.resetWith a).ports = Ports.reset := rfl
@[simp] theorem State.resetWith_unitPorts (a : ModelArgs) : (State.resetWith a).unitPorts = UnitPorts.reset := rfl
@[simp] theorem State.resetWith_pending (a : ModelArgs) : (State.resetWith a).pending = [] := rfl
@[simp] theorem State.resetWith_outputs (a : ModelArgs) : (State.resetWith a).outputs = [] := rfl
@[simp] theorem State.resetWith_reads (a : ModelArgs) : (State.resetWith a).reads = [] := rfl
@[simp] theorem State.resetWith_faults (a : ModelArgs) : (State.resetWith a).faults = [] := rfl
@[simp] theorem State.resetWith_refusals (a : ModelArgs) : (State.resetWith a).refusals = [] := rfl

end Sys2Proof.Machine
end

