-- ==== Sys2Proof/Laws/Operands.lean ====
section
/-!
SUPPORT. One specification per function of Machine/Operands.lean: digit counts, bit lengths, clamping,
scaling, floor of the logarithm, trailing zeros.
-/
namespace Sys2Proof.Machine

/-- `n < 10^digits(n)` (R10). -/
theorem lt_pow_digits (n : Nat) : n < 10 ^ digits n := Nat.lt_pow_succ_log_self (by decide) n

/-- `10^(digits(n) - 1) ≤ n` for `n ≥ 1` (R10). -/
theorem pow_digits_le (n : Nat) (h : n ≠ 0) : 10 ^ (digits n - 1) ≤ n := Nat.pow_log_le_self 10 h

theorem digits_pos (n : Nat) : 1 ≤ digits n := Nat.succ_le_succ (Nat.zero_le _)

/-- `digits(n) ≤ d` exactly when `n < 10^d`, for `d ≥ 1`: the definition of R10. -/
theorem digits_le_iff (n d : Nat) (hd : 1 ≤ d) : digits n ≤ d ↔ n < 10 ^ d := by
  rcases Nat.eq_zero_or_pos n with rfl | hn
  · simp [digits, hd]
  · simp only [digits]
    have := Nat.log_lt_iff_lt_pow (b := 10) (by decide) (x := d) (by omega : n ≠ 0)
    omega

/-- The digit count is the one `d` with `10^(d-1) ≤ n < 10^d`. -/
theorem digits_unique (n d : Nat) (hd : 1 ≤ d) (h1 : 10 ^ (d - 1) ≤ n) (h2 : n < 10 ^ d) : digits n = d := by
  have hle := (digits_le_iff n d hd).mpr h2
  rcases Nat.lt_or_ge (digits n) d with h | h
  · have : n < 10 ^ (d - 1) :=
      lt_of_lt_of_le (lt_pow_digits n) (Nat.pow_le_pow_right (by decide) (by omega))
    omega
  · omega

/-- `n < 2^bitlen(n)` (R10). -/
theorem lt_pow_bitlen (n : Nat) : n < 2 ^ bitlen n := Nat.lt_pow_succ_log_self (by decide) n

/-- `2^(bitlen(n) - 1) ≤ n` for `n ≥ 1` (R10). -/
theorem pow_bitlen_le (n : Nat) (h : n ≠ 0) : 2 ^ (bitlen n - 1) ≤ n := Nat.pow_log_le_self 2 h

theorem bitlen_pos (n : Nat) : 1 ≤ bitlen n := Nat.succ_le_succ (Nat.zero_le _)

theorem bitlen_le_of_lt (n b : Nat) (hb : 1 ≤ b) (h : n < 2 ^ b) : bitlen n ≤ b := by
  rcases Nat.eq_zero_or_pos n with rfl | hn
  · simp [bitlen, hb]
  · simp only [bitlen]
    have := (Nat.log_lt_iff_lt_pow (b := 2) (by decide) (x := b) (by omega : n ≠ 0)).mpr h
    omega

/-- A clamped value lies in its range, when the range is not empty. -/
theorem clamp_mem (v lo hi : Int) (h : lo ≤ hi) : lo ≤ clamp v lo hi ∧ clamp v lo hi ≤ hi := by
  unfold clamp; omega

/-- A clamped value is the value of the range closest to the one clamped. -/
theorem clamp_closest (v lo hi x : Int) (h1 : lo ≤ x) (h2 : x ≤ hi) :
    |clamp v lo hi - v| ≤ |x - v| := by
  unfold clamp
  rcases le_total v lo with h | h <;> rcases le_total v hi with h' | h' <;>
    simp only [abs, max_def, min_def] <;> (repeat' split) <;> omega

/-- `v / 10^q` as a fraction (R10). -/
theorem atExp_value (v : Magnitude) (q : Int) (hd : v.den ≠ 0) :
    ((atExp v q).1 : ℚ) / (atExp v q).2 = magnitudeValue v / (10 : ℚ) ^ q := by
  have h10 : (10 : ℚ) ≠ 0 := by norm_num
  have hden : (v.den : ℚ) ≠ 0 := by exact_mod_cast hd
  simp only [atExp, magnitudeValue, Nat.cast_mul, Nat.cast_pow, Nat.cast_ofNat]
  rcases le_total q v.exp with h | h
  · have e1 : ((v.exp - q).toNat : Int) = v.exp - q := Int.toNat_of_nonneg (by omega)
    have e2 : (q - v.exp).toNat = 0 := by omega
    rw [e2, ← zpow_natCast, e1, zpow_sub₀ h10]
    field_simp
  · have e1 : ((q - v.exp).toNat : Int) = q - v.exp := Int.toNat_of_nonneg (by omega)
    have e2 : (v.exp - q).toNat = 0 := by omega
    rw [e2, ← zpow_natCast (10 : ℚ) (q - v.exp).toNat, e1, zpow_sub₀ h10]
    field_simp

theorem atExp_den_ne_zero (v : Magnitude) (q : Int) (hd : v.den ≠ 0) : (atExp v q).2 ≠ 0 := by
  simp [atExp, hd]

theorem atExp_num_ne_zero (v : Magnitude) (q : Int) (hn : v.num ≠ 0) : (atExp v q).1 ≠ 0 := by
  simp [atExp, hn]

theorem magnitudeValue_pos (v : Magnitude) (hn : v.num ≠ 0) (hd : v.den ≠ 0) : 0 < magnitudeValue v := by
  have h1 : (0 : ℚ) < v.num := by exact_mod_cast Nat.pos_of_ne_zero hn
  have h2 : (0 : ℚ) < v.den := by exact_mod_cast Nat.pos_of_ne_zero hd
  unfold magnitudeValue; positivity

/-- `10^L ≤ v < 10^(L+1)` for `L = floor_log10(v)` (R10). -/
theorem floorLog10_spec (v : Magnitude) (hn : v.num ≠ 0) (hd : v.den ≠ 0) :
    (10 : ℚ) ^ floorLog10 v ≤ magnitudeValue v ∧ magnitudeValue v < (10 : ℚ) ^ (floorLog10 v + 1) := by
  have h10 : (10 : ℚ) ≠ 0 := by norm_num
  have hp : ∀ k : Int, (0 : ℚ) < (10 : ℚ) ^ k := fun k => by positivity
  have hdq : (0 : ℚ) < v.den := by exact_mod_cast Nat.pos_of_ne_zero hd
  have hnq : (0 : ℚ) < v.num := by exact_mod_cast Nat.pos_of_ne_zero hn
  have n1 : (10 : ℚ) ^ ((digits v.num : Int) - 1) ≤ v.num := by
    have := pow_digits_le v.num hn
    rw [show ((digits v.num : Int) - 1) = ((digits v.num - 1 : Nat) : Int) by have := digits_pos v.num; omega, zpow_natCast]
    exact_mod_cast this
  have n2 : (v.num : ℚ) < (10 : ℚ) ^ (digits v.num : Int) := by
    rw [zpow_natCast]; exact_mod_cast lt_pow_digits v.num
  have d1 : (10 : ℚ) ^ ((digits v.den : Int) - 1) ≤ v.den := by
    have := pow_digits_le v.den hd
    rw [show ((digits v.den : Int) - 1) = ((digits v.den - 1 : Nat) : Int) by have := digits_pos v.den; omega, zpow_natCast]
    exact_mod_cast this
  have d2 : (v.den : ℚ) < (10 : ℚ) ^ (digits v.den : Int) := by
    rw [zpow_natCast]; exact_mod_cast lt_pow_digits v.den
  set d : Int := (digits v.num : Int) - digits v.den with hdd
  have hv : magnitudeValue v = (v.num / v.den : ℚ) * (10 : ℚ) ^ v.exp := rfl
  have lo : (10 : ℚ) ^ (d - 1) ≤ (v.num / v.den : ℚ) := by
    rw [le_div_iff₀ hdq]
    calc (10 : ℚ) ^ (d - 1) * v.den ≤ (10 : ℚ) ^ (d - 1) * (10 : ℚ) ^ (digits v.den : Int) :=
          mul_le_mul_of_nonneg_left d2.le (hp _).le
      _ = (10 : ℚ) ^ ((digits v.num : Int) - 1) := by rw [← zpow_add₀ h10]; congr 1; omega
      _ ≤ v.num := n1
  have hi : (v.num / v.den : ℚ) < (10 : ℚ) ^ (d + 1) := by
    rw [div_lt_iff₀ hdq]
    calc (v.num : ℚ) < (10 : ℚ) ^ (digits v.num : Int) := n2
      _ = (10 : ℚ) ^ (d + 1) * (10 : ℚ) ^ ((digits v.den : Int) - 1) := by
          rw [← zpow_add₀ h10]; congr 1; omega
      _ ≤ (10 : ℚ) ^ (d + 1) * v.den := mul_le_mul_of_nonneg_left d1 (hp _).le
  have key : ((atExp ⟨v.num, v.den, 0⟩ d).2 ≤ (atExp ⟨v.num, v.den, 0⟩ d).1) ↔
      (10 : ℚ) ^ d ≤ (v.num / v.den : ℚ) := by
    have hval := atExp_value ⟨v.num, v.den, 0⟩ d hd
    have hpos : (0 : ℚ) < ((atExp ⟨v.num, v.den, 0⟩ d).2 : ℚ) := by
      exact_mod_cast Nat.pos_of_ne_zero (atExp_den_ne_zero ⟨v.num, v.den, 0⟩ d hd)
    have hmv : magnitudeValue ⟨v.num, v.den, 0⟩ = (v.num / v.den : ℚ) := by simp [magnitudeValue]
    rw [hmv] at hval
    rw [← Nat.cast_le (α := ℚ), ← one_le_div hpos, hval, one_le_div (hp d)]
  have hL : floorLog10 v = if (10 : ℚ) ^ d ≤ (v.num / v.den : ℚ) then v.exp + d else v.exp + d - 1 := by
    simp only [floorLog10, ← hdd, key]
  rw [hL, hv]
  split
  · rename_i h
    constructor
    · rw [add_comm, zpow_add₀ h10]; exact mul_le_mul_of_nonneg_right h (hp _).le
    · rw [show v.exp + d + 1 = (d + 1) + v.exp by ring, zpow_add₀ h10]
      exact mul_lt_mul_of_pos_right hi (hp _)
  · rename_i h
    constructor
    · rw [show v.exp + d - 1 = (d - 1) + v.exp by ring, zpow_add₀ h10]
      exact mul_le_mul_of_nonneg_right lo (hp _).le
    · rw [show v.exp + d - 1 + 1 = d + v.exp by ring, zpow_add₀ h10]
      exact mul_lt_mul_of_pos_right (not_le.mp h) (hp _)

/-- The floor of the logarithm is the one `L` with `10^L ≤ v < 10^(L+1)`. -/
theorem floorLog10_unique (v : Magnitude) (hn : v.num ≠ 0) (hd : v.den ≠ 0) (L : Int)
    (h1 : (10 : ℚ) ^ L ≤ magnitudeValue v) (h2 : magnitudeValue v < (10 : ℚ) ^ (L + 1)) :
    floorLog10 v = L := by
  obtain ⟨s1, s2⟩ := floorLog10_spec v hn hd
  have a := (zpow_lt_zpow_iff_right₀ (by norm_num : (1 : ℚ) < 10)).mp (lt_of_le_of_lt s1 h2)
  have b := (zpow_lt_zpow_iff_right₀ (by norm_num : (1 : ℚ) < 10)).mp (lt_of_le_of_lt h1 s2)
  omega

/-- Two magnitudes of one value have one floor of the logarithm. -/
theorem floorLog10_congr (v w : Magnitude) (hn : v.num ≠ 0) (hd : v.den ≠ 0) (hn' : w.num ≠ 0)
    (hd' : w.den ≠ 0) (h : magnitudeValue v = magnitudeValue w) : floorLog10 v = floorLog10 w := by
  obtain ⟨s1, s2⟩ := floorLog10_spec w hn' hd'
  exact floorLog10_unique v hn hd _ (h ▸ s1) (h ▸ s2)

theorem trailingZerosFuel_dvd (f n : Nat) : 10 ^ trailingZerosFuel f n ∣ n := by
  induction f generalizing n with
  | zero => simp [trailingZerosFuel]
  | succ f ih =>
    simp only [trailingZerosFuel]
    split
    · rename_i h
      rw [pow_succ]
      obtain ⟨m, rfl⟩ := Nat.dvd_of_mod_eq_zero h
      rw [Nat.mul_div_cancel_left _ (by decide), mul_comm]
      exact Nat.mul_dvd_mul_left 10 (ih m)
    · simp

theorem trailingZerosFuel_max (f n j : Nat) (hn : n ≠ 0) (hf : n < 10 ^ f) (h : 10 ^ j ∣ n) :
    j ≤ trailingZerosFuel f n := by
  induction f generalizing n j with
  | zero => simp at hf; exact absurd hf hn
  | succ f ih =>
    simp only [trailingZerosFuel]
    cases j with
    | zero => simp
    | succ j =>
      have h10 : 10 ∣ n := dvd_trans (Dvd.intro_left _ (pow_succ 10 j).symm) h
      rw [if_pos (Nat.mod_eq_zero_of_dvd h10)]
      obtain ⟨m, rfl⟩ := h10
      rw [Nat.mul_div_cancel_left _ (by decide)]
      have hm : m ≠ 0 := by rintro rfl; simp at hn
      have hlt : m < 10 ^ f := by rw [pow_succ] at hf; omega
      have hd : 10 ^ j ∣ m := by
        rw [pow_succ, mul_comm] at h
        exact Nat.dvd_of_mul_dvd_mul_left (by decide) h
      have := ih m j hm hlt hd
      omega

/-- `10^j` divides `n` exactly when `j` is at most its number of trailing zeros. -/
theorem pow_dvd_iff_le_trailingZeros (n j : Nat) (hn : n ≠ 0) : 10 ^ j ∣ n ↔ j ≤ trailingZeros n := by
  constructor
  · exact trailingZerosFuel_max _ n j hn (lt_pow_digits n)
  · intro h; exact dvd_trans (pow_dvd_pow 10 h) (trailingZerosFuel_dvd _ n)

/-- The sign of a packed word (R171). -/
theorem packWord_sign (s : Bool) (E Cf : Nat) : (packWord s E Cf).getLsbD 127 = s := by
  simp only [packWord, BitVec.getLsbD_append]
  simp

/-- The exponent field of a packed word (R71, R171). -/
theorem packWord_exponent (s : Bool) (E Cf : Nat) :
    (packWord s E Cf).extractLsb' 113 14 = BitVec.ofNat 14 E := by
  ext i hi
  simp only [packWord, BitVec.getElem_extractLsb', BitVec.getLsbD_append]
  simp [hi]

/-- The coefficient field of a packed word (R71, R171). -/
theorem packWord_coefficient (s : Bool) (E Cf : Nat) :
    (packWord s E Cf).extractLsb' 0 113 = BitVec.ofNat 113 Cf := by
  ext i hi
  simp only [packWord, BitVec.getElem_extractLsb', BitVec.getLsbD_append]
  simp [hi]

theorem packWord_toNat (s : Bool) (E Cf : Nat) (hE : E < 2 ^ 14) (hC : Cf < 2 ^ 113) :
    (packWord s E Cf).toNat = s.toNat * 2 ^ 127 + E * 2 ^ 113 + Cf := by
  simp only [packWord, BitVec.toNat_append, BitVec.toNat_ofNat, BitVec.toNat_ofBool]
  rw [Nat.mod_eq_of_lt hE, Nat.mod_eq_of_lt hC, ← Nat.shiftLeft_add_eq_or_of_lt hC, ← Nat.shiftLeft_add_eq_or_of_lt hE]
  simp only [Nat.shiftLeft_eq]; ring

/-- A field that holds bits of the exponent of an in-range packed word (R71). -/
theorem packWord_steering (s : Bool) (E Cf : Nat) (hE : E ≤ Config.EBMAX) (hC : Cf ≤ Config.CMAX) :
    (packWord s E Cf).extractLsb 126 122 ≠ 0b11111#5 ∧ (packWord s E Cf).extractLsb 126 122 ≠ 0b11110#5 ∧
      (packWord s E Cf).extractLsb 126 125 ≠ 0b11#2 := by
  simp only [Config.EBMAX, Config.CMAX] at hE hC
  have h := packWord_toNat s E Cf (by omega) (by omega)
  refine ⟨fun e => ?_, fun e => ?_, fun e => ?_⟩ <;>
    · have e' := congrArg BitVec.toNat e
      simp only [BitVec.extractLsb_toNat, Nat.shiftRight_eq_div_pow, h] at e'
      cases s <;> simp at e' <;> omega

/-- Unpacking a packed word gives its fields back (R173). -/
theorem unpack_packWord (limit : Nat) (s : Bool) (E Cf : Nat) (hE : E ≤ Config.EBMAX)
    (hC : Cf ≤ Config.CMAX) :
    unpack limit (packWord s E Cf) =
      { cls := if Cf = 0 then .zero else .finite, s := s, E := BitVec.ofNat 14 E,
        Cf := BitVec.ofNat 113 Cf, PL := 0 } := by
  obtain ⟨h1, h2, h3⟩ := packWord_steering s E Cf hE hC
  have hn : (BitVec.ofNat 113 Cf).toNat = Cf := by
    rw [BitVec.toNat_ofNat, Nat.mod_eq_of_lt (by simp only [Config.CMAX] at hC; omega)]
  have hz : BitVec.ofNat 113 Cf = 0 ↔ Cf = 0 := by
    rw [← BitVec.toNat_inj, hn]; rfl
  simp only [unpack, if_neg h1, if_neg h2, if_neg h3, packWord_sign, packWord_exponent,
    packWord_coefficient, hn, if_neg (not_lt.mpr hC), hz]

/-- A packed word is one the block emits (R75). -/
theorem packWord_canonical (limit : Nat) (s : Bool) (E Cf : Nat) (hE : E ≤ Config.EBMAX)
    (hC : Cf ≤ Config.CMAX) : canonicalWord limit (packWord s E Cf) = true := by
  obtain ⟨-, -, h3⟩ := packWord_steering s E Cf hE hC
  have hn : (BitVec.ofNat 113 Cf).toNat = Cf := by
    rw [BitVec.toNat_ofNat, Nat.mod_eq_of_lt (by simp only [Config.CMAX] at hC; omega)]
  simp [canonicalWord, packWord_coefficient, hn, hC, h3]

theorem infWord_canonical (limit : Nat) (s : Bool) : canonicalWord limit (infWord s) = true := by
  have : (infWord s).getLsbD 127 = s := by cases s <;> decide
  simp only [canonicalWord, this, decide_true, Bool.or_true, Bool.true_or]

theorem qnanWord_payload (s : Bool) (PL : BitVec 110) :
    (qnanWord s PL).extractLsb' 0 110 = PL := by
  ext i hi
  simp only [qnanWord, BitVec.getElem_extractLsb', BitVec.getLsbD_append]
  simp [hi]

theorem qnanWord_sign (s : Bool) (PL : BitVec 110) : (qnanWord s PL).getLsbD 127 = s := by
  simp only [qnanWord, BitVec.getLsbD_append]
  simp

theorem qnanWord_canonical (limit : Nat) (s : Bool) (PL : BitVec 110) (h : PL.toNat ≤ limit) :
    canonicalWord limit (qnanWord s PL) = true := by
  simp only [canonicalWord, qnanWord_sign, qnanWord_payload, decide_true, decide_eq_true h,
    Bool.and_true, Bool.or_true]

/-- Every record the decoder produces is well formed: no pattern fails (R89, R160, R169). -/
theorem unpack_wf (limit : Nat) (w : Word) : Record.wf limit (unpack limit w) = true := by
  simp only [unpack]
  split
  · split <;> split <;> simp_all [Record.wf]
  · split
    · simp [Record.wf]
    · have bound : ∀ l : Nat, (l = 111 ∧ w.extractLsb 126 125 = 0b11#2) ∨
          (l = 113 ∧ w.extractLsb 126 125 ≠ 0b11#2) → (w.extractLsb' l 14).toNat ≤ Config.EBMAX := by
        rename_i h1 h2
        have a := w.isLt
        have n1 : ¬ (w.extractLsb 126 122).toNat = 31 := fun h => h1 (BitVec.eq_of_toNat_eq h)
        have n2 : ¬ (w.extractLsb 126 122).toNat = 30 := fun h => h2 (BitVec.eq_of_toNat_eq h)
        rintro l (⟨rfl, h3⟩ | ⟨rfl, h3⟩)
        · have e3 := congrArg BitVec.toNat h3
          simp only [BitVec.extractLsb'_toNat, BitVec.extractLsb_toNat, Nat.shiftRight_eq_div_pow,
            Config.EBMAX] at *
          simp at e3 n1 n2 ⊢
          omega
        · have e3 : ¬ (w.extractLsb 126 125).toNat = 3 := fun h => h3 (BitVec.eq_of_toNat_eq h)
          simp only [BitVec.extractLsb'_toNat, BitVec.extractLsb_toNat, Nat.shiftRight_eq_div_pow,
            Config.EBMAX] at *
          simp at e3 n1 n2 ⊢
          omega
      split
      · rename_i h3
        simp only [Record.wf, decide_eq_true (bound 111 (.inl ⟨rfl, h3⟩)), decide_true, Bool.and_self]
      · rename_i h3
        have hE := decide_eq_true (bound 113 (.inr ⟨rfl, h3⟩))
        by_cases hc : (w.extractLsb' 0 113).toNat > Config.CMAX
        · simp only [if_pos hc, if_true, Record.wf, hE, decide_true, Bool.and_self]
        · simp only [if_neg hc]
          by_cases hz : w.extractLsb' 0 113 = 0
          · simp only [if_pos hz, Record.wf, hE, decide_eq_true hz, decide_true, Bool.and_self]
          · simp only [if_neg hz, Record.wf, hE, decide_eq_true (not_lt.mp hc), decide_eq_true hz,
              decide_true, Bool.and_self]

end Sys2Proof.Machine
end

