-- ==== Sys2Proof/Laws/Rounding.lean ====
section
/-!
SUPPORT. What rounding does, once per function: `RoundInt` rounds as its mode says and depends on the
rational only; what `RoundToFormat` can answer.
-/
namespace Sys2Proof.Machine

theorem divMod_cast (n d : Nat) (hd : d ≠ 0) :
    ∃ f : ℚ, (n : ℚ) / d = (n / d : Nat) + f ∧ 0 ≤ f ∧ f < 1 ∧ f * d = (n % d : Nat) := by
  have hdq : (0 : ℚ) < d := by exact_mod_cast Nat.pos_of_ne_zero hd
  refine ⟨((n % d : Nat) : ℚ) / d, ?_, by positivity, ?_, by field_simp⟩
  · rw [div_eq_iff hdq.ne', add_mul, div_mul_cancel₀ _ hdq.ne']
    exact_mod_cast (Nat.div_add_mod' n d).symm
  · rw [div_lt_one hdq]; exact_mod_cast Nat.mod_lt n (Nat.pos_of_ne_zero hd)

/-- `RoundInt` rounds as its mode says (R211). -/
theorem roundInt_rounds (s : Bool) (rm : Rm) (n d : Nat) (hd : d ≠ 0) :
    RoundsTo s rm ((n : ℚ) / d) (roundInt s rm n d) := by
  obtain ⟨f, hf, f0, f1, fd⟩ := divMod_cast n d hd
  have hdq : (0 : ℚ) < d := by exact_mod_cast Nat.pos_of_ne_zero hd
  rw [hf]
  simp only [roundInt]
  generalize n / d = F at *
  generalize n % d = R at *
  have hR0 : R = 0 ↔ f = 0 := by
    rw [← Nat.cast_eq_zero (R := ℚ), ← fd, mul_eq_zero]; simp [hdq.ne']
  have h2lt : 2 * R < d ↔ f < 1 / 2 := by
    rw [← Nat.cast_lt (α := ℚ), Nat.cast_mul, ← fd]; push_cast
    constructor <;> intro h <;> nlinarith
  have h2gt : d < 2 * R ↔ 1 / 2 < f := by
    rw [← Nat.cast_lt (α := ℚ), Nat.cast_mul, ← fd]; push_cast
    constructor <;> intro h <;> nlinarith
  have aF : |(F : ℚ) + f - F| = f := by rw [add_sub_cancel_left, abs_of_nonneg f0]
  have aF1 : |(F : ℚ) + f - (F + 1 : Nat)| = 1 - f := by
    rw [abs_of_nonpos (by push_cast; linarith)]; push_cast; ring
  simp only [hR0, h2lt, h2gt]
  by_cases h0 : f = 0
  · subst h0
    have a0 : |(F : ℚ) + 0 - F| = 0 := by simp
    cases rm <;> cases s <;> simp [RoundsTo]
  · have hp : 0 < f := lt_of_le_of_ne f0 (Ne.symm h0)
    simp only [if_neg h0]
    cases rm
    case rn =>
      simp only [RoundsTo]
      split_ifs with g1 g2 g3
      · rw [aF]; exact ⟨g1.le, fun h => absurd h g1.ne⟩
      · rw [aF1]; exact ⟨by linarith, fun h => by linarith⟩
      · rw [aF]; exact ⟨by linarith, fun _ => g3⟩
      · rw [aF1]; exact ⟨by linarith, fun _ => by omega⟩
    case ra =>
      simp only [RoundsTo]
      split_ifs with g1
      · rw [aF]; exact ⟨g1.le, fun h => absurd h g1.ne⟩
      · rw [aF1]; exact ⟨by linarith, fun _ => by push_cast; linarith⟩
    all_goals
      cases s <;> simp only [RoundsTo, Bool.false_eq_true, if_true, if_false] <;> push_cast <;>
        constructor <;> linarith

/-- A mode rounds a value to one integer. -/
theorem RoundsTo_unique (s : Bool) (rm : Rm) (N : ℚ) (C D : Nat) (h1 : RoundsTo s rm N C)
    (h2 : RoundsTo s rm N D) : C = D := by
  have down : ∀ {C D : Nat}, (C : ℚ) ≤ N → N < C + 1 → (D : ℚ) ≤ N → N < D + 1 → C = D := by
    intro C D a b c d
    have e : (C : ℚ) < D + 1 := lt_of_le_of_lt a d
    have f : (D : ℚ) < C + 1 := lt_of_le_of_lt c b
    norm_cast at e f; omega
  have up : ∀ {C D : Nat}, N ≤ (C : ℚ) → (C : ℚ) < N + 1 → N ≤ (D : ℚ) → (D : ℚ) < N + 1 → C = D := by
    intro C D a b c d
    have e : (C : ℚ) < D + 1 := by linarith
    have f : (D : ℚ) < C + 1 := by linarith
    norm_cast at e f; omega
  have near : ∀ {C D : Nat}, |N - C| ≤ 1 / 2 → |N - D| ≤ 1 / 2 → C < D →
      D = C + 1 ∧ |N - C| = 1 / 2 ∧ |N - D| = 1 / 2 ∧ (C : ℚ) < N ∧ N < D := by
    intro C D a b c
    obtain ⟨a1, a2⟩ := abs_le.mp a
    obtain ⟨b1, b2⟩ := abs_le.mp b
    have e : (D : ℚ) ≤ C + 1 := by linarith
    have e' : D = C + 1 := by norm_cast at e; omega
    subst e'
    push_cast at *
    have hN : N = C + 1 / 2 := by linarith
    refine ⟨rfl, ?_, ?_, by linarith, by linarith⟩
    · rw [hN, show (C : ℚ) + 1 / 2 - C = 1 / 2 by ring]; norm_num
    · rw [hN, show (C : ℚ) + 1 / 2 - (C + 1) = -(1 / 2) by ring]; norm_num
  cases rm
  case rn =>
    rcases lt_trichotomy C D with h | h | h
    · obtain ⟨e, p, q, _, _⟩ := near h1.1 h2.1 h
      have := h1.2 p; have := h2.2 q; omega
    · exact h
    · obtain ⟨e, p, q, _, _⟩ := near h2.1 h1.1 h
      have := h2.2 p; have := h1.2 q; omega
  case ra =>
    rcases lt_trichotomy C D with h | h | h
    · obtain ⟨e, p, q, l, _⟩ := near h1.1 h2.1 h
      have := h1.2 p; linarith
    · exact h
    · obtain ⟨e, p, q, l, _⟩ := near h2.1 h1.1 h
      have := h2.2 p; linarith
  case rz => exact down h1.1 h1.2 h2.1 h2.2
  case ru =>
    cases s
    · exact up h1.1 h1.2 h2.1 h2.2
    · exact down h1.1 h1.2 h2.1 h2.2
  case rd =>
    cases s
    · exact down h1.1 h1.2 h2.1 h2.2
    · exact up h1.1 h1.2 h2.1 h2.2

/-- `RoundInt` depends on the rational only (R211). -/
theorem roundInt_congr (s : Bool) (rm : Rm) (n d n' d' : Nat) (hd : d ≠ 0) (hd' : d' ≠ 0)
    (h : (n : ℚ) / d = n' / d') : roundInt s rm n d = roundInt s rm n' d' :=
  RoundsTo_unique s rm _ _ _ (roundInt_rounds s rm n d hd) (h ▸ roundInt_rounds s rm n' d' hd')

/-- Rounding an integer gives it back, in every mode. -/
theorem roundInt_of_dvd (s : Bool) (rm : Rm) (n d : Nat) (h : n % d = 0) :
    roundInt s rm n d = n / d := by simp [roundInt, h]

/-- `RoundInt` is the floor or, for a value that is no integer, the next integer (R211). -/
theorem roundInt_cases (s : Bool) (rm : Rm) (n d : Nat) :
    roundInt s rm n d = n / d ∨ (n % d ≠ 0 ∧ roundInt s rm n d = n / d + 1) := by
  by_cases h : n % d = 0
  · exact .inl (by simp [roundInt, h])
  · cases rm <;> cases s <;> simp only [roundInt, if_neg h] <;> (try split_ifs) <;> simp_all

/-- A value of at most an integer does not round above it. -/
theorem roundInt_le (s : Bool) (rm : Rm) (n d M : Nat) (h : n ≤ M * d) :
    roundInt s rm n d ≤ M := by
  have hF : n / d ≤ M := Nat.div_le_of_le_mul (by rw [mul_comm]; exact h)
  rcases roundInt_cases s rm n d with e | ⟨g, e⟩
  · omega
  · rcases Nat.lt_or_ge (n / d) M with hlt | hge
    · omega
    · have h1 := Nat.div_add_mod n d
      have h2 : M * d ≤ d * (n / d) := by rw [mul_comm]; exact Nat.mul_le_mul_left _ hge
      omega

/-- A value of at least an integer does not round below it. -/
theorem le_roundInt (s : Bool) (rm : Rm) (n d M : Nat) (hd : d ≠ 0) (h : M * d ≤ n) :
    M ≤ roundInt s rm n d := by
  have hF : M ≤ n / d := (Nat.le_div_iff_mul_le (Nat.pos_of_ne_zero hd)).mpr h
  rcases roundInt_cases s rm n d with e | ⟨_, e⟩ <;> omega

/-- A value rounded to a multiple of ten units rounds to the same in units of ten. -/
theorem RoundsTo_tenth (s : Bool) (rm : Rm) (N : ℚ) (C : Nat) (h : RoundsTo s rm N (10 * C)) :
    RoundsTo s rm (N / 10) C := by
  have down : ((10 * C : Nat) : ℚ) ≤ N ∧ N < (10 * C : Nat) + 1 → (C : ℚ) ≤ N / 10 ∧ N / 10 < C + 1 := by
    rintro ⟨a, b⟩; push_cast at *; constructor <;> linarith
  have up : N ≤ ((10 * C : Nat) : ℚ) ∧ ((10 * C : Nat) : ℚ) < N + 1 → N / 10 ≤ C ∧ (C : ℚ) < N / 10 + 1 := by
    rintro ⟨a, b⟩; push_cast at *; constructor <;> linarith
  have near : |N - (10 * C : Nat)| ≤ 1 / 2 → |N / 10 - C| < 1 / 2 := by
    intro a
    obtain ⟨a1, a2⟩ := abs_le.mp a
    push_cast at *
    rw [abs_lt]; constructor <;> linarith
  cases rm
  case rn => exact ⟨(near h.1).le, fun e => absurd e (near h.1).ne⟩
  case ra => exact ⟨(near h.1).le, fun e => absurd e (near h.1).ne⟩
  case rz => exact down h
  case ru => cases s; exacts [up h, down h]
  case rd => cases s; exacts [down h, up h]

theorem zpow_succ_ten (q : Int) : (10 : ℚ) ^ (q + 1) = 10 ^ q * 10 := by
  rw [zpow_add₀ (by norm_num), zpow_one]

/-- The kept digits of a value at its last kept exponent are fewer than `P + 1` (R212). -/
theorem atExp_lastKept_lt (v : Magnitude) (hn : v.num ≠ 0) (hd : v.den ≠ 0) :
    (atExp v (lastKept v)).1 < 10 ^ Config.P * (atExp v (lastKept v)).2 := by
  obtain ⟨-, s2⟩ := floorLog10_spec v hn hd
  have hv := atExp_value v (lastKept v) hd
  have hpos : (0 : ℚ) < ((atExp v (lastKept v)).2 : ℚ) := by
    exact_mod_cast Nat.pos_of_ne_zero (atExp_den_ne_zero v _ hd)
  have hq : (0 : ℚ) < (10 : ℚ) ^ lastKept v := by positivity
  have : magnitudeValue v / (10 : ℚ) ^ lastKept v < (10 : ℚ) ^ Config.P := by
    rw [div_lt_iff₀ hq, ← zpow_natCast, ← zpow_add₀ (by norm_num)]
    refine lt_of_lt_of_le s2 (zpow_le_zpow_right₀ (by norm_num) ?_)
    simp only [lastKept, Config.P, Config.QMIN]; omega
  rw [← hv, div_lt_iff₀ hpos] at this
  exact_mod_cast this

/-- At its last kept exponent a value that is not subnormal has `P` digits (R216). -/
theorem le_atExp_lastKept (v : Magnitude) (hn : v.num ≠ 0) (hd : v.den ≠ 0)
    (h : lastKept v ≠ Config.QMIN) :
    10 ^ (Config.P - 1) * (atExp v (lastKept v)).2 ≤ (atExp v (lastKept v)).1 := by
  obtain ⟨s1, -⟩ := floorLog10_spec v hn hd
  have hv := atExp_value v (lastKept v) hd
  have hpos : (0 : ℚ) < ((atExp v (lastKept v)).2 : ℚ) := by
    exact_mod_cast Nat.pos_of_ne_zero (atExp_den_ne_zero v _ hd)
  have hq : (0 : ℚ) < (10 : ℚ) ^ lastKept v := by positivity
  have : (10 : ℚ) ^ (Config.P - 1) ≤ magnitudeValue v / (10 : ℚ) ^ lastKept v := by
    rw [le_div_iff₀ hq, ← zpow_natCast, ← zpow_add₀ (by norm_num)]
    refine le_trans (zpow_le_zpow_right₀ (by norm_num) ?_) s1
    simp only [lastKept, Config.P, Config.QMIN] at *; omega
  rw [← hv, le_div_iff₀ hpos] at this
  exact_mod_cast this

theorem roundAt_cases (s : Bool) (rm : Rm) (v : Magnitude) (q0 : Int) :
    (roundInt s rm (atExp v q0).1 (atExp v q0).2 = 10 ^ Config.P ∧
        roundAt s rm v q0 = (10 ^ (Config.P - 1), q0 + 1)) ∨
      (roundInt s rm (atExp v q0).1 (atExp v q0).2 ≠ 10 ^ Config.P ∧
        roundAt s rm v q0 = (roundInt s rm (atExp v q0).1 (atExp v q0).2, q0)) := by
  simp only [roundAt]
  split
  · rename_i h; exact .inl ⟨h, rfl⟩
  · rename_i h; exact .inr ⟨h, rfl⟩

/-- Rounded at an exponent, a value is rounded as the mode says at the exponent it ends with. -/
theorem roundAt_rounds (s : Bool) (rm : Rm) (v : Magnitude) (q0 : Int) (hd : v.den ≠ 0) :
    RoundsTo s rm (magnitudeValue v / (10 : ℚ) ^ (roundAt s rm v q0).2) (roundAt s rm v q0).1 := by
  have h := roundInt_rounds s rm (atExp v q0).1 (atExp v q0).2 (atExp_den_ne_zero v q0 hd)
  rw [atExp_value v q0 hd] at h
  rcases roundAt_cases s rm v q0 with ⟨c, e⟩ | ⟨c, e⟩
  · rw [e]
    rw [c, show 10 ^ Config.P = 10 * 10 ^ (Config.P - 1) by norm_num] at h
    have := RoundsTo_tenth s rm _ _ h
    rwa [div_div, ← zpow_succ_ten] at this
  · rw [e]; exact h

/-- Rounding at the last kept exponent leaves at most `P` digits. -/
theorem roundAt_lastKept_le (s : Bool) (rm : Rm) (v : Magnitude) (hn : v.num ≠ 0) (hd : v.den ≠ 0) :
    (roundAt s rm v (lastKept v)).1 ≤ Config.CMAX := by
  have h := roundInt_le s rm _ _ _ (atExp_lastKept_lt v hn hd).le
  rcases roundAt_cases s rm v (lastKept v) with ⟨c, e⟩ | ⟨c, e⟩
  · rw [e]; simp [Config.P, Config.CMAX]
  · rw [e]
    simp only [Config.P, Config.CMAX] at *
    omega

/-- The exponent after rounding is the last kept one or the next. -/
theorem roundAt_exp (s : Bool) (rm : Rm) (v : Magnitude) (q0 : Int) :
    q0 ≤ (roundAt s rm v q0).2 ∧ (roundAt s rm v q0).2 ≤ q0 + 1 := by
  rcases roundAt_cases s rm v q0 with ⟨c, e⟩ | ⟨c, e⟩ <;> rw [e] <;> simp

/-- The rounded exponent exceeds `QMAX` exactly when the value rounded at `QMAX` needs more than `P`
digits: the overflow condition of R210 and R354. -/
theorem overflow_iff (s : Bool) (rm : Rm) (v : Magnitude) (hn : v.num ≠ 0) (hd : v.den ≠ 0) :
    Config.QMAX < (roundAt s rm v (lastKept v)).2 ↔
      10 ^ Config.P ≤ roundInt s rm (atExp v Config.QMAX).1 (atExp v Config.QMAX).2 := by
  obtain ⟨s1, s2⟩ := floorLog10_spec v hn hd
  have hpos : (0 : ℚ) < ((atExp v Config.QMAX).2 : ℚ) := by
    exact_mod_cast Nat.pos_of_ne_zero (atExp_den_ne_zero v _ hd)
  have hq : (0 : ℚ) < (10 : ℚ) ^ Config.QMAX := by positivity
  have hv := atExp_value v Config.QMAX hd
  have hle := roundInt_le s rm _ _ _ (atExp_lastKept_lt v hn hd).le
  have hcase := roundAt_cases s rm v (lastKept v)
  have hexp := roundAt_exp s rm v (lastKept v)
  rcases lt_trichotomy (lastKept v) Config.QMAX with h | h | h
  · constructor
    · intro g; omega
    · intro g
      exfalso
      have : (atExp v Config.QMAX).1 ≤ 10 ^ (Config.P - 1) * (atExp v Config.QMAX).2 := by
        have : magnitudeValue v / (10 : ℚ) ^ Config.QMAX ≤ (10 : ℚ) ^ (Config.P - 1) := by
          rw [div_le_iff₀ hq, ← zpow_natCast, ← zpow_add₀ (by norm_num)]
          refine le_trans s2.le (zpow_le_zpow_right₀ (by norm_num) ?_)
          simp only [lastKept, Config.P, Config.QMIN, Config.QMAX] at *; omega
        rw [← hv, div_le_iff₀ hpos] at this
        exact_mod_cast this
      have := roundInt_le s rm _ _ _ this
      simp only [Config.P] at *
      omega
  · rw [h] at hcase hle ⊢
    rcases hcase with ⟨c, e⟩ | ⟨c, e⟩
    · rw [e, c]; simp
    · rw [e]; simp only [Config.P] at *; omega
  · constructor
    · intro _
      refine le_roundInt s rm _ _ _ (atExp_den_ne_zero v _ hd) ?_
      have : (10 : ℚ) ^ Config.P ≤ magnitudeValue v / (10 : ℚ) ^ Config.QMAX := by
        rw [le_div_iff₀ hq, ← zpow_natCast, ← zpow_add₀ (by norm_num)]
        refine le_trans (zpow_le_zpow_right₀ (by norm_num) ?_) s1
        simp only [lastKept, Config.P, Config.QMIN, Config.QMAX] at *; omega
      rw [← hv, le_div_iff₀ hpos] at this
      exact_mod_cast this
    · intro _; omega

/-- A value is the integer `N` at an exponent exactly when its fraction there is. -/
theorem inexactAt_eq_false_iff (v : Magnitude) (q : Int) (hd : v.den ≠ 0) :
    inexactAt v q = false ↔
      magnitudeValue v = ((atExp v q).1 / (atExp v q).2 : Nat) * (10 : ℚ) ^ q := by
  have hne := atExp_den_ne_zero v q hd
  have hpos : (0 : ℚ) < ((atExp v q).2 : ℚ) := by exact_mod_cast Nat.pos_of_ne_zero hne
  have hq : (0 : ℚ) < (10 : ℚ) ^ q := by positivity
  have hv := atExp_value v q hd
  have e1 : inexactAt v q = false ↔ (atExp v q).1 % (atExp v q).2 = 0 := by simp [inexactAt]
  rw [e1, ← div_eq_iff hq.ne', ← hv, div_eq_iff hpos.ne']
  constructor
  · intro h
    have := Nat.div_add_mod' (atExp v q).1 (atExp v q).2
    rw [h, add_zero] at this
    exact_mod_cast this.symm
  · intro h
    have h' : (atExp v q).1 = (atExp v q).1 / (atExp v q).2 * (atExp v q).2 := by exact_mod_cast h
    rw [h']; exact Nat.mul_mod_left _ _

theorem biased_eq (q : Int) (h : Config.QMIN ≤ q) : (biased q : Int) = q + Config.BIAS := by
  unfold biased; simp only [Config.QMIN, Config.BIAS] at *; omega

/-- An exponent of the format is packed as a biased exponent of the format (R6, R171). -/
theorem biased_le (q : Int) (h : q ≤ Config.QMAX) : biased q ≤ Config.EBMAX := by
  unfold biased; simp only [Config.QMAX, Config.BIAS, Config.EBMAX] at *; omega

theorem natCast_pow_toNat (a b : Int) (h : b ≤ a) :
    ((10 ^ (a - b).toNat : Nat) : ℚ) = (10 : ℚ) ^ a / (10 : ℚ) ^ b := by
  have e : ((a - b).toNat : Int) = a - b := Int.toNat_of_nonneg (by omega)
  rw [← zpow_sub₀ (by norm_num)]
  push_cast
  rw [← zpow_natCast, e]

/-- An exact result: the member of the value's cohort closest to the preferred exponent (R215). -/
theorem exactResult_spec (s : Bool) (N : Nat) (q0 pref : Int) (hN : N ≠ 0) (hc : N ≤ Config.CMAX)
    (h2 : q0 ≤ Config.QMAX) :
    ∃ C q, q0 ≤ q ∧ q ≤ Config.QMAX ∧ C ≤ Config.CMAX ∧ N = C * 10 ^ (q - q0).toNat ∧
      exactResult s N q0 pref = (packWord s (biased q) C, noFlags) ∧
      ∀ q', q0 ≤ q' → q' ≤ Config.QMAX → 10 ^ (q' - q0).toNat ∣ N → |q - pref| ≤ |q' - pref| := by
  set q := clamp pref q0 (min (q0 + trailingZeros N) Config.QMAX) with hq
  have hm := clamp_mem pref q0 (min (q0 + trailingZeros N) Config.QMAX) (by omega)
  rw [← hq] at hm
  have hdvd : 10 ^ (q - q0).toNat ∣ N := (pow_dvd_iff_le_trailingZeros N _ hN).mpr (by omega)
  refine ⟨N / 10 ^ (q - q0).toNat, q, hm.1, by omega, le_trans (Nat.div_le_self _ _) hc,
    (Nat.div_mul_cancel hdvd).symm, rfl, ?_⟩
  intro q' a b c
  have := (pow_dvd_iff_le_trailingZeros N _ hN).mp c
  exact clamp_closest pref _ _ q' a (by omega)

/-- A coefficient of at most `P` digits at an exponent of the format does not lie below the last kept
exponent (R215). -/
theorem lastKept_le_of_representable (v : Magnitude) (hn : v.num ≠ 0) (hd : v.den ≠ 0) (C : Nat) (q : Int)
    (h1 : Config.QMIN ≤ q) (h2 : C ≤ Config.CMAX) (h : magnitudeValue v = C * (10 : ℚ) ^ q) :
    lastKept v ≤ q := by
  obtain ⟨s1, -⟩ := floorLog10_spec v hn hd
  have hC : (C : ℚ) < (10 : ℚ) ^ (34 : Int) := by
    have : C < 10 ^ 34 := by simp only [Config.CMAX] at h2; omega
    rw [show (34 : Int) = ((34 : Nat) : Int) from rfl, zpow_natCast]
    exact_mod_cast this
  have hq : (0 : ℚ) < (10 : ℚ) ^ q := by positivity
  have : (10 : ℚ) ^ floorLog10 v < (10 : ℚ) ^ (34 + q) := by
    rw [zpow_add₀ (by norm_num)]
    exact lt_of_le_of_lt (h ▸ s1) (mul_lt_mul_of_pos_right hC hq)
  have := (zpow_lt_zpow_iff_right₀ (by norm_num : (1 : ℚ) < 10)).mp this
  simp only [lastKept, Config.P, Config.QMIN] at *; omega

/-- Rounding at the last kept exponent is rounding to `P` digits, or at `QMIN` (R212, R216). -/
theorem roundAt_lastKept_rounded (s : Bool) (rm : Rm) (v : Magnitude) (hn : v.num ≠ 0) (hd : v.den ≠ 0) :
    RoundedAtPrecision s rm (magnitudeValue v) (roundAt s rm v (lastKept v)).1
      (roundAt s rm v (lastKept v)).2 := by
  obtain ⟨s1, s2⟩ := floorLog10_spec v hn hd
  have h := roundInt_rounds s rm (atExp v (lastKept v)).1 _ (atExp_den_ne_zero v (lastKept v) hd)
  rw [atExp_value v (lastKept v) hd] at h
  have hle := roundInt_le s rm _ _ _ (atExp_lastKept_lt v hn hd).le
  refine ⟨lastKept v, _, le_max_right _ _, lt_of_lt_of_le s2 (zpow_le_zpow_right₀ (by norm_num) ?_), ?_,
    h, ?_⟩
  · simp only [lastKept, Config.P, Config.QMIN]; omega
  · by_cases hm : lastKept v = Config.QMIN
    · exact .inr hm
    · refine .inl (le_trans (zpow_le_zpow_right₀ (by norm_num) ?_) s1)
      simp only [lastKept, Config.P, Config.QMIN] at *; omega
  · rcases roundAt_cases s rm v (lastKept v) with ⟨c, e⟩ | ⟨c, e⟩ <;> rw [e]
    · exact .inr ⟨c, rfl, rfl⟩
    · exact .inl ⟨by simp only [Config.P, Config.CMAX] at *; omega, rfl, rfl⟩

/-- What `RoundToFormat` can answer (R212): an overflow; an exact result, of the cohort member closest to
the preferred exponent; or an inexact one, rounded as the mode says to `P` digits, or at `QMIN`. -/
theorem roundToFormat_cases (policy : Tininess) (s : Bool) (v : Magnitude) (pref : Int) (rm : Rm)
    (hn : v.num ≠ 0) (hd : v.den ≠ 0) :
    (10 ^ Config.P ≤ roundInt s rm (atExp v Config.QMAX).1 (atExp v Config.QMAX).2 ∧
        roundToFormat policy s v pref rm = overflow s rm) ∨
    (roundInt s rm (atExp v Config.QMAX).1 (atExp v Config.QMAX).2 < 10 ^ Config.P ∧
      ∃ C q, Config.QMIN ≤ q ∧ q ≤ Config.QMAX ∧ C ≤ Config.CMAX ∧
        ((magnitudeValue v = C * (10 : ℚ) ^ q ∧
            roundToFormat policy s v pref rm = (packWord s (biased q) C, noFlags) ∧
            ∀ C' q', Config.QMIN ≤ q' → q' ≤ Config.QMAX → C' ≤ Config.CMAX →
              magnitudeValue v = C' * (10 : ℚ) ^ q' → |q - pref| ≤ |q' - pref|) ∨
          (RoundedAtPrecision s rm (magnitudeValue v) C q ∧
            roundToFormat policy s v pref rm =
              (packWord s (biased q) C, finiteFlags true (tiny policy s v rm)) ∧
            ∀ (C' : Nat) q', Config.QMIN ≤ q' → C' ≤ Config.CMAX →
              magnitudeValue v ≠ C' * (10 : ℚ) ^ q'))) := by
  have hov := overflow_iff s rm v hn hd
  by_cases h : Config.QMAX < (roundAt s rm v (lastKept v)).2
  · refine .inl ⟨hov.mp h, ?_⟩
    simp only [roundToFormat, if_pos h]
  · refine .inr ⟨by rw [← not_le, ← hov]; exact h, ?_⟩
    have hexp := roundAt_exp s rm v (lastKept v)
    have hlo : Config.QMIN ≤ lastKept v := le_max_right _ _
    have hle := roundAt_lastKept_le s rm v hn hd
    have hrep : ∀ (C' : Nat) q', Config.QMIN ≤ q' → C' ≤ Config.CMAX →
        magnitudeValue v = C' * (10 : ℚ) ^ q' →
        lastKept v ≤ q' ∧ magnitudeValue v = ((C' * 10 ^ (q' - lastKept v).toNat : Nat) : ℚ) * (10 : ℚ) ^ lastKept v := by
      intro C' q' a b c
      have hge := lastKept_le_of_representable v hn hd C' q' a b c
      refine ⟨hge, ?_⟩
      rw [c, Nat.cast_mul, natCast_pow_toNat q' (lastKept v) hge]
      have : (10 : ℚ) ^ lastKept v ≠ 0 := by positivity
      field_simp
    have hq0 : (0 : ℚ) < (10 : ℚ) ^ lastKept v := by positivity
    cases hin : inexactAt v (lastKept v) with
    | false =>
      have hval := (inexactAt_eq_false_iff v (lastKept v) hd).mp hin
      have hmod : (atExp v (lastKept v)).1 % (atExp v (lastKept v)).2 = 0 := by simpa [inexactAt] using hin
      have hr : roundInt s rm (atExp v (lastKept v)).1 (atExp v (lastKept v)).2
          = (atExp v (lastKept v)).1 / (atExp v (lastKept v)).2 := roundInt_of_dvd s rm _ _ hmod
      have hlt : (atExp v (lastKept v)).1 / (atExp v (lastKept v)).2 < 10 ^ Config.P :=
        Nat.div_lt_of_lt_mul (by rw [mul_comm]; exact atExp_lastKept_lt v hn hd)
      have hrA : roundAt s rm v (lastKept v)
          = ((atExp v (lastKept v)).1 / (atExp v (lastKept v)).2, lastKept v) := by
        rcases roundAt_cases s rm v (lastKept v) with ⟨c, e⟩ | ⟨c, e⟩
        · omega
        · rw [e, hr]
      set N := (atExp v (lastKept v)).1 / (atExp v (lastKept v)).2 with hNdef
      have hN : N ≠ 0 := by
        rintro h0
        rw [h0] at hval
        have := magnitudeValue_pos v hn hd
        simp at hval; linarith
      rw [hrA] at h hle
      obtain ⟨C, q, a1, a2, a3, a4, a5, a6⟩ :=
        exactResult_spec s N (lastKept v) pref hN hle (not_lt.mp h)
      refine ⟨C, q, le_trans hlo a1, a2, a3, .inl ⟨?_, ?_, ?_⟩⟩
      · rw [hval, a4, Nat.cast_mul, natCast_pow_toNat q (lastKept v) a1]
        field_simp
      · simp only [roundToFormat, hrA, if_neg h, hin]
        simpa using a5
      · intro C' q' b1 b2 b3 b4
        obtain ⟨c1, c2⟩ := hrep C' q' b1 b3 b4
        refine a6 q' c1 b2 ?_
        rw [hval] at c2
        have := mul_right_cancel₀ hq0.ne' c2
        have : N = C' * 10 ^ (q' - lastKept v).toNat := by exact_mod_cast this
        exact Dvd.intro_left _ this.symm
    | true =>
      refine ⟨(roundAt s rm v (lastKept v)).1, (roundAt s rm v (lastKept v)).2, by omega, not_lt.mp h,
        hle, .inr ⟨roundAt_lastKept_rounded s rm v hn hd, ?_, ?_⟩⟩
      · simp only [roundToFormat, if_neg h, hin, if_true]
      · intro C' q' b1 b3 b4
        obtain ⟨c1, c2⟩ := hrep C' q' b1 b3 b4
        have hpos : (0 : ℚ) < ((atExp v (lastKept v)).2 : ℚ) := by
          exact_mod_cast Nat.pos_of_ne_zero (atExp_den_ne_zero v _ hd)
        have hv := atExp_value v (lastKept v) hd
        rw [← div_eq_iff hq0.ne'] at c2
        have hcon : inexactAt v (lastKept v) = false := by
          have e : ((atExp v (lastKept v)).1 : ℚ) = (C' * 10 ^ (q' - lastKept v).toNat : Nat) * (atExp v (lastKept v)).2 := by
            rw [← div_eq_iff hpos.ne', hv, ← c2]
          have e' : (atExp v (lastKept v)).1 = (C' * 10 ^ (q' - lastKept v).toNat) * (atExp v (lastKept v)).2 := by
            exact_mod_cast e
          simp only [inexactAt, decide_eq_false_iff_not, not_not]
          rw [e']; exact Nat.mul_mod_left _ _
        rw [hcon] at hin; cases hin

theorem roundAt_congr (s : Bool) (rm : Rm) (v w : Magnitude) (q : Int) (hd : v.den ≠ 0) (hd' : w.den ≠ 0)
    (h : magnitudeValue v = magnitudeValue w) : roundAt s rm v q = roundAt s rm w q := by
  have : roundInt s rm (atExp v q).1 (atExp v q).2 = roundInt s rm (atExp w q).1 (atExp w q).2 :=
    roundInt_congr s rm _ _ _ _ (atExp_den_ne_zero v q hd) (atExp_den_ne_zero w q hd')
      (by rw [atExp_value v q hd, atExp_value w q hd', h])
  simp only [roundAt, this]

theorem inexactAt_congr (v w : Magnitude) (q : Int) (hd : v.den ≠ 0) (hd' : w.den ≠ 0)
    (h : magnitudeValue v = magnitudeValue w) : inexactAt v q = inexactAt w q := by
  have hq : (0 : ℚ) < (10 : ℚ) ^ q := by positivity
  have key : ∀ v w : Magnitude, v.den ≠ 0 → w.den ≠ 0 → magnitudeValue v = magnitudeValue w →
      inexactAt v q = false → inexactAt w q = false := by
    intro v w hd hd' h e
    have hv := (inexactAt_eq_false_iff v q hd).mp e
    have hpos : (0 : ℚ) < ((atExp w q).2 : ℚ) := by
      exact_mod_cast Nat.pos_of_ne_zero (atExp_den_ne_zero w q hd')
    have hw := atExp_value w q hd'
    rw [← h, hv, mul_div_cancel_right₀ _ hq.ne', div_eq_iff hpos.ne'] at hw
    have : (atExp w q).1 = ((atExp v q).1 / (atExp v q).2) * (atExp w q).2 := by exact_mod_cast hw
    simp only [inexactAt, decide_eq_false_iff_not, not_not]
    rw [this]; exact Nat.mul_mod_left _ _
  cases hv : inexactAt v q with
  | false => exact (key v w hd hd' h hv).symm
  | true =>
    cases hw : inexactAt w q with
    | true => rfl
    | false => rw [key w v hd' hd h.symm hw] at hv; cases hv

theorem tiny_congr (policy : Tininess) (s : Bool) (rm : Rm) (v w : Magnitude) (hn : v.num ≠ 0)
    (hd : v.den ≠ 0) (hn' : w.num ≠ 0) (hd' : w.den ≠ 0) (h : magnitudeValue v = magnitudeValue w) :
    tiny policy s v rm = tiny policy s w rm := by
  have hL := floorLog10_congr v w hn hd hn' hd' h
  cases policy with
  | before => simp only [tiny, hL]
  | after => simp only [tiny, hL, roundAt_congr s rm v w _ hd hd' h]

/-- `RoundToFormat` depends on the value only, not on the fraction that denotes it (R212). -/
theorem roundToFormat_congr (policy : Tininess) (s : Bool) (pref : Int) (rm : Rm) (v w : Magnitude)
    (hn : v.num ≠ 0) (hd : v.den ≠ 0) (hn' : w.num ≠ 0) (hd' : w.den ≠ 0)
    (h : magnitudeValue v = magnitudeValue w) :
    roundToFormat policy s v pref rm = roundToFormat policy s w pref rm := by
  have hL : lastKept v = lastKept w := by simp only [lastKept, floorLog10_congr v w hn hd hn' hd' h]
  simp only [roundToFormat, hL, roundAt_congr s rm v w _ hd hd' h, inexactAt_congr v w _ hd hd' h,
    tiny_congr policy s rm v w hn hd hn' hd' h]

end Sys2Proof.Machine
end

