-- ==== Sys2Proof/Laws/Correction.lean ====
section
/-!
SUPPORT. What the rounding engine's classification and the mode correction can do, once
(spec/43_rounding.md R191, R193, R203 to R207).
-/
namespace Sys2Proof.Machine

/-- The five cases of the classification of a remainder against half a unit (R193). -/
theorem classify_cases (Q R half : Nat) :
    (R = 0 ∧ classify Q R half = (Q, indExact)) ∨
    (0 < R ∧ R < half ∧ classify Q R half = (Q, indLtMid)) ∨
    (0 < R ∧ half < R ∧ classify Q R half = (Q + 1, indGtMid)) ∨
    (0 < R ∧ R = half ∧ Q % 2 = 0 ∧ classify Q R half = (Q, indMidDn)) ∨
    (0 < R ∧ R = half ∧ Q % 2 = 1 ∧ classify Q R half = (Q + 1, indMidUp)) := by
  unfold classify
  split_ifs with h1 h2 h3 h4
  · exact .inl ⟨h1, rfl⟩
  · exact .inr (.inl ⟨by omega, h2, rfl⟩)
  · exact .inr (.inr (.inl ⟨by omega, h3, rfl⟩))
  · exact .inr (.inr (.inr (.inl ⟨by omega, by omega, h4, rfl⟩)))
  · exact .inr (.inr (.inr (.inr ⟨by omega, by omega, by omega, rfl⟩)))

/-- The half-ulp constant is half a unit (R198). -/
theorem twice_halfUlp (x : Nat) (hx : 1 ≤ x) : 2 * (5 * 10 ^ (x - 1)) = 10 ^ x := by
  obtain ⟨y, rfl⟩ : ∃ y, x = y + 1 := ⟨x - 1, by omega⟩
  rw [pow_succ, Nat.add_sub_cancel]
  ring

/-- Discarding `x` digits leaves less than `10^(digits C - x)`. -/
theorem discard_lt (C x : Nat) : C / 10 ^ x < 10 ^ (digits C - x) := by
  have hC := lt_pow_digits C
  rcases Nat.le_total x (digits C) with h | h
  · apply Nat.div_lt_of_lt_mul
    rwa [← pow_add, Nat.add_sub_cancel' h]
  · rw [Nat.div_eq_of_lt (lt_of_lt_of_le hC (Nat.pow_le_pow_right (by norm_num) h))]
    positivity

/-- The step of the correction: one up, one down, or none (R207). -/
def rmStep (s : Bool) (rm : Rm) (i : Indicators) : Int :=
  if rmIncrements s rm i then 1 else if rmDecrements s rm i then -1 else 0

/-- A quotient classified and corrected is the quotient rounded in the mode, for any remainder and half
unit that compare as twice the true remainder compares with the divisor. -/
theorem classify_corrected (s : Bool) (rm : Rm) (n d R half : Nat) (h0 : R = 0 ↔ n % d = 0)
    (h1 : R < half ↔ 2 * (n % d) < d) (h2 : half < R ↔ d < 2 * (n % d)) :
    (roundInt s rm n d : Int) =
      (classify (n / d) R half).1 + rmStep s rm (classify (n / d) R half).2 := by
  unfold roundInt rmStep
  simp only
  generalize n / d = Q at *
  rcases classify_cases Q R half with ⟨a, e⟩ | ⟨a, b, e⟩ | ⟨a, b, e⟩ | ⟨a, b, c, e⟩ | ⟨a, b, c, e⟩ <;>
    rw [e]
  · rw [if_pos (h0.mp a)]
    cases rm <;> simp [rmIncrements, rmDecrements, indExact, roundedDown, roundedUp]
  · rw [if_neg (by omega)]
    have h3 := h1.mp b
    cases rm <;> cases s <;> simp [rmIncrements, rmDecrements, indLtMid, roundedDown, roundedUp, h3]
  · rw [if_neg (by omega)]
    have h3 := h2.mp b
    have h4 : ¬ 2 * (n % d) < d := by omega
    cases rm <;> cases s <;> simp [rmIncrements, rmDecrements, indGtMid, roundedDown, roundedUp, h3, h4]
  · rw [if_neg (by omega)]
    have h3 : ¬ 2 * (n % d) < d := by omega
    have h4 : ¬ d < 2 * (n % d) := by omega
    cases rm <;> cases s <;>
      simp [rmIncrements, rmDecrements, indMidDn, roundedDown, roundedUp, h3, h4, c]
  · rw [if_neg (by omega)]
    have h3 : ¬ 2 * (n % d) < d := by omega
    have h4 : ¬ d < 2 * (n % d) := by omega
    cases rm <;> cases s <;>
      simp [rmIncrements, rmDecrements, indMidUp, roundedDown, roundedUp, h3, h4, c]

/-- A quotient that the classification rounded up is never incremented again (R203). -/
theorem classify_up (s : Bool) (rm : Rm) (Q R half : Nat) (h : (classify Q R half).1 ≠ Q) :
    rmIncrements s rm (classify Q R half).2 = false := by
  rcases classify_cases Q R half with ⟨_, e⟩ | ⟨_, _, e⟩ | ⟨_, _, e⟩ | ⟨_, _, _, e⟩ | ⟨_, _, _, e⟩ <;>
    rw [e] at h ⊢
  all_goals first
    | exact absurd rfl h
    | (cases rm <;> simp [rmIncrements, indGtMid, indMidUp, roundedDown])

/-- What the correction gives as a value, decade carry and its undoing included: the engine's coefficient
`T` at exponent `e` moved by the step of the mode (R207). -/
theorem rmcorr_value (s : Bool) (rm : Rm) (T n Cstar : Nat) (e : Int) (ind : Indicators) (carried : Bool)
    (hn : 1 ≤ n)
    (h : (carried = true ∧ T = 10 ^ n ∧ Cstar = 10 ^ (n - 1) ∧ rmIncrements s rm ind = false) ∨
      (carried = false ∧ Cstar = T)) :
    let c := rmcorr s rm Cstar (e + (if carried then 1 else 0)) ind n carried
    (c.1 : ℚ) * (10 : ℚ) ^ c.2 = (((T : Int) + rmStep s rm ind : Int) : ℚ) * (10 : ℚ) ^ e := by
  have hz : (10 : ℚ) ^ (e + 1) = (10 : ℚ) ^ e * 10 := zpow_succ_ten e
  have hpp : 10 ^ n = 10 * 10 ^ (n - 1) := by rw [← pow_succ']; congr 1; omega
  unfold rmcorr rmStep
  rcases h with ⟨rfl, hT, hC, hi⟩ | ⟨rfl, rfl⟩
  · rw [hi]
    simp only [Bool.false_eq_true, if_false, if_true, true_and]
    cases rmDecrements s rm ind
    · simp only [Bool.false_eq_true, if_false]
      rw [hT, hC, hz, hpp]
      push_cast
      ring
    · rw [if_pos rfl, if_pos rfl, if_pos (by rw [hC, hpp])]
      simp only [hT]
      push_cast
      rw [show e + 1 - 1 = e by ring]
      ring
  · simp only [Bool.false_eq_true, if_false, false_and, add_zero]
    cases rmIncrements s rm ind
    · cases rmDecrements s rm ind
      · simp
      · simp
        left
        ring
    · simp only [if_true]
      split
      · rename_i hh
        have hc : (Cstar : ℚ) + 1 = 10 ^ Config.P := by exact_mod_cast hh
        simp only [Config.P] at *
        rw [hz]
        push_cast
        rw [hc]
        norm_num
        ring
      · push_cast
        ring

/-- The overflow result by mode and sign is the table of R210. -/
theorem ovfWord_eq (s : Bool) (rm : Rm) : ovfWord s rm = overflowTable rm s := by
  cases s <;> cases rm <;> decide +kernel

end Sys2Proof.Machine
end

