-- ==== Sys2Proof/Laws/Ops.lean ====
section
/-!
SUPPORT. What each shared operation can do, once: how an operation and a unit function end, what a step
does with each kind of interaction.
-/
namespace Sys2Proof.Machine

/-- An operation ends in a next state, with its result driven and its flags ORed in. -/
@[simp] theorem finishOperation_eq (r : Word × FlagWord) (s : State) :
    finishOperation r s = .next (s.complete r) := rfl

/-- A unit function ends in a next state: an output is driven, or a fault is recorded. -/
theorem finishUnit_cases (r : Except Fault Output) (s : State) :
    (∃ o, r = .ok o ∧ finishUnit r s = .next (s.emit o)) ∨
      (∃ e, r = .error e ∧ finishUnit r s = .next (s.recordFault e)) := by
  cases r with
  | ok o => exact .inl ⟨o, rfl, rfl⟩
  | error e => exact .inr ⟨e, rfl, rfl⟩

@[simp] theorem finishUnit_ok (o : Output) (s : State) : finishUnit (.ok o) s = .next (s.emit o) := rfl

@[simp] theorem finishUnit_error (e : Fault) (s : State) :
    finishUnit (.error e) s = .next (s.recordFault e) := rfl

/-- A step with nothing pending changes nothing. -/
theorem step_idle (s : State) (h : s.pending = []) : step s = .next s := by
  simp only [step, h]

/-- A step with an interaction pending performs it. -/
theorem step_pending (s : State) (r : Request) (rest : List Request) (h : s.pending = r :: rest) :
    step s = perform r (s.withPending rest) := by
  simp only [step, h]

/-- What performing an interaction can be (R397). -/
theorem perform_cases (r : Request) (s : State) :
    (∃ cmd p, r = .operation cmd p ∧ perform r s = runCode (decodeCommand cmd) (s.present p)) ∨
    (∃ ufc u, r = .unitFunction ufc u ∧ perform r s = runCode (decodeUnit ufc) (s.presentUnit u)) ∨
    (isOverlapping r = true ∧ perform r s = .next (s.recordRefusal .sharedAccumulator)) ∨
    (∃ m v, r = .writeFlags m v ∧ perform r s = .next (s.writeFlags m v)) ∨
    (r = .readFlags ∧ perform r s = .next s.readFlags) := by
  cases r with
  | operation cmd p => exact .inl ⟨cmd, p, rfl, rfl⟩
  | unitFunction ufc u => exact .inr (.inl ⟨ufc, u, rfl, rfl⟩)
  | overlapping _ _ _ _ => exact .inr (.inr (.inl ⟨rfl, rfl⟩))
  | writeFlags m v => exact .inr (.inr (.inr (.inl ⟨m, v, rfl, rfl⟩)))
  | readFlags => exact .inr (.inr (.inr (.inr ⟨rfl, rfl⟩)))

/-- Running a code word is running its instruction, or recording its refusal. -/
@[simp] theorem runCode_ok (i : Instr) (s : State) : runCode (.ok i) s = exec i s := rfl

@[simp] theorem runCode_error (e : DecodeError) (s : State) :
    runCode (.error e) s = .next (s.recordRefusal (refusalOf e)) := rfl

end Sys2Proof.Machine
end

