-- ==== Sys2Proof/Laws/Exec.lean ====
section
/-!
SUPPORT. What one instruction can do, once: an operation drives one result and ORs its flags in; a unit
function drives one output or records one fault, both functions of its inputs.
-/
namespace Sys2Proof.Machine

/-- The result and the flag set of an operation, from the model arguments and the operand words. -/
def operationResult (args : ModelArgs) (p : Ports) : Instr → Word × FlagWord
  | .add rm => addWords args rm p.a p.b
  | .mul rm => mulWords args rm p.a p.b
  | .fma rm => fmaWords args rm p.a p.b p.c
  | .div rm => divWords args rm p.a p.b
  | _ => (0#128, noFlags)

/-- An operation is its result and its flag set, and changes nothing else. -/
theorem exec_operation (i : Instr) (s : State) (h : isOperation i = true) :
    exec i s = .next (s.complete (operationResult s.args s.ports i)) := by
  cases i <;> first | rfl | cases h

/-- The low `W` bits of an integer port. -/
abbrev lowBits (W : Nat) (p : BitVec 512) : BitVec W := p.extractLsb' 0 W

theorem lowBits_toNat (W : Nat) (p : BitVec 512) : (lowBits W p).toNat = p.toNat % 2 ^ W := by
  simp [BitVec.extractLsb'_toNat]

/-- The output of a unit function, or its fault, from the model arguments and the inputs. -/
def unitResult (args : ModelArgs) (u : UnitPorts) : Instr → Except Fault Output
  | .unpack => .ok (.record (unpack args.nanPayloadLimit u.w))
  | .pack => outputOf .word (pack u.s u.E u.coef)
  | .quietnan => outputOf .word (quietNaN u.x)
  | .mwadd64 => .ok (sumOutput 64 (mwAdd 64 (lowBits 64 u.ia) (lowBits 64 u.ib) u.cin))
  | .mwsub64 => .ok (sumOutput 64 (mwSub 64 (lowBits 64 u.ia) (lowBits 64 u.ib) u.cin))
  | .mwadd128 => .ok (sumOutput 128 (mwAdd 128 (lowBits 128 u.ia) (lowBits 128 u.ib) u.cin))
  | .mwsub128 => .ok (sumOutput 128 (mwSub 128 (lowBits 128 u.ia) (lowBits 128 u.ib) u.cin))
  | .mwadd192 => .ok (sumOutput 192 (mwAdd 192 (lowBits 192 u.ia) (lowBits 192 u.ib) u.cin))
  | .mwsub192 => .ok (sumOutput 192 (mwSub 192 (lowBits 192 u.ia) (lowBits 192 u.ib) u.cin))
  | .mwadd256 => .ok (sumOutput 256 (mwAdd 256 (lowBits 256 u.ia) (lowBits 256 u.ib) u.cin))
  | .mwsub256 => .ok (sumOutput 256 (mwSub 256 (lowBits 256 u.ia) (lowBits 256 u.ib) u.cin))
  | .mwadd384 => .ok (sumOutput 384 (mwAdd 384 (lowBits 384 u.ia) (lowBits 384 u.ib) u.cin))
  | .mwsub384 => .ok (sumOutput 384 (mwSub 384 (lowBits 384 u.ia) (lowBits 384 u.ib) u.cin))
  | .mwadd512 => .ok (sumOutput 512 (mwAdd 512 (lowBits 512 u.ia) (lowBits 512 u.ib) u.cin))
  | .mwsub512 => .ok (sumOutput 512 (mwSub 512 (lowBits 512 u.ia) (lowBits 512 u.ib) u.cin))
  | .mul64x64_128 => .ok (.product 128 (widenMul 128 (lowBits 64 u.ia).toNat (lowBits 64 u.ib).toNat))
  | .mul64x128_128 => .ok (.product 128 (widenMul 128 (lowBits 64 u.ia).toNat (lowBits 128 u.ib).toNat))
  | .mul64x128_192 => .ok (.product 192 (widenMul 192 (lowBits 64 u.ia).toNat (lowBits 128 u.ib).toNat))
  | .mul128x128_256 => .ok (.product 256 (widenMul 256 (lowBits 128 u.ia).toNat (lowBits 128 u.ib).toNat))
  | .mul128x192_320 => .ok (.product 320 (widenMul 320 (lowBits 128 u.ia).toNat (lowBits 192 u.ib).toNat))
  | .mul192x192_384 => .ok (.product 384 (widenMul 384 (lowBits 192 u.ia).toNat (lowBits 192 u.ib).toNat))
  | .mul256x256_512 => .ok (.product 512 (widenMul 512 (lowBits 256 u.ia).toNat (lowBits 256 u.ib).toNat))
  | .div128by128 => outputOf quotientOutput (longDivide (lowBits 128 u.ia).toNat (lowBits 128 u.ib).toNat)
  | .div256by128 => outputOf quotientOutput (longDivide (lowBits 256 u.ia).toNat (lowBits 128 u.ib).toNat)
  | .dcnt128 => outputOf .digitCount (dcnt (lowBits 128 u.ia).toNat)
  | .dcnt256 => outputOf .digitCount (dcnt (lowBits 256 u.ia).toNat)
  | .rnd64 => outputOf (roundedOutput 64) (rndUnit 2 18 (lowBits 64 u.ia).toNat u.discard)
  | .rnd128 => outputOf (roundedOutput 128) (rndUnit 19 38 (lowBits 128 u.ia).toNat u.discard)
  | .rnd192 => outputOf (roundedOutput 192) (rndUnit 39 57 (lowBits 192 u.ia).toNat u.discard)
  | .rnd256 => outputOf (roundedOutput 256) (rndUnit 58 76 (lowBits 256 u.ia).toNat u.discard)
  | .rmcorr => .ok (correctedOutput (rmcorr u.s u.rm u.coef u.exp u.ind u.n u.carried))
  | .assemble => outputOf assembledOutput (assemble u.s u.coef u.exp u.rm u.inexact u.tiny)
  | .alignAdd => outputOf .addAligned (alignAdd u.x u.y)
  | .alignFma => outputOf .fmaAligned (alignFma u.prod u.x)
  | .divscale => outputOf .divScaled (divScale u.x u.y)
  | .add _ | .mul _ | .fma _ | .div _ => .error .tableIndex

/-- A unit function is its output or its fault, and changes nothing else. -/
theorem exec_unit (i : Instr) (s : State) (h : isOperation i = false) :
    exec i s = finishUnit (unitResult s.args s.unitPorts i) s := by
  cases i <;> first | rfl | cases h

end Sys2Proof.Machine
end

