-- ==== Sys2Proof/Laws/PerInstr.lean ====
section
/-!
SUPPORT. The opcode table, row by row: the code word of an instruction is one its row matches.
-/
namespace Sys2Proof.Laws.TableRow

/-- A row of spec/opcode_table.json: the kind of code word, its mask and the bits under the mask. -/
structure Row where
  isCommand : Bool
  mask : Nat
  bits : Nat
  deriving DecidableEq, Repr

/-- The row of an instruction, copied from spec/opcode_table.json. -/
def row : Instr → Row
  | .add _ => ⟨true, 0x07, 0x00⟩
  | .mul _ => ⟨true, 0x07, 0x01⟩
  | .fma _ => ⟨true, 0x07, 0x02⟩
  | .div _ => ⟨true, 0x07, 0x03⟩
  | .unpack => ⟨false, 0xFF, 0x00⟩
  | .pack => ⟨false, 0xFF, 0x01⟩
  | .quietnan => ⟨false, 0xFF, 0x02⟩
  | .mwadd64 => ⟨false, 0xFF, 0x10⟩
  | .mwsub64 => ⟨false, 0xFF, 0x11⟩
  | .mwadd128 => ⟨false, 0xFF, 0x12⟩
  | .mwsub128 => ⟨false, 0xFF, 0x13⟩
  | .mwadd192 => ⟨false, 0xFF, 0x14⟩
  | .mwsub192 => ⟨false, 0xFF, 0x15⟩
  | .mwadd256 => ⟨false, 0xFF, 0x16⟩
  | .mwsub256 => ⟨false, 0xFF, 0x17⟩
  | .mwadd384 => ⟨false, 0xFF, 0x18⟩
  | .mwsub384 => ⟨false, 0xFF, 0x19⟩
  | .mwadd512 => ⟨false, 0xFF, 0x1A⟩
  | .mwsub512 => ⟨false, 0xFF, 0x1B⟩
  | .mul64x64_128 => ⟨false, 0xFF, 0x20⟩
  | .mul64x128_128 => ⟨false, 0xFF, 0x21⟩
  | .mul64x128_192 => ⟨false, 0xFF, 0x22⟩
  | .mul128x128_256 => ⟨false, 0xFF, 0x23⟩
  | .mul128x192_320 => ⟨false, 0xFF, 0x24⟩
  | .mul192x192_384 => ⟨false, 0xFF, 0x25⟩
  | .mul256x256_512 => ⟨false, 0xFF, 0x26⟩
  | .div128by128 => ⟨false, 0xFF, 0x30⟩
  | .div256by128 => ⟨false, 0xFF, 0x31⟩
  | .dcnt128 => ⟨false, 0xFF, 0x40⟩
  | .dcnt256 => ⟨false, 0xFF, 0x41⟩
  | .rnd64 => ⟨false, 0xFF, 0x50⟩
  | .rnd128 => ⟨false, 0xFF, 0x51⟩
  | .rnd192 => ⟨false, 0xFF, 0x52⟩
  | .rnd256 => ⟨false, 0xFF, 0x53⟩
  | .rmcorr => ⟨false, 0xFF, 0x60⟩
  | .assemble => ⟨false, 0xFF, 0x61⟩
  | .alignAdd => ⟨false, 0xFF, 0x70⟩
  | .alignFma => ⟨false, 0xFF, 0x71⟩
  | .divscale => ⟨false, 0xFF, 0x72⟩

/-- A code word is of the row's kind and has the row's bits under its mask. -/
def Matches (r : Row) : Code → Prop
  | .command w => r.isCommand = true ∧ w.toNat &&& r.mask = r.bits
  | .unit u => r.isCommand = false ∧ u.toNat &&& r.mask = r.bits

/-- The code word of the instruction is one its row matches, and it decodes to the instruction. -/
def Statement (i : Instr) : Prop := Matches (row i) (encode i) ∧ decode (encode i) = .ok i

theorem add (rm : Rm) : Statement (.add rm) := by cases rm <;> exact ⟨⟨rfl, rfl⟩, rfl⟩

theorem mul (rm : Rm) : Statement (.mul rm) := by cases rm <;> exact ⟨⟨rfl, rfl⟩, rfl⟩

theorem fma (rm : Rm) : Statement (.fma rm) := by cases rm <;> exact ⟨⟨rfl, rfl⟩, rfl⟩

theorem div (rm : Rm) : Statement (.div rm) := by cases rm <;> exact ⟨⟨rfl, rfl⟩, rfl⟩

theorem unpack : Statement .unpack := ⟨⟨rfl, rfl⟩, rfl⟩

theorem pack : Statement .pack := ⟨⟨rfl, rfl⟩, rfl⟩

theorem quietnan : Statement .quietnan := ⟨⟨rfl, rfl⟩, rfl⟩

theorem mwadd64 : Statement .mwadd64 := ⟨⟨rfl, rfl⟩, rfl⟩

theorem mwsub64 : Statement .mwsub64 := ⟨⟨rfl, rfl⟩, rfl⟩

theorem mwadd128 : Statement .mwadd128 := ⟨⟨rfl, rfl⟩, rfl⟩

theorem mwsub128 : Statement .mwsub128 := ⟨⟨rfl, rfl⟩, rfl⟩

theorem mwadd192 : Statement .mwadd192 := ⟨⟨rfl, rfl⟩, rfl⟩

theorem mwsub192 : Statement .mwsub192 := ⟨⟨rfl, rfl⟩, rfl⟩

theorem mwadd256 : Statement .mwadd256 := ⟨⟨rfl, rfl⟩, rfl⟩

theorem mwsub256 : Statement .mwsub256 := ⟨⟨rfl, rfl⟩, rfl⟩

theorem mwadd384 : Statement .mwadd384 := ⟨⟨rfl, rfl⟩, rfl⟩

theorem mwsub384 : Statement .mwsub384 := ⟨⟨rfl, rfl⟩, rfl⟩

theorem mwadd512 : Statement .mwadd512 := ⟨⟨rfl, rfl⟩, rfl⟩

theorem mwsub512 : Statement .mwsub512 := ⟨⟨rfl, rfl⟩, rfl⟩

theorem mul64x64_128 : Statement .mul64x64_128 := ⟨⟨rfl, rfl⟩, rfl⟩

theorem mul64x128_128 : Statement .mul64x128_128 := ⟨⟨rfl, rfl⟩, rfl⟩

theorem mul64x128_192 : Statement .mul64x128_192 := ⟨⟨rfl, rfl⟩, rfl⟩

theorem mul128x128_256 : Statement .mul128x128_256 := ⟨⟨rfl, rfl⟩, rfl⟩

theorem mul128x192_320 : Statement .mul128x192_320 := ⟨⟨rfl, rfl⟩, rfl⟩

theorem mul192x192_384 : Statement .mul192x192_384 := ⟨⟨rfl, rfl⟩, rfl⟩

theorem mul256x256_512 : Statement .mul256x256_512 := ⟨⟨rfl, rfl⟩, rfl⟩

theorem div128by128 : Statement .div128by128 := ⟨⟨rfl, rfl⟩, rfl⟩

theorem div256by128 : Statement .div256by128 := ⟨⟨rfl, rfl⟩, rfl⟩

theorem dcnt128 : Statement .dcnt128 := ⟨⟨rfl, rfl⟩, rfl⟩

theorem dcnt256 : Statement .dcnt256 := ⟨⟨rfl, rfl⟩, rfl⟩

theorem rnd64 : Statement .rnd64 := ⟨⟨rfl, rfl⟩, rfl⟩

theorem rnd128 : Statement .rnd128 := ⟨⟨rfl, rfl⟩, rfl⟩

theorem rnd192 : Statement .rnd192 := ⟨⟨rfl, rfl⟩, rfl⟩

theorem rnd256 : Statement .rnd256 := ⟨⟨rfl, rfl⟩, rfl⟩

theorem rmcorr : Statement .rmcorr := ⟨⟨rfl, rfl⟩, rfl⟩

theorem assemble : Statement .assemble := ⟨⟨rfl, rfl⟩, rfl⟩

theorem alignAdd : Statement .alignAdd := ⟨⟨rfl, rfl⟩, rfl⟩

theorem alignFma : Statement .alignFma := ⟨⟨rfl, rfl⟩, rfl⟩

theorem divscale : Statement .divscale := ⟨⟨rfl, rfl⟩, rfl⟩

end Sys2Proof.Laws.TableRow
end

