-- ==== Sys2Proof/Laws/Tables.lean ====
section
/-!
SUPPORT. What a table read answers, once per table (spec/20_memory.md R51, spec/10_state.md R31).
-/
namespace Sys2Proof.Machine

/-- The width of an entry is one of the widths of R51. -/
theorem entryWidth_mem (v : Nat) : entryWidth v ∈ [64, 128, 192, 256] := by
  unfold entryWidth
  split_ifs <;> simp

/-- An entry holds its constant whole. -/
@[simp] theorem entryOf_toNat (v : Nat) (h : v < 2 ^ 256) : (entryOf v).value.toNat = v := by
  simp only [entryOf, BitVec.toNat_ofNat]
  refine Nat.mod_eq_of_lt ?_
  unfold entryWidth
  split_ifs <;> assumption

/-- The read of a constant below `2^256`. -/
theorem readsConstant_entryOf (v : Nat) (h : v < 2 ^ 256) : ReadsConstant (.ok (entryOf v)) v :=
  ⟨entryOf v, rfl, entryWidth_mem v, entryOf_toNat v h⟩

/-- `TEN_POW` within its range. -/
theorem romTenPow_ok (k : Nat) (h : k ≤ 76) : romTenPow k = .ok (entryOf (10 ^ k)) := if_pos h

/-- `HALF_ULP` within its range. -/
theorem romHalfUlp_ok (x : Nat) (h : 1 ≤ x ∧ x ≤ 75) : romHalfUlp x = .ok (entryOf (5 * 10 ^ (x - 1))) :=
  if_pos h

/-- `DIGIT_THRESH` at an ambiguous bit length. -/
theorem romDigitThresh_ambiguous (b : Nat) (e : DigitEntry) (h : romNrDigits b = .ok e) (ha : e.amb = true) :
    romDigitThresh b =
      .ok ⟨threshWidth b, BitVec.ofNat (threshWidth b) (10 ^ e.d.toNat)⟩ := by
  simp only [romDigitThresh, h, ha, if_true]

end Sys2Proof.Machine
end

