-- ==== Sys2Proof/Laws/Values.lean ====
section
/-!
SUPPORT. The exact values of decoded operands, and the integers the operations compute for their sums
(spec/00_scope.md R12, spec/44_add.md R240, spec/45_fma_mul.md R282).
-/
namespace Sys2Proof.Machine

theorem isNaN_iff (r : Record) : isNaN r = true ↔ r.cls = .qnan ∨ r.cls = .snan := by
  unfold isNaN
  cases r.cls <;> simp

theorem isFinite_iff (r : Record) : isFinite r = true ↔ r.cls = .zero ∨ r.cls = .finite := by
  unfold isFinite
  cases r.cls <;> simp

theorem not_special_of_isFinite (r : Record) (h : isFinite r = true) :
    isNaN r = false ∧ r.cls ≠ .inf := by
  rcases (isFinite_iff r).mp h with hc | hc <;> simp [isNaN, hc]

/-- A record denotes zero exactly when its coefficient is 0. -/
theorem valueOf_eq_zero_iff (r : Record) : valueOf r = 0 ↔ r.Cf.toNat = 0 := by
  unfold valueOf signedCoef
  have h10 : (10 : ℚ) ^ quantumExp r ≠ 0 := by positivity
  rw [mul_eq_zero, or_iff_left h10]
  split <;> simp

/-- Of a finite record the decoder produces, the class says whether it is a zero (R166). -/
theorem cls_zero_iff (limit : Nat) (r : Record) (hw : Record.wf limit r = true) (hf : isFinite r = true) :
    r.cls = .zero ↔ valueOf r = 0 := by
  rw [valueOf_eq_zero_iff]
  unfold Record.wf at hw
  rcases (isFinite_iff r).mp hf with hc | hc <;> simp [hc] at hw ⊢
  · simp [hw]
  · intro h
    exact hw.1.1.2 (BitVec.eq_of_toNat_eq h)

/-- The sign of a nonzero value is the record's sign. -/
theorem valueOf_neg_iff (r : Record) : valueOf r < 0 ↔ r.s = true ∧ r.Cf.toNat ≠ 0 := by
  unfold valueOf signedCoef
  have hp : (0 : ℚ) < (10 : ℚ) ^ quantumExp r := by positivity
  have hnn : (0 : ℚ) ≤ r.Cf.toNat := by positivity
  rw [mul_neg_iff]
  cases r.s <;> simp [hp, hp.not_gt]
  omega

theorem abs_valueOf (r : Record) : |valueOf r| = (r.Cf.toNat : ℚ) * (10 : ℚ) ^ quantumExp r := by
  unfold valueOf signedCoef
  have hp : (0 : ℚ) < (10 : ℚ) ^ quantumExp r := by positivity
  rw [abs_mul, abs_of_pos hp]
  split <;> simp

/-- The value at an exponent not above the record's own. -/
theorem valueOf_at (r : Record) (e : Int) (h : e ≤ quantumExp r) :
    valueOf r = ((signedCoef r * 10 ^ (quantumExp r - e).toNat : Int) : ℚ) * (10 : ℚ) ^ e := by
  unfold valueOf
  have hp := natCast_pow_toNat (quantumExp r) e h
  push_cast at hp ⊢
  rw [mul_assoc, hp]
  field_simp

/-- The integer `ADD` rounds is the exact sum at the smaller exponent (R240). -/
theorem exactSum_value (x y : Record) :
    valueOf x + valueOf y = (exactSum x y : ℚ) * (10 : ℚ) ^ (min (quantumExp x) (quantumExp y)) := by
  rw [valueOf_at x _ (min_le_left (quantumExp x) (quantumExp y)),
    valueOf_at y _ (min_le_right (quantumExp x) (quantumExp y)), exactSum]
  push_cast
  ring

/-- The integer `FMA` rounds is the exact product and sum at the smaller exponent (R282). -/
theorem exactFma_value (x y z : Record) :
    valueOf x * valueOf y + valueOf z =
      (exactFma x y z : ℚ) * (10 : ℚ) ^ (min (quantumExp x + quantumExp y) (quantumExp z)) := by
  have hz := valueOf_at z _ (min_le_right (quantumExp x + quantumExp y) (quantumExp z))
  have hp := natCast_pow_toNat (quantumExp x + quantumExp y) _
    (min_le_left (quantumExp x + quantumExp y) (quantumExp z))
  have hxy : valueOf x * valueOf y =
      ((signedCoef x * signedCoef y * 10 ^ (quantumExp x + quantumExp y -
        min (quantumExp x + quantumExp y) (quantumExp z)).toNat : Int) : ℚ) *
        (10 : ℚ) ^ (min (quantumExp x + quantumExp y) (quantumExp z)) := by
    unfold valueOf
    push_cast at hp ⊢
    rw [mul_assoc (_ * _), hp, zpow_add₀ (by norm_num)]
    field_simp
  rw [hxy, hz, exactFma]
  push_cast
  ring

/-- A clamped exponent fits the exponent field. -/
theorem biased_clamp_lt (e : Int) : biased (clamp e Config.QMIN Config.QMAX) < 2 ^ 14 := by
  have h := clamp_mem e Config.QMIN Config.QMAX (by decide)
  simp only [biased, Config.QMIN, Config.QMAX, Config.BIAS] at *
  omega

/-- A decoded record's exponent is at most the largest biased exponent (R169). -/
theorem wf_exponent_le (limit : Nat) (r : Record) (h : Record.wf limit r = true) :
    r.E.toNat ≤ Config.EBMAX := by
  unfold Record.wf at h
  cases hc : r.cls <;> simp [hc] at h <;> simp [h]

theorem infWord_eq (s : Bool) : infWord s = infinityOf s := by cases s <;> decide +kernel

theorem dnan_eq : dnan = defaultNaN := by decide +kernel

theorem qnanWord_toNat (s : Bool) (PL : BitVec 110) :
    (qnanWord s PL).toNat = s.toNat * 2 ^ 127 + 0x7C * 2 ^ 120 + PL.toNat := by
  unfold qnanWord
  have hPL := PL.isLt
  simp only [BitVec.toNat_append, BitVec.toNat_ofBool]
  rw [← Nat.shiftLeft_add_eq_or_of_lt hPL, ← Nat.shiftLeft_add_eq_or_of_lt (by decide),
    ← Nat.shiftLeft_add_eq_or_of_lt (by decide)]
  simp only [Nat.shiftLeft_eq]
  norm_num
  omega

end Sys2Proof.Machine
end

