-- ==== Sys2Proof/Tests/Slice0.lean ====
section
/-!
SUPPORT. Tests and witnesses. Expected values are those of spec/95_test_vectors.md (each test names its
vectors) or of the encoding tables of spec/30_encoding.md, written out by hand; none is the model's answer.
-/
namespace Sys2Proof.Tests

open Sys2Proof.Machine

set_option Elab.async false

/-! Helpers: a small state, one step, and what it leaves. -/

/-- What is observed after one step. -/
def after (s : State) : Option Observation :=
  match step s with
  | .next t => some (observe t)
  | .fault _ => none
  | .refused _ => none

/-- Reset with one request pending. -/
def asked (r : Request) : State := { State.reset with pending := [r] }

/-- What one operation request leaves after reset. -/
def op (cmd : CommandWord) (a b c : Word) : Option Observation := after (asked (.operation cmd ⟨a, b, c⟩))

/-- The same under other model arguments. -/
def opWith (args : ModelArgs) (cmd : CommandWord) (a b c : Word) : Option Observation :=
  after { State.resetWith args with pending := [.operation cmd ⟨a, b, c⟩] }

/-- `RES` driven and flags left, with no mark. -/
def res (w : Word) (F : FlagWord) : Option Observation := some ⟨[.res w], F, [], []⟩

/-- What one unit function request leaves after reset. -/
def unit (ufc : UnitCode) (u : UnitPorts) : Option Observation := after (asked (.unitFunction ufc u))

/-- One output driven, no flag, no mark. -/
def out (o : Output) : Option Observation := some ⟨[o], 0#6, [], []⟩

/-- One fault mark, nothing driven, no flag (R361). -/
def faulted (f : Fault) : Option Observation := some ⟨[], 0#6, [f], []⟩

/-- One refusal mark, nothing driven, no flag (R83, R84). -/
def refusedWith (r : Refusal) : Option Observation := some ⟨[], 0#6, [], [r]⟩

/-- The values of `FLAGS` read after one step. -/
def readAfter (s : State) : List FlagWord :=
  match step s with
  | .next t => t.reads
  | .fault _ => []
  | .refused _ => []

/-- Integer inputs. -/
def ints (a b : Nat) (cin : Bool) : UnitPorts :=
  { UnitPorts.reset with ia := BitVec.ofNat 512 a, ib := BitVec.ofNat 512 b, cin := cin }

/-- Inputs of the rounding engine. -/
def rndIn (C x : Nat) : UnitPorts := { UnitPorts.reset with ia := BitVec.ofNat 512 C, discard := x }

/-- Inputs of `RMCORR`, in the order of R207. -/
def corrIn (s : Bool) (rm : Rm) (C : Nat) (e : Int) (i : Indicators) (n : Nat) (carried : Bool) : UnitPorts :=
  { UnitPorts.reset with s := s, rm := rm, coef := C, exp := e, ind := i, n := n, carried := carried }

/-- Inputs of `ASSEMBLE`, in the order of R208. -/
def asmIn (s : Bool) (C : Nat) (e : Int) (rm : Rm) (inexact tiny : Bool) : UnitPorts :=
  { UnitPorts.reset with s := s, coef := C, exp := e, rm := rm, inexact := inexact, tiny := tiny }

/-- Inputs of `PACK`. -/
def packIn (s : Bool) (E Cf : Nat) : UnitPorts := { UnitPorts.reset with s := s, E := E, coef := Cf }

/-- A finite record with coefficient `C` at exponent `e`. -/
def fin (s : Bool) (C : Nat) (e : Int) : Record :=
  ⟨.finite, s, BitVec.ofNat 14 (e + 6176).toNat, BitVec.ofNat 113 C, 0#110⟩

/-- A NaN record. -/
def nan (c : Cls) (s : Bool) (PL : Nat) : Record := ⟨c, s, 0#14, 0#113, BitVec.ofNat 110 PL⟩

/-- Two record inputs. -/
def recs (x y : Record) : UnitPorts := { UnitPorts.reset with x := x, y := y }

/-- Product and addend. -/
def prodIn (C4 q4 : Nat) (e4 : Int) (z : Record) : UnitPorts :=
  { UnitPorts.reset with prod := ⟨false, BitVec.ofNat 256 C4, q4, e4⟩, x := z }

/-! Well-formedness: each check refuses an ill-formed term. -/

theorem test_wf_command : CommandWord.wf 0b100011#6 = true ∧ CommandWord.wf 0b000100#6 = false ∧
    CommandWord.wf 0b101000#6 = false := by decide +kernel

theorem test_wf_unit_code : UnitCode.wf 0x1B#8 = true ∧ UnitCode.wf 0x1C#8 = false ∧ UnitCode.wf 0x03#8 = false ∧
    UnitCode.wf 0x27#8 = false ∧ UnitCode.wf 0x32#8 = false ∧ UnitCode.wf 0x42#8 = false ∧
    UnitCode.wf 0x54#8 = false ∧ UnitCode.wf 0x62#8 = false ∧ UnitCode.wf 0x73#8 = false ∧
    UnitCode.wf 0x80#8 = false := by decide +kernel

theorem test_wf_zero_and_finite_record : Record.wf 0 (fin false 1 0) = true ∧
    Record.wf 0 { fin false 1 0 with E := 12288#14 } = false ∧
    Record.wf 0 { fin false 1 0 with Cf := BitVec.ofNat 113 (10 ^ 34) } = false ∧
    Record.wf 0 { fin false 1 0 with Cf := 0 } = false ∧ Record.wf 0 { fin false 1 0 with PL := 1 } = false ∧
    Record.wf 0 Record.reset = true ∧ Record.wf 0 { Record.reset with Cf := 1 } = false ∧
    Record.wf 0 { Record.reset with PL := 1 } = false ∧
    Record.wf 0 { Record.reset with E := 12288#14 } = false := by decide +kernel

theorem test_wf_special_record : Record.wf 5 (nan .inf false 0) = true ∧
    Record.wf 5 { nan .inf false 0 with E := 1 } = false ∧ Record.wf 5 { nan .inf false 0 with Cf := 1 } = false ∧
    Record.wf 5 (nan .inf false 1) = false ∧ Record.wf 5 (nan .qnan true 5) = true ∧
    Record.wf 5 (nan .qnan true 6) = false ∧ Record.wf 5 { nan .qnan true 5 with E := 1 } = false ∧
    Record.wf 5 { nan .qnan true 5 with Cf := 1 } = false ∧ Record.wf 5 (nan .snan true 6) = false ∧
    Record.wf 5 { nan .snan true 5 with E := 1 } = false ∧
    Record.wf 5 { nan .snan true 5 with Cf := 1 } = false := by decide +kernel

theorem test_wf_indicators : Indicators.wf ⟨false, false, false, true⟩ = true ∧
    Indicators.wf ⟨true, false, true, false⟩ = false ∧ Indicators.wf ⟨false, true, false, true⟩ = false := by
  decide +kernel

/-! Decoding: every constructor, from a code word written out from R77, R78, R79 and R81. -/

theorem test_decode_add : decodeCommand 0b000000#6 = .ok (.add .rn) ∧
    decodeCommand 0b001000#6 = .ok (.add .rd) ∧
    decodeCommand 0b010000#6 = .ok (.add .ru) ∧
    decodeCommand 0b011000#6 = .ok (.add .rz) ∧
    decodeCommand 0b100000#6 = .ok (.add .ra) := by decide +kernel

theorem test_decode_mul : decodeCommand 0b000001#6 = .ok (.mul .rn) ∧
    decodeCommand 0b001001#6 = .ok (.mul .rd) ∧
    decodeCommand 0b010001#6 = .ok (.mul .ru) ∧
    decodeCommand 0b011001#6 = .ok (.mul .rz) ∧
    decodeCommand 0b100001#6 = .ok (.mul .ra) := by decide +kernel

theorem test_decode_fma : decodeCommand 0b000010#6 = .ok (.fma .rn) ∧
    decodeCommand 0b001010#6 = .ok (.fma .rd) ∧
    decodeCommand 0b010010#6 = .ok (.fma .ru) ∧
    decodeCommand 0b011010#6 = .ok (.fma .rz) ∧
    decodeCommand 0b100010#6 = .ok (.fma .ra) := by decide +kernel

theorem test_decode_div : decodeCommand 0b000011#6 = .ok (.div .rn) ∧
    decodeCommand 0b001011#6 = .ok (.div .rd) ∧
    decodeCommand 0b010011#6 = .ok (.div .ru) ∧
    decodeCommand 0b011011#6 = .ok (.div .rz) ∧
    decodeCommand 0b100011#6 = .ok (.div .ra) := by decide +kernel

theorem test_decode_decoder : decodeUnit 0b00000000#8 = .ok .unpack ∧
    decodeUnit 0b00000001#8 = .ok .pack ∧
    decodeUnit 0b00000010#8 = .ok .quietnan := by
  decide +kernel

theorem test_decode_adders_and_subtractors : decodeUnit 0b00010000#8 = .ok .mwadd64 ∧
    decodeUnit 0b00010001#8 = .ok .mwsub64 ∧
    decodeUnit 0b00010010#8 = .ok .mwadd128 ∧
    decodeUnit 0b00010011#8 = .ok .mwsub128 ∧
    decodeUnit 0b00010100#8 = .ok .mwadd192 ∧
    decodeUnit 0b00010101#8 = .ok .mwsub192 ∧
    decodeUnit 0b00010110#8 = .ok .mwadd256 ∧
    decodeUnit 0b00010111#8 = .ok .mwsub256 ∧
    decodeUnit 0b00011000#8 = .ok .mwadd384 ∧
    decodeUnit 0b00011001#8 = .ok .mwsub384 ∧
    decodeUnit 0b00011010#8 = .ok .mwadd512 ∧
    decodeUnit 0b00011011#8 = .ok .mwsub512 := by
  decide +kernel

theorem test_decode_multipliers : decodeUnit 0b00100000#8 = .ok .mul64x64_128 ∧
    decodeUnit 0b00100001#8 = .ok .mul64x128_128 ∧
    decodeUnit 0b00100010#8 = .ok .mul64x128_192 ∧
    decodeUnit 0b00100011#8 = .ok .mul128x128_256 ∧
    decodeUnit 0b00100100#8 = .ok .mul128x192_320 ∧
    decodeUnit 0b00100101#8 = .ok .mul192x192_384 ∧
    decodeUnit 0b00100110#8 = .ok .mul256x256_512 := by
  decide +kernel

theorem test_decode_dividers : decodeUnit 0b00110000#8 = .ok .div128by128 ∧
    decodeUnit 0b00110001#8 = .ok .div256by128 := by
  decide +kernel

theorem test_decode_digit_counters : decodeUnit 0b01000000#8 = .ok .dcnt128 ∧
    decodeUnit 0b01000001#8 = .ok .dcnt256 := by
  decide +kernel

theorem test_decode_rounding_engine : decodeUnit 0b01010000#8 = .ok .rnd64 ∧
    decodeUnit 0b01010001#8 = .ok .rnd128 ∧
    decodeUnit 0b01010010#8 = .ok .rnd192 ∧
    decodeUnit 0b01010011#8 = .ok .rnd256 := by
  decide +kernel

theorem test_decode_correction_and_assembly : decodeUnit 0b01100000#8 = .ok .rmcorr ∧
    decodeUnit 0b01100001#8 = .ok .assemble := by
  decide +kernel

theorem test_decode_alignment_and_scaling : decodeUnit 0b01110000#8 = .ok .alignAdd ∧
    decodeUnit 0b01110001#8 = .ok .alignFma ∧
    decodeUnit 0b01110010#8 = .ok .divscale := by
  decide +kernel

/-- Numbers of the opcode table: the two number spaces, and the reserved numbers (log entry 13). -/
theorem test_table_words : decodeTableWord 8 0x00 = some (.add .rn) ∧ decodeTableWord 8 0x03 = some (.div .rn) ∧
    decodeTableWord 8 0x0B = some (.div .rd) ∧ decodeTableWord 8 0x10 = some .mwadd64 ∧
    decodeTableWord 8 0x72 = some .divscale ∧ decodeTableWord 8 0x73 = none ∧ decodeTableWord 8 0x04 = none ∧
    decodeTableWord 8 0x100 = none := by decide +kernel

/-- The request placed by `withFetchWord` is the very next one, and runs. -/
theorem test_withFetchWord : after (State.reset.withFetchWord 8 0x00) = res 0#128 0#6 ∧
    after (State.reset.withFetchWord 8 0x10) = out (.sum 64 0#64 false) := by decide +kernel

/-! One step each, from the vectors of spec/95_test_vectors.md. -/

/-- An absorbed operand, every mode and both sides. Vectors A3, A4, A5, A6, A7, A9, A11, A12. -/
theorem test_add_rounds_in_every_mode : op 0x00#6 0x30900000000000000000000000000001#128 0x30400000000000000000000000000001#128 0x00000000000000000000000000000000#128 =
      res 0x304E314DC6448D9338C15B0A00000000#128 0x20#6 ∧
    op 0x08#6 0x30900000000000000000000000000001#128 0x30400000000000000000000000000001#128 0x00000000000000000000000000000000#128 =
      res 0x304E314DC6448D9338C15B0A00000000#128 0x20#6 ∧
    op 0x10#6 0x30900000000000000000000000000001#128 0x30400000000000000000000000000001#128 0x00000000000000000000000000000000#128 =
      res 0x304E314DC6448D9338C15B0A00000001#128 0x20#6 ∧
    op 0x18#6 0x30900000000000000000000000000001#128 0x30400000000000000000000000000001#128 0x00000000000000000000000000000000#128 =
      res 0x304E314DC6448D9338C15B0A00000000#128 0x20#6 ∧
    op 0x20#6 0x30900000000000000000000000000001#128 0x30400000000000000000000000000001#128 0x00000000000000000000000000000000#128 =
      res 0x304E314DC6448D9338C15B0A00000000#128 0x20#6 ∧
    op 0x08#6 0x30900000000000000000000000000001#128 0xB0400000000000000000000000000001#128 0x00000000000000000000000000000000#128 =
      res 0x304DED09BEAD87C0378D8E63FFFFFFFF#128 0x20#6 ∧
    op 0x00#6 0x30900000000000000000000000000001#128 0xB04A0000000000000000000000000006#128 0x00000000000000000000000000000000#128 =
      res 0x304DED09BEAD87C0378D8E63FFFFFFFF#128 0x20#6 ∧
    op 0x00#6 0x30900000000000000000000000000001#128 0xB04A0000000000000000000000000005#128 0x00000000000000000000000000000000#128 =
      res 0x304E314DC6448D9338C15B0A00000000#128 0x20#6 := by
  decide +kernel

/-- Exact zeros, a NaN, infinities, overflow, a subnormal. Vectors A18, A20, A23, A26, A33, A37, A38. -/
theorem test_add_special_cases : op 0x08#6 0x30400000000000000000000000000001#128 0xB0400000000000000000000000000001#128 0x00000000000000000000000000000000#128 =
      res 0xB0400000000000000000000000000000#128 0x00#6 ∧
    op 0x00#6 0x304A0000000000000000000000000001#128 0x30400000000000000000000000000000#128 0x00000000000000000000000000000000#128 =
      res 0x304000000000000000000000000186A0#128 0x00#6 ∧
    op 0x00#6 0x00420000000000000000000000000001#128 0x80000000000000000000000000000001#128 0x00000000000000000000000000000000#128 =
      res 0x0000314DC6448D9338C15B09FFFFFFFF#128 0x00#6 ∧
    op 0x08#6 0x5FFFED09BEAD87C0378D8E63FFFFFFFF#128 0x5FFFED09BEAD87C0378D8E63FFFFFFFF#128 0x00000000000000000000000000000000#128 =
      res 0x5FFFED09BEAD87C0378D8E63FFFFFFFF#128 0x28#6 ∧
    op 0x00#6 0x78000000000000000000000000000000#128 0xF8000000000000000000000000000000#128 0x00000000000000000000000000000000#128 =
      res 0x7C000000000000000000000000000000#128 0x01#6 ∧
    op 0x00#6 0x30400000000000000000000000000001#128 0xFE000000000000000000000000000007#128 0x00000000000000000000000000000000#128 =
      res 0xFC000000000000000000000000000007#128 0x01#6 ∧
    op 0x00#6 0x3041ED09BEAD87C0378D8E6400000000#128 0x30400000000000000000000000000001#128 0x00000000000000000000000000000000#128 =
      res 0x30400000000000000000000000000001#128 0x00#6 := by
  decide +kernel

/-- Rounding, overflow and underflow by mode. Vectors M2, M3, M6, M23, M24, M25, M30. -/
theorem test_mul_rounds_and_underflows : op 0x01#6 0x3041ED09BEAD87C0378D8E63FFFFFFFF#128 0x3041ED09BEAD87C0378D8E63FFFFFFFF#128 0x00000000000000000000000000000000#128 =
      res 0x3085ED09BEAD87C0378D8E63FFFFFFFE#128 0x20#6 ∧
    op 0x11#6 0x3041ED09BEAD87C0378D8E63FFFFFFFF#128 0x3041ED09BEAD87C0378D8E63FFFFFFFF#128 0x00000000000000000000000000000000#128 =
      res 0x3085ED09BEAD87C0378D8E63FFFFFFFF#128 0x20#6 ∧
    op 0x09#6 0x5FFFED09BEAD87C0378D8E63FFFFFFFF#128 0x3040000000000000000000000000000A#128 0x00000000000000000000000000000000#128 =
      res 0x5FFFED09BEAD87C0378D8E63FFFFFFFF#128 0x28#6 ∧
    op 0x11#6 0x00000000000000000000000000000005#128 0x303E0000000000000000000000000001#128 0x00000000000000000000000000000000#128 =
      res 0x00000000000000000000000000000001#128 0x30#6 ∧
    op 0x19#6 0x00000000000000000000000000000005#128 0x303E0000000000000000000000000001#128 0x00000000000000000000000000000000#128 =
      res 0x00000000000000000000000000000000#128 0x30#6 ∧
    op 0x21#6 0x00000000000000000000000000000005#128 0x303E0000000000000000000000000001#128 0x00000000000000000000000000000000#128 =
      res 0x00000000000000000000000000000001#128 0x30#6 ∧
    op 0x01#6 0x303C000000000000000000000001869F#128 0x0000000C9F34E26AC853DAE0E5E3EAA1#128 0x00000000000000000000000000000000#128 =
      res 0x0000314DC6448D9338C15B0A00000000#128 0x20#6 := by
  decide +kernel

/-- Tininess before rounding, and the other NaN order. Vectors M15, M31, M33. -/
theorem test_mul_model_arguments : op 0x01#6 0xB0400000000000000000000000000002#128 0x30400000000000000000000000000000#128 0x00000000000000000000000000000000#128 =
      res 0xB0400000000000000000000000000000#128 0x00#6 ∧
    opWith { ModelArgs.default with tininess := .before } 0x01#6 0x303C000000000000000000000001869F#128 0x0000000C9F34E26AC853DAE0E5E3EAA1#128 0x00000000000000000000000000000000#128 =
      res 0x0000314DC6448D9338C15B0A00000000#128 0x30#6 ∧
    opWith { ModelArgs.default with mulNanFirst := .b } 0x01#6 0x7C000000000000000000000000000001#128
      0x7C000000000000000000000000000002#128 0#128 = res 0x7C000000000000000000000000000002#128 0x00#6 := by
  decide +kernel

/-- One rounding, the three regions, an exact zero. Vectors F2, F3, F5, F6, F10. -/
theorem test_fma_rounds_once : op 0x02#6 0x3040000000000000016345785D8A0001#128 0x3040000000000000016345785D8A0001#128 0xB0840000000000000000000000000001#128 =
      res 0x304000000000000002C68AF0BB140001#128 0x00#6 ∧
    op 0x12#6 0x30400000000000000000000000000001#128 0x30400000000000000000000000000001#128 0x30900000000000000000000000000001#128 =
      res 0x304E314DC6448D9338C15B0A00000001#128 0x20#6 ∧
    op 0x02#6 0x3041ED09BEAD87C0378D8E63FFFFFFFF#128 0x3041ED09BEAD87C0378D8E63FFFFFFFF#128 0xB085ED09BEAD87C0378D8E63FFFFFFFF#128 =
      res 0xB041ED09BEAD87C0378D8E63FFFFFFFF#128 0x00#6 ∧
    op 0x1A#6 0x3041ED09BEAD87C0378D8E63FFFFFFFF#128 0x3041ED09BEAD87C0378D8E63FFFFFFFF#128 0xB02C0000000000000000000000000001#128 =
      res 0x3085ED09BEAD87C0378D8E63FFFFFFFE#128 0x20#6 ∧
    op 0x0A#6 0x30400000000000000000000000000001#128 0x30400000000000000000000000000001#128 0xB0400000000000000000000000000001#128 =
      res 0xB0400000000000000000000000000000#128 0x00#6 := by
  decide +kernel

/-- Infinities and the NaN order. Vectors F14, F15, F16, F19, F20. -/
theorem test_fma_special_cases : op 0x02#6 0x78000000000000000000000000000000#128 0x30400000000000000000000000000000#128 0x30400000000000000000000000000001#128 =
      res 0x7C000000000000000000000000000000#128 0x01#6 ∧
    op 0x02#6 0x78000000000000000000000000000000#128 0x30400000000000000000000000000000#128 0x7C000000000000000000000000000003#128 =
      res 0x7C000000000000000000000000000003#128 0x00#6 ∧
    op 0x02#6 0x78000000000000000000000000000000#128 0x30400000000000000000000000000001#128 0xF8000000000000000000000000000000#128 =
      res 0x7C000000000000000000000000000000#128 0x01#6 ∧
    op 0x02#6 0x7E000000000000000000000000000001#128 0x7C000000000000000000000000000002#128 0x30400000000000000000000000000001#128 =
      res 0x7C000000000000000000000000000002#128 0x01#6 ∧
    op 0x02#6 0x7C000000000000000000000000000001#128 0x30400000000000000000000000000001#128 0x7C000000000000000000000000000003#128 =
      res 0x7C000000000000000000000000000003#128 0x00#6 := by
  decide +kernel

/-- A nonterminating quotient in every mode. Vectors D4, D5, D6, D7, D8, D16, D17. -/
theorem test_div_rounds_in_every_mode : op 0x03#6 0x30400000000000000000000000000001#128 0x30400000000000000000000000000007#128 0x00000000000000000000000000000000#128 =
      res 0x2FFC466F1B3D5C892C81EFC524924925#128 0x20#6 ∧
    op 0x0B#6 0x30400000000000000000000000000001#128 0x30400000000000000000000000000007#128 0x00000000000000000000000000000000#128 =
      res 0x2FFC466F1B3D5C892C81EFC524924924#128 0x20#6 ∧
    op 0x13#6 0x30400000000000000000000000000001#128 0x30400000000000000000000000000007#128 0x00000000000000000000000000000000#128 =
      res 0x2FFC466F1B3D5C892C81EFC524924925#128 0x20#6 ∧
    op 0x1B#6 0x30400000000000000000000000000001#128 0x30400000000000000000000000000007#128 0x00000000000000000000000000000000#128 =
      res 0x2FFC466F1B3D5C892C81EFC524924924#128 0x20#6 ∧
    op 0x23#6 0x30400000000000000000000000000001#128 0x30400000000000000000000000000007#128 0x00000000000000000000000000000000#128 =
      res 0x2FFC466F1B3D5C892C81EFC524924925#128 0x20#6 ∧
    op 0x03#6 0x30400000000000000000000000000001#128 0x3041ED09BEAD87C0378D8E63FFFFFFFF#128 0x00000000000000000000000000000000#128 =
      res 0x2FBA314DC6448D9338C15B0A00000000#128 0x20#6 ∧
    op 0x03#6 0x3041ED09BEAD87C0378D8E63FFFFFFFF#128 0x30400000000000000000000000000002#128 0x00000000000000000000000000000000#128 =
      res 0x3040F684DF56C3E01BC6C73200000000#128 0x20#6 := by
  decide +kernel

/-- Exact quotients, zeros, infinities, folding down, underflow. Vectors D13, D21, D22, D26, D33, D35. -/
theorem test_div_special_cases : op 0x03#6 0x30400000000000000000000000000064#128 0x30400000000000000000000000000001#128 0x00000000000000000000000000000000#128 =
      res 0x30400000000000000000000000000064#128 0x00#6 ∧
    op 0x03#6 0x30400000000000000000000000000000#128 0x30400000000000000000000000000000#128 0x00000000000000000000000000000000#128 =
      res 0x7C000000000000000000000000000000#128 0x01#6 ∧
    op 0x03#6 0x30400000000000000000000000000001#128 0xB0400000000000000000000000000000#128 0x00000000000000000000000000000000#128 =
      res 0xF8000000000000000000000000000000#128 0x04#6 ∧
    op 0x03#6 0xB0400000000000000000000000000001#128 0x78000000000000000000000000000000#128 0x00000000000000000000000000000000#128 =
      res 0x80000000000000000000000000000000#128 0x00#6 ∧
    op 0x03#6 0x5FFA0000000000000000000000000001#128 0x303A0000000000000000000000000001#128 0x00000000000000000000000000000000#128 =
      res 0x5FFE000000000000000000000000000A#128 0x00#6 ∧
    op 0x03#6 0x00000000000000000000000000000003#128 0x30400000000000000000000000000002#128 0x00000000000000000000000000000000#128 =
      res 0x00000000000000000000000000000002#128 0x30#6 := by
  decide +kernel

/-- Vectors U1, U2, U3, U9. -/
theorem test_unpack_finite : unit 0x00#8 ({ UnitPorts.reset with w := 0x30400000000000000000000000000001#128 }) = out (.record ⟨.finite, false, 6176#14, 1#113, 0#110⟩) ∧
    unit 0x00#8 ({ UnitPorts.reset with w := 0x3041ED09BEAD87C0378D8E6400000000#128 }) = out (.record ⟨.zero, false, 6176#14, 0#113, 0#110⟩) ∧
    unit 0x00#8 ({ UnitPorts.reset with w := 0x6FFE0000000000000000000000000000#128 }) = out (.record ⟨.zero, false, 8188#14, 0#113, 0#110⟩) ∧
    unit 0x00#8 ({ UnitPorts.reset with w := 0x5FFFED09BEAD87C0378D8E63FFFFFFFF#128 }) = out (.record ⟨.finite, false, 12287#14, 9999999999999999999999999999999999#113, 0#110⟩) := by
  decide +kernel

/-- Vectors U4 to U7. -/
theorem test_unpack_special : unit 0x00#8 ({ UnitPorts.reset with w := 0x7A000000000000000000000000000000#128 }) = out (.record ⟨.inf, false, 0#14, 0#113, 0#110⟩) ∧
    unit 0x00#8 ({ UnitPorts.reset with w := 0x7D000000000000000000000000000003#128 }) = out (.record ⟨.qnan, false, 0#14, 0#113, 3#110⟩) ∧
    unit 0x00#8 ({ UnitPorts.reset with w := 0x7E000000000000000000000000000005#128 }) = out (.record ⟨.snan, false, 0#14, 0#113, 5#110⟩) ∧
    unit 0x00#8 ({ UnitPorts.reset with w := 0xFC00314DC6448D9338C15B0A00000000#128 }) = out (.record ⟨.qnan, true, 0#14, 0#113, 0#110⟩) := by
  decide +kernel

/-- Vectors U10, U11, U12. -/
theorem test_pack : unit 0x01#8 (packIn true 0 0) = out (.word 0x80000000000000000000000000000000#128) ∧
    unit 0x01#8 (packIn false 12287 9999999999999999999999999999999999) = out (.word 0x5FFFED09BEAD87C0378D8E63FFFFFFFF#128) ∧
    unit 0x01#8 (packIn false 6176 (10 ^ 33)) = out (.word 0x3040314DC6448D9338C15B0A00000000#128) := by
  decide +kernel

/-- Vectors X10, X11. -/
theorem test_pack_faults : unit 0x01#8 (packIn false 12288 1) = faulted .packRange ∧
    unit 0x01#8 (packIn false 0 (10 ^ 34)) = faulted .packRange := by
  decide +kernel

/-- Vectors U13, U15. -/
theorem test_quietnan : unit 0x02#8 (recs (nan .snan false 5) Record.reset) = out (.word 0x7C000000000000000000000000000005#128) ∧
    unit 0x02#8 (recs (nan .snan true 7) Record.reset) = out (.word 0xFC000000000000000000000000000007#128) := by
  decide +kernel

/-- Vector X12. -/
theorem test_quietnan_faults : unit 0x02#8 (recs (fin false 1 0) Record.reset) = faulted .notNaN := by
  decide +kernel

/-- Vector K2. -/
theorem test_mwadd64 : unit 0x10#8 (ints (2 ^ 64 - 1) (2 ^ 64 - 1) true) = out (.sum 64 (BitVec.ofNat 64 (2 ^ 64 - 1)) true) := by
  decide +kernel

/-- Vector K4. -/
theorem test_mwsub64 : unit 0x11#8 (ints (5) (5) true) = out (.sum 64 (BitVec.ofNat 64 (2 ^ 64 - 1)) true) := by
  decide +kernel

/-- Vector K5. -/
theorem test_mwadd128 : unit 0x12#8 (ints (2 ^ 64 - 1) (1) false) = out (.sum 128 (BitVec.ofNat 128 (2 ^ 64)) false) := by
  decide +kernel

/-- Vector K6. -/
theorem test_mwsub128 : unit 0x13#8 (ints (2 ^ 64) (1) false) = out (.sum 128 (BitVec.ofNat 128 (2 ^ 64 - 1)) false) := by
  decide +kernel

/-- Vector K7. -/
theorem test_mwadd192 : unit 0x14#8 (ints (2 ^ 192 - 1) (0) true) = out (.sum 192 (BitVec.ofNat 192 (0)) true) := by
  decide +kernel

/-- Vector K8. -/
theorem test_mwsub192 : unit 0x15#8 (ints (2 ^ 128) (1) false) = out (.sum 192 (BitVec.ofNat 192 (2 ^ 128 - 1)) false) := by
  decide +kernel

/-- Vector K9. -/
theorem test_mwadd256 : unit 0x16#8 (ints (2 ^ 192 - 1) (1) false) = out (.sum 256 (BitVec.ofNat 256 (2 ^ 192)) false) := by
  decide +kernel

/-- Vector K10. -/
theorem test_mwsub256 : unit 0x17#8 (ints (1) (2) false) = out (.sum 256 (BitVec.ofNat 256 (2 ^ 256 - 1)) true) := by
  decide +kernel

/-- Vector K11. -/
theorem test_mwadd384 : unit 0x18#8 (ints (2 ^ 384 - 1) (2 ^ 384 - 1) true) = out (.sum 384 (BitVec.ofNat 384 (2 ^ 384 - 1)) true) := by
  decide +kernel

/-- Vector K12. -/
theorem test_mwsub384 : unit 0x19#8 (ints (2 ^ 320) (2 ^ 256) false) = out (.sum 384 (BitVec.ofNat 384 (2 ^ 320 - 2 ^ 256)) false) := by
  decide +kernel

/-- Vector K13. -/
theorem test_mwadd512 : unit 0x1A#8 (ints (2 ^ 511) (2 ^ 511) false) = out (.sum 512 (BitVec.ofNat 512 (0)) true) := by
  decide +kernel

/-- Vector K14. -/
theorem test_mwsub512 : unit 0x1B#8 (ints (0) (1) false) = out (.sum 512 (BitVec.ofNat 512 (2 ^ 512 - 1)) true) := by
  decide +kernel

/-- Vector K16. -/
theorem test_mul64x64_128 : unit 0x20#8 (ints (2 ^ 64 - 1) (2 ^ 64 - 1) false) = out (.product 128 (BitVec.ofNat 128 (0xFFFFFFFFFFFFFFFE0000000000000001))) := by
  decide +kernel

/-- Vector K18. -/
theorem test_mul64x128_128 : unit 0x21#8 (ints (2 ^ 64 - 1) (2 ^ 128 - 1) false) = out (.product 128 (BitVec.ofNat 128 (0xFFFFFFFFFFFFFFFF0000000000000001))) := by
  decide +kernel

/-- Vector K19. -/
theorem test_mul64x128_192 : unit 0x22#8 (ints (2 ^ 63) (2 ^ 127) false) = out (.product 192 (BitVec.ofNat 192 (2 ^ 190))) := by
  decide +kernel

/-- Vector K20. -/
theorem test_mul128x128_256 : unit 0x23#8 (ints (2 ^ 64) (2 ^ 64) false) = out (.product 256 (BitVec.ofNat 256 (2 ^ 128))) := by
  decide +kernel

/-- Vector K22. -/
theorem test_mul128x192_320 : unit 0x24#8 (ints (2 ^ 127) (2 ^ 191) false) = out (.product 320 (BitVec.ofNat 320 (2 ^ 318))) := by
  decide +kernel

/-- Vector K23. -/
theorem test_mul192x192_384 : unit 0x25#8 (ints (10 ^ 34) (10 ^ 34) false) = out (.product 384 (BitVec.ofNat 384 (10 ^ 68))) := by
  decide +kernel

/-- Vector K25. -/
theorem test_mul256x256_512 : unit 0x26#8 (ints (2 ^ 256 - 1) (2 ^ 256 - 1) false) = out (.product 512 (BitVec.ofNat 512 (2 ^ 512 - 2 ^ 257 + 1))) := by
  decide +kernel

/-- Vectors K26, K27, K28. -/
theorem test_div128by128 : unit 0x30#8 (ints (10 ^ 34) (10 ^ 33) false) = out (.quotient (BitVec.ofNat 128 (10)) (BitVec.ofNat 128 (0))) ∧
    unit 0x30#8 (ints 5 7 false) = out (.quotient (BitVec.ofNat 128 (0)) (BitVec.ofNat 128 (5))) ∧
    unit 0x30#8 (ints (2 ^ 128 - 1) (2 ^ 127) false) = out (.quotient (BitVec.ofNat 128 (1)) (BitVec.ofNat 128 (0x7FFFFFFFFFFFFFFFFFFFFFFFFFFFFFFF))) := by
  decide +kernel

/-- Vector X5. -/
theorem test_div128by128_faults : unit 0x30#8 (ints 5 0 false) = faulted .divideByZeroDivisor := by
  decide +kernel

/-- Vectors K29, K30, K31. -/
theorem test_div256by128 : unit 0x31#8 (ints ((10 ^ 34 - 1) * 10 ^ 34 + 12345) (10 ^ 34 - 1) false) = out (.quotient (BitVec.ofNat 128 (10 ^ 34)) (BitVec.ofNat 128 (12345))) ∧
    unit 0x31#8 (ints (2 ^ 255 + 5) (2 ^ 128 - 1) false) = out (.quotient (BitVec.ofNat 128 (2 ^ 127)) (BitVec.ofNat 128 (2 ^ 127 + 5))) ∧
    unit 0x31#8 (ints (10 ^ 67) (10 ^ 34 - 1) false) = out (.quotient (BitVec.ofNat 128 (10 ^ 33)) (BitVec.ofNat 128 (10 ^ 33))) := by
  decide +kernel

/-- Vector X6. -/
theorem test_div256by128_faults : unit 0x31#8 (ints (2 ^ 128) 1 false) = faulted .quotientOverflow := by
  decide +kernel

/-- Vectors K33 to K37. -/
theorem test_dcnt128 : unit 0x40#8 (ints 9 0 false) = out (.digitCount 1) ∧
    unit 0x40#8 (ints 10 0 false) = out (.digitCount 2) ∧
    unit 0x40#8 (ints (10 ^ 33) 0 false) = out (.digitCount 34) ∧
    unit 0x40#8 (ints (10 ^ 34 - 1) 0 false) = out (.digitCount 34) ∧
    unit 0x40#8 (ints (2 ^ 128 - 1) 0 false) = out (.digitCount 39) := by
  decide +kernel

/-- Vector X7. -/
theorem test_dcnt128_faults : unit 0x40#8 (ints 0 0 false) = faulted .zeroDigitCount := by
  decide +kernel

/-- Vectors K38, K39, K40. -/
theorem test_dcnt256 : unit 0x41#8 (ints (10 ^ 40) 0 false) = out (.digitCount 41) ∧
    unit 0x41#8 (ints ((10 ^ 34 - 1) ^ 2) 0 false) = out (.digitCount 68) ∧
    unit 0x41#8 (ints (10 ^ 68) 0 false) = out (.digitCount 69) := by
  decide +kernel

/-- Vectors K41 to K44. -/
theorem test_rnd64 : unit 0x50#8 (rndIn 12345 2) = out (.rounded 64 (BitVec.ofNat 64 (123)) false indLtMid) ∧
    unit 0x50#8 (rndIn 12350 2) = out (.rounded 64 (BitVec.ofNat 64 (124)) false indMidUp) ∧
    unit 0x50#8 (rndIn 12250 2) = out (.rounded 64 (BitVec.ofNat 64 (122)) false indMidDn) ∧
    unit 0x50#8 (rndIn 999999999999999999 1) = out (.rounded 64 (BitVec.ofNat 64 (10 ^ 16)) true indGtMid) := by
  decide +kernel

/-- Vector X8. -/
theorem test_rnd64_faults : unit 0x50#8 (rndIn 5 1) = faulted .roundRange := by
  decide +kernel

/-- Vectors K46, K47, K48, K50. -/
theorem test_rnd128 : unit 0x51#8 (rndIn (10 ^ 34 + 5) 1) = out (.rounded 128 (BitVec.ofNat 128 (10 ^ 33)) false indMidDn) ∧
    unit 0x51#8 (rndIn (10 ^ 38 - 1) 4) = out (.rounded 128 (BitVec.ofNat 128 (10 ^ 33)) true indGtMid) ∧
    unit 0x51#8 (rndIn 99999999999999999999999999999999995 1) = out (.rounded 128 (BitVec.ofNat 128 (10 ^ 33)) true indMidUp) ∧
    unit 0x51#8 (rndIn 123456789012345678901234567890123456 2) = out (.rounded 128 (BitVec.ofNat 128 (1234567890123456789012345678901235)) false indGtMid) := by
  decide +kernel

/-- Vector X9. -/
theorem test_rnd128_faults : unit 0x51#8 (rndIn (10 ^ 34) 35) = faulted .roundRange := by
  decide +kernel

/-- Vectors K51, K52. -/
theorem test_rnd192 : unit 0x52#8 (rndIn (5 * 10 ^ 56 + 5 * 10 ^ 22) 23) = out (.rounded 192 (BitVec.ofNat 192 (5 * 10 ^ 33)) false indMidDn) ∧
    unit 0x52#8 (rndIn (10 ^ 57 - 1) 23) = out (.rounded 192 (BitVec.ofNat 192 (10 ^ 33)) true indGtMid) := by
  decide +kernel

/-- Vectors K53, K54, K55. -/
theorem test_rnd256 : unit 0x53#8 (rndIn (10 ^ 76 - 1) 42) = out (.rounded 256 (BitVec.ofNat 256 (10 ^ 33)) true indGtMid) ∧
    unit 0x53#8 (rndIn (5 * 10 ^ 75) 75) = out (.rounded 256 (BitVec.ofNat 256 (5)) false indExact) ∧
    unit 0x53#8 (rndIn ((10 ^ 34 - 1) ^ 2) 34) = out (.rounded 256 (BitVec.ofNat 256 (9999999999999999999999999999999998)) false indLtMid) := by
  decide +kernel

/-- Vectors K56, K58, K59, K62, K63, at exponent 9. -/
theorem test_rmcorr_one_step : unit 0x60#8 (corrIn false .ra (10 ^ 33) 9 indMidDn 34 false) = out (.corrected (10 ^ 33 + 1) (9)) ∧
    unit 0x60#8 (corrIn false .rz (10 ^ 33) 9 indMidDn 34 false) = out (.corrected (10 ^ 33) (9)) ∧
    unit 0x60#8 (corrIn true .rd (10 ^ 33) 9 indMidDn 34 false) = out (.corrected (10 ^ 33 + 1) (9)) ∧
    unit 0x60#8 (corrIn true .ru 124 9 indMidUp 3 false) = out (.corrected (123) (9)) ∧
    unit 0x60#8 (corrIn false .rn 124 9 indMidUp 3 false) = out (.corrected (124) (9)) := by
  decide +kernel

/-- Vectors K60, K61, at exponent 9. -/
theorem test_rmcorr_decades : unit 0x60#8 (corrIn false .ru (10 ^ 34 - 1) 9 indLtMid 34 false) = out (.corrected (10 ^ 33) (10)) ∧
    unit 0x60#8 (corrIn false .rz (10 ^ 33) 10 indGtMid 34 true) = out (.corrected (10 ^ 34 - 1) (9)) := by
  decide +kernel

/-- Vectors K64 to K69. -/
theorem test_assemble : unit 0x61#8 (asmIn false (10 ^ 34 - 1) 6112 .rn true false) = out (.assembled 0x78000000000000000000000000000000#128 0x28#6) ∧
    unit 0x61#8 (asmIn true (10 ^ 34 - 1) 6112 .rz true false) = out (.assembled 0xDFFFED09BEAD87C0378D8E63FFFFFFFF#128 0x28#6) ∧
    unit 0x61#8 (asmIn false 10 6112 .rn false false) = out (.assembled 0x5FFE0000000000000000000000000064#128 0x00#6) ∧
    unit 0x61#8 (asmIn false (10 ^ 34 - 1) 6112 .rn false false) = out (.assembled 0x78000000000000000000000000000000#128 0x28#6) ∧
    unit 0x61#8 (asmIn false 1 0 .rn true false) = out (.assembled 0x30400000000000000000000000000001#128 0x20#6) ∧
    unit 0x61#8 (asmIn false 1 (-6176) .rn true true) = out (.assembled 0x00000000000000000000000000000001#128 0x30#6) := by
  decide +kernel

/-- Vector X13. -/
theorem test_assemble_faults : unit 0x61#8 (asmIn false 1 (-6177) .rn true true) = faulted .exponentRange := by
  decide +kernel

/-- Vectors K72, K73, K74, K76. -/
theorem test_align_add : unit 0x70#8 (recs (fin false 1 40) (fin true 6 5)) = out (.addAligned ⟨fin false 1 40, fin true 6 5, 35, .absorb, true, 33, 0, 7⟩) ∧
    unit 0x70#8 (recs (fin false 1 0) (fin false 1 40)) = out (.addAligned ⟨fin false 1 40, fin false 1 0, 40, .absorb, false, 33, 0, 7⟩) ∧
    unit 0x70#8 (recs (fin false 1 (-1)) (fin false 2 (-1))) = out (.addAligned ⟨fin false 1 (-1), fin false 2 (-1), 0, .exact, false, 0, 0, -1⟩) ∧
    unit 0x70#8 (recs (fin false 1 34) (fin true 1 0)) = out (.addAligned ⟨fin false 1 34, fin true 1 0, 34, .exact, true, 34, 0, 0⟩) := by
  decide +kernel

/-- Vector X14. -/
theorem test_align_add_faults : unit 0x70#8 (recs Record.reset (fin false 1 0)) = faulted .alignOperand := by
  decide +kernel

/-- Vectors K77, K78, K79, K80. -/
theorem test_align_fma : unit 0x71#8 (prodIn 1 1 0 (fin false 1 40)) = out (.fmaAligned ⟨40, .addendDominates, 0, 0, 40⟩) ∧
    unit 0x71#8 (prodIn ((10 ^ 34 - 1) ^ 2) 68 0 (fin true 1 (-10))) = out (.fmaAligned ⟨-77, .productDominates, -10, 10, 0⟩) ∧
    unit 0x71#8 (prodIn ((10 ^ 17 + 1) ^ 2) 35 0 (fin true 1 34)) = out (.fmaAligned ⟨0, .comparable, 0, 0, 34⟩) ∧
    unit 0x71#8 (prodIn 1 1 0 (fin false 1 34)) = out (.fmaAligned ⟨34, .comparable, 0, 0, 34⟩) := by
  decide +kernel

/-- Vector X15. -/
theorem test_align_fma_faults : unit 0x71#8 (prodIn 1 1 0 (nan .inf false 0)) = faulted .alignOperand := by
  decide +kernel

/-- Vectors K81, K82, K83, K85. -/
theorem test_divscale : unit 0x72#8 (recs (fin false 1 0) (fin false 3 0)) = out (.divScaled ⟨34, 10 ^ 34, -34⟩) ∧
    unit 0x72#8 (recs (fin false (9 * 10 ^ 33) 0) (fin false 9 0)) = out (.divScaled ⟨0, 9 * 10 ^ 33, 0⟩) ∧
    unit 0x72#8 (recs (fin false 1 0) (fin false (10 ^ 34 - 1) 0)) = out (.divScaled ⟨67, 10 ^ 67, -67⟩) ∧
    unit 0x72#8 (recs (fin false 7 0) (fin false 7 0)) = out (.divScaled ⟨33, 7 * 10 ^ 33, -33⟩) := by
  decide +kernel

/-- Vector X16. -/
theorem test_divscale_faults : unit 0x72#8 (recs (fin false 1 0) Record.reset) = faulted .divScaleOperand := by
  decide +kernel

/-- Vectors X1, X2. -/
theorem test_reserved_command_is_refused : op 0x04#6 0#128 0#128 0#128 = refusedWith .reservedCommand ∧
    op 0x27#6 0#128 0#128 0#128 = refusedWith .reservedCommand ∧
    op 0x28#6 0#128 0#128 0#128 = refusedWith .reservedCommand ∧
    op 0x3F#6 0#128 0#128 0#128 = refusedWith .reservedCommand := by
  decide +kernel

/-- Vector X3. -/
theorem test_reserved_unit_function_is_refused : [0x03#8, 0x1C#8, 0x27#8, 0x32#8, 0x42#8, 0x54#8, 0x62#8, 0x73#8, 0xFF#8].all
      (fun c => decide (unit c UnitPorts.reset = refusedWith .reservedUnitFunction)) = true := by
  decide +kernel

/-- Vector X4. -/
theorem test_shared_accumulator_is_refused : after (asked (.overlapping 0x00#6 Ports.reset 0x01#6 Ports.reset)) = refusedWith .sharedAccumulator := by
  decide +kernel

/-- R25, R397: a masked write, then a read. -/
theorem test_host_writes_and_reads_flags : after { State.reset with flags := 0x21#6, pending := [.writeFlags 0x03#6 0x02#6] } = some ⟨[], 0x22#6, [], []⟩ ∧
    readAfter { State.reset with flags := 0x28#6, pending := [.readFlags] } = [0x28#6] := by
  decide +kernel

/-- The launch premises of R399 hold where vector X4 starts. -/
theorem test_launch_premises : NoFaultRecorded (asked (.overlapping 0x00#6 Ports.reset 0x01#6 Ports.reset)) ∧
    NotRefused (asked (.overlapping 0x00#6 Ports.reset 0x01#6 Ports.reset)) ∧
    NothingInFlight (asked (.overlapping 0x00#6 Ports.reset 0x01#6 Ports.reset)) ∧
    FlagsAtLaunch 0#6 (asked (.overlapping 0x00#6 Ports.reset 0x01#6 Ports.reset)) := by
  decide +kernel

/-- Entries of the tables and the ends of their ranges, from the list of R142 and the widths of R31 and R51. -/
theorem test_tables : romNrDigits 113 = .ok ⟨34#63, true⟩ ∧ romNrDigits 256 = .ok ⟨77#63, true⟩ ∧
    romNrDigits 0 = .error .tableIndex ∧ romNrDigits 257 = .error .tableIndex ∧
    romDigitThresh 127 = .ok ⟨128, BitVec.ofNat 128 (10 ^ 38)⟩ ∧
    romDigitThresh 130 = .ok ⟨256, BitVec.ofNat 256 (10 ^ 39)⟩ ∧ romHalfUlp 0 = .error .tableIndex ∧
    romHalfUlp 75 = .ok ⟨256, BitVec.ofNat 256 (5 * 10 ^ 74)⟩ ∧ romHalfUlp 76 = .error .tableIndex := by
  decide +kernel

/-- The contract of the method tables can be met at the lowest and the highest index of a class: entries
worked out by hand as `10^(-x)` scaled by `2^67` and by `2^120`. -/
theorem test_method_contract_first : MethodEntryMeetsContract 2 18 1 (2 ^ 67 / 10 + 1) 67 (2 ^ 3 - 1)
    (2 ^ 67 / 10) := by
  refine ⟨by norm_num, ?_, ⟨3, by norm_num⟩, ⟨67, by norm_num⟩⟩
  norm_num
  omega

theorem test_method_contract_last : MethodEntryMeetsContract 2 18 17 (2 ^ 120 / 10 ^ 17 + 1) 120 (2 ^ 56 - 1)
    (2 ^ 120 / 10 ^ 17) := by
  refine ⟨by norm_num, ?_, ⟨56, by norm_num⟩, ⟨120, by norm_num⟩⟩
  norm_num
  omega

/-- An entry that is not rounded up breaks the contract. -/
theorem test_method_contract_refuses : ¬ MethodEntryMeetsContract 2 18 1 (2 ^ 67 / 10) 67 (2 ^ 3 - 1)
    (2 ^ 67 / 10) := by
  intro h
  exact absurd h.1.1 (by norm_num)

/-! Witnesses: for every statement that has hypotheses, a state and operands that meet all of them together,
clause by clause, at boundary values where a clause has a range. -/

/-- Reset with words on the operand ports. -/
def onPorts (a b c : Word) : State := { State.reset with ports := ⟨a, b, c⟩ }

/-- Reset with values on the unit input ports. -/
def onUnit (u : UnitPorts) : State := { State.reset with unitPorts := u }

/-- One, three, minus one, zero, an infinity, two NaNs. -/
abbrev w1 : Word := 0x30400000000000000000000000000001#128
abbrev w3 : Word := 0x30400000000000000000000000000003#128
abbrev wm1 : Word := 0xB0400000000000000000000000000001#128
abbrev w0 : Word := 0x30400000000000000000000000000000#128
abbrev winf : Word := 0x78000000000000000000000000000000#128
abbrev wminf : Word := 0xF8000000000000000000000000000000#128
abbrev wqnan : Word := 0x7C000000000000000000000000000001#128
abbrev wsnan : Word := 0x7E000000000000000000000000000009#128

theorem witness_DecodeAndEncodeAgree :
    decode (.command 0b100011#6) = .ok (.div .ra) ∧ decode (.unit 0x72#8) = .ok .divscale := by decide +kernel

theorem witness_StepRunsTheDecodedInstruction :
    ((asked (.operation 0x23#6 ⟨w1, w3, w0⟩)).pending = [.operation 0x23#6 ⟨w1, w3, w0⟩] ∧
      decodeCommand 0x23#6 = .ok (.div .ra)) ∧
    ((asked (.unitFunction 0x72#8 (recs (fin false 1 0) (fin false 3 0)))).pending =
        [.unitFunction 0x72#8 (recs (fin false 1 0) (fin false 3 0))] ∧
      decodeUnit 0x72#8 = .ok .divscale) := by decide +kernel

theorem witness_UndefinedRequestsAreRefused :
    4 ≤ (0b000100#6 : CommandWord).toNat % 8 ∧ 4 ≤ (0b100111#6 : CommandWord).toNat % 8 ∧
    5 ≤ (0b101000#6 : CommandWord).toNat / 8 ∧ 5 ≤ (0b111011#6 : CommandWord).toNat / 8 ∧
    (∀ c ∈ [0x03#8, 0x0F#8, 0x1C#8, 0x27#8, 0x32#8, 0x42#8, 0x54#8, 0x62#8, 0x73#8, 0xFF#8],
      c.toNat ∉ [0x00, 0x01, 0x02, 0x10, 0x11, 0x12, 0x13, 0x14, 0x15, 0x16, 0x17, 0x18, 0x19, 0x1A, 0x1B,
        0x20, 0x21, 0x22, 0x23, 0x24, 0x25, 0x26, 0x30, 0x31, 0x40, 0x41, 0x50, 0x51, 0x52, 0x53, 0x60, 0x61,
        0x70, 0x71, 0x72]) ∧
    (asked (.overlapping 0#6 Ports.reset 1#6 Ports.reset)).pending =
      [.overlapping 0#6 Ports.reset 1#6 Ports.reset] := by decide +kernel

theorem witness_HostWritesAndReadsTheAccumulator :
    (asked (.writeFlags 0x3F#6 0x00#6)).pending = [.writeFlags 0x3F#6 0x00#6] ∧
    (asked .readFlags).pending = [.readFlags] := by decide +kernel

theorem witness_EveryRequestIsAccepted : State.reset.pending = [] := by decide +kernel

theorem witness_StepKeepsMarksAndArguments :
    step (asked (.operation 0x00#6 ⟨w1, w1, w0⟩)) =
      .next { onPorts w1 w1 w0 with outputs := [.res 0x30400000000000000000000000000002#128] } := by
  rfl

theorem witness_OnlyAHostWriteClearsAFlag :
    (∃ t, step (asked (.operation 0x03#6 ⟨w1, w3, w0⟩)) = .next t) ∧
    (∀ mask value rest, (asked (.operation 0x03#6 ⟨w1, w3, w0⟩)).pending ≠
      Request.writeFlags mask value :: rest) :=
  ⟨⟨_, rfl⟩, fun _ _ _ h => nomatch h⟩

theorem witness_StepKeepsOutputsCanonical :
    OutputsOk { asked (.operation 0x03#6 ⟨w1, w3, w0⟩) with outputs := [.res w1, .digitCount 34] } ∧
    ∃ t, step { asked (.operation 0x03#6 ⟨w1, w3, w0⟩) with outputs := [.res w1, .digitCount 34] } =
      .next t := by
  refine ⟨?_, _, rfl⟩
  unfold OutputsOk
  decide +kernel

theorem witness_RunOfDefinedOperationsSucceeds :
    Successful (asked (.operation 0x23#6 ⟨w1, w3, w0⟩)) ∧
    ∀ r ∈ (asked (.operation 0x23#6 ⟨w1, w3, w0⟩)).pending,
      ∃ cmd p, r = Request.operation cmd p ∧ CommandWord.wf cmd = true := by
  refine ⟨by decide +kernel, fun r h => ⟨0x23#6, ⟨w1, w3, w0⟩, ?_, by decide +kernel⟩⟩
  simpa [asked] using h

theorem witness_OrderOfOperationsIsImmaterial :
    CommandWord.wf 0x00#6 = true ∧ CommandWord.wf 0x23#6 = true := by decide +kernel

theorem witness_OperationsDriveOneResultAndAccumulateFlags : isOperation (.fma .rd) = true ∧
    (onPorts w1 w3 w0).args = ModelArgs.default ∧ (onPorts w1 w3 w0).ports = ⟨w1, w3, w0⟩ := by decide +kernel

theorem witness_UnitFunctionsTouchNothingElse : isOperation .assemble = false ∧
    (onUnit (asmIn false 1 0 .rn true false)).args = ModelArgs.default ∧
    (onUnit (asmIn false 1 0 .rn true false)).unitPorts = asmIn false 1 0 .rn true false := by decide +kernel

theorem witness_UnreadPortIsIgnored :
    Instr.div .rn ∈ [Instr.add .rn, Instr.mul .rn, Instr.div .rn] := by decide +kernel

/-- Port values that differ above the width and agree below it. -/
theorem witness_UnitsReadTheirOwnWidths : isOperation .mwadd64 = false ∧
    (BitVec.ofNat 512 (2 ^ 64 + 5)).toNat % 2 ^ (portWidths .mwadd64).1 =
      (onUnit (ints 5 7 false)).unitPorts.ia.toNat % 2 ^ (portWidths .mwadd64).1 ∧
    (BitVec.ofNat 512 (2 ^ 511 + 7)).toNat % 2 ^ (portWidths .mwadd64).2 =
      (onUnit (ints 5 7 false)).unitPorts.ib.toNat % 2 ^ (portWidths .mwadd64).2 := by decide +kernel

/-- The largest inputs of every width. -/
theorem witness_AddersGiveSumAndCarry :
    PortsFit 64 64 (onUnit (ints (2 ^ 64 - 1) (2 ^ 64 - 1) true)) ∧
    PortsFit 128 128 (onUnit (ints (2 ^ 128 - 1) (2 ^ 128 - 1) true)) ∧
    PortsFit 192 192 (onUnit (ints (2 ^ 192 - 1) (2 ^ 192 - 1) true)) ∧
    PortsFit 256 256 (onUnit (ints (2 ^ 256 - 1) (2 ^ 256 - 1) true)) ∧
    PortsFit 384 384 (onUnit (ints (2 ^ 384 - 1) (2 ^ 384 - 1) true)) ∧
    PortsFit 512 512 (onUnit (ints (2 ^ 512 - 1) (2 ^ 512 - 1) true)) := by decide +kernel

/-- The smallest minuend and the largest subtrahend of every width. -/
theorem witness_SubtractorsGiveDifferenceAndBorrow :
    PortsFit 64 64 (onUnit (ints 0 (2 ^ 64 - 1) true)) ∧
    PortsFit 128 128 (onUnit (ints 0 (2 ^ 128 - 1) true)) ∧
    PortsFit 192 192 (onUnit (ints 0 (2 ^ 192 - 1) true)) ∧
    PortsFit 256 256 (onUnit (ints 0 (2 ^ 256 - 1) true)) ∧
    PortsFit 384 384 (onUnit (ints 0 (2 ^ 384 - 1) true)) ∧
    PortsFit 512 512 (onUnit (ints 0 (2 ^ 512 - 1) true)) := by decide +kernel

theorem witness_WideMultipliersAreExact :
    PortsFit 64 64 (onUnit (ints (2 ^ 64 - 1) (2 ^ 64 - 1) false)) ∧
    PortsFit 64 128 (onUnit (ints (2 ^ 64 - 1) (2 ^ 128 - 1) false)) ∧
    PortsFit 128 128 (onUnit (ints (2 ^ 128 - 1) (2 ^ 128 - 1) false)) ∧
    PortsFit 192 192 (onUnit (ints (2 ^ 192 - 1) (2 ^ 192 - 1) false)) ∧
    PortsFit 256 256 (onUnit (ints (2 ^ 256 - 1) (2 ^ 256 - 1) false)) := by decide +kernel

theorem witness_NarrowMultiplierWraps :
    PortsFit 64 128 (onUnit (ints (2 ^ 64 - 1) (2 ^ 128 - 1) false)) ∧
    PortsFit 128 192 (onUnit (ints (2 ^ 128 - 1) (2 ^ 192 - 1) false)) := by decide +kernel

/-- The largest dividend; the largest quotient of 128 bits. -/
theorem witness_DividersGiveQuotientAndRemainder :
    (PortsFit 128 128 (onUnit (ints (2 ^ 128 - 1) 1 false)) ∧
      (onUnit (ints (2 ^ 128 - 1) 1 false)).unitPorts.ib.toNat ≠ 0) ∧
    DividerAccepts 256 (onUnit (ints (2 ^ 128 * (2 ^ 128 - 1) - 1) (2 ^ 128 - 1) false)) := by decide +kernel

/-- A zero divisor; a quotient of exactly `2^128`; magnitude 0; each digit class one digit too few, one too
many, and `x` at 0 and at the digit count. -/
theorem witness_ArithmeticUnitFaultsAreMarked :
    (PortsFit 128 128 (onUnit (ints 5 0 false)) ∧ (onUnit (ints 5 0 false)).unitPorts.ib.toNat = 0) ∧
    (PortsFit 256 128 (onUnit (ints (2 ^ 256 - 1) 0 false)) ∧
      (onUnit (ints (2 ^ 256 - 1) 0 false)).unitPorts.ib.toNat = 0) ∧
    (PortsFit 256 128 (onUnit (ints (2 ^ 128) 1 false)) ∧
      (onUnit (ints (2 ^ 128) 1 false)).unitPorts.ib.toNat ≠ 0 ∧
      ¬ DividerAccepts 256 (onUnit (ints (2 ^ 128) 1 false))) ∧
    (onUnit (ints 0 0 false)).unitPorts.ia.toNat = 0 := by decide +kernel

theorem witness_ArithmeticUnitFaultsAreMarked_engine :
    (9 < 2 ^ 64 ∧ ¬ EngineAccepts 2 18 64 (onUnit (rndIn 9 1))) ∧
    (10 ^ 18 < 2 ^ 64 ∧ ¬ EngineAccepts 2 18 64 (onUnit (rndIn (10 ^ 18) 1))) ∧
    (10 ^ 34 < 2 ^ 128 ∧ ¬ EngineAccepts 19 38 128 (onUnit (rndIn (10 ^ 34) 35))) ∧
    (10 ^ 56 < 2 ^ 192 ∧ ¬ EngineAccepts 39 57 192 (onUnit (rndIn (10 ^ 56) 0))) ∧
    (10 ^ 76 < 2 ^ 256 ∧ ¬ EngineAccepts 58 76 256 (onUnit (rndIn (10 ^ 76) 1))) := by
  unfold EngineAccepts
  decide +kernel

/-- Each precondition violated by one. -/
theorem witness_OperandUnitFaultsAreMarked :
    ¬ (12288 ≤ Config.EBMAX ∧ 1 ≤ Config.CMAX) ∧ ¬ (0 ≤ Config.EBMAX ∧ 10 ^ 34 ≤ Config.CMAX) ∧
    isNaN (nan .inf false 0) = false ∧ (-6177 : Int) < Config.QMIN ∧
    (Config.QMIN ≤ (6111 : Int) ∧ (6111 : Int) ≤ Config.QMAX ∧ Config.CMAX < 10 ^ 34) ∧
    ¬ (IsFiniteNonzero Record.reset ∧ IsFiniteNonzero (fin false 1 0)) ∧
    ¬ (IsFiniteNonzero (fin false 1 0) ∧ IsFiniteNonzero { Record.reset with cls := .finite }) ∧
    ¬ ((prodIn 0 1 0 (fin false 1 0)).prod.C4 ≠ 0 ∧ IsFiniteNonzero (fin false 1 0)) ∧
    ¬ ((prodIn 1 1 0 (nan .inf false 0)).prod.C4 ≠ 0 ∧ IsFiniteNonzero (nan .inf false 0)) := by decide +kernel

/-- The least and the greatest magnitude of both widths. -/
theorem witness_DigitCountersCount : CounterAccepts 128 (onUnit (ints 1 0 false)) ∧
    CounterAccepts 128 (onUnit (ints (2 ^ 128 - 1) 0 false)) ∧ CounterAccepts 256 (onUnit (ints 1 0 false)) ∧
    CounterAccepts 256 (onUnit (ints (2 ^ 256 - 1) 0 false)) := by decide +kernel

/-- A word for each clause, NaNs with bit 121 and payload on both sides of the limit, coefficient fields on
both sides of `10^34`. -/
theorem witness_UnpackFollowsTheClassTable :
    field wsnan 126 122 = 31 ∧ field 0x7C00314DC6448D9338C15B09FFFFFFFF#128 126 122 = 31 ∧
    field 0x7C00314DC6448D9338C15B0A00000000#128 126 122 = 31 ∧ field winf 126 122 = 30 ∧
    (field 0x6FFE0000000000000000000000000000#128 126 122 < 30 ∧
      field 0x6FFE0000000000000000000000000000#128 126 125 = 3) ∧
    field 0x3041ED09BEAD87C0378D8E63FFFFFFFF#128 126 125 < 3 ∧
    field 0x3041ED09BEAD87C0378D8E6400000000#128 126 125 < 3 ∧ field w0 126 125 < 3 := by decide +kernel

theorem witness_PackAndQuietnanWriteTheirForms :
    (12287 ≤ Config.EBMAX ∧ 9999999999999999999999999999999999 ≤ Config.CMAX) ∧
    isNaN (nan .snan true 7) = true := by decide +kernel

/-- A canonical word, a coefficient field of `10^34`, an alternate form. -/
theorem witness_UnpackThenPackRoundTrip :
    (field 0x3041ED09BEAD87C0378D8E63FFFFFFFF#128 126 122 < 30 ∧
      field 0x3041ED09BEAD87C0378D8E63FFFFFFFF#128 126 125 < 3 ∧
      field 0x3041ED09BEAD87C0378D8E63FFFFFFFF#128 112 0 ≤ 10 ^ 34 - 1) ∧
    (field 0x3041ED09BEAD87C0378D8E6400000000#128 126 122 < 30 ∧
      field 0x3041ED09BEAD87C0378D8E6400000000#128 126 125 < 3 ∧
      10 ^ 34 ≤ field 0x3041ED09BEAD87C0378D8E6400000000#128 112 0) ∧
    (field 0x6FFE0000000000000000000000000000#128 126 122 < 30 ∧
      field 0x6FFE0000000000000000000000000000#128 126 125 = 3) := by decide +kernel

/-- The ends of each digit class, with `x` at 1 and at one less than the digit count. -/
theorem witness_EngineRoundsToNearestEven :
    EngineAccepts 2 18 64 (onUnit (rndIn 10 1)) ∧
    EngineAccepts 2 18 64 (onUnit (rndIn (10 ^ 18 - 1) 17)) ∧
    EngineAccepts 19 38 128 (onUnit (rndIn (10 ^ 18) 1)) ∧
    EngineAccepts 19 38 128 (onUnit (rndIn (10 ^ 38 - 1) 37)) ∧
    EngineAccepts 39 57 192 (onUnit (rndIn (10 ^ 38) 1)) ∧
    EngineAccepts 39 57 192 (onUnit (rndIn (10 ^ 57 - 1) 56)) ∧
    EngineAccepts 58 76 256 (onUnit (rndIn (10 ^ 57) 1)) ∧
    EngineAccepts 58 76 256 (onUnit (rndIn (10 ^ 76 - 1) 75)) := by
  unfold EngineAccepts
  decide +kernel

/-- Inputs for each clause: an increment with and without the decade carry, a decrement with and without its
undoing, no correction. -/
theorem witness_RmcorrFollowsTheModes :
    (let u := corrIn false .ru (10 ^ 34 - 1) 9 indLtMid 34 false;
      (u.rm = .ru ∧ u.ind.ltMid = true ∧ u.s = false) ∧ u.coef + 1 = 10 ^ 34) ∧
    (let u := corrIn true .rd 122 9 indMidDn 3 false;
      (u.rm = .rd ∧ u.ind.midDn = true ∧ u.s = true) ∧ u.coef + 1 ≠ 10 ^ 34) ∧
    (let u := corrIn false .rz (10 ^ 33) 10 indGtMid 34 true;
      (u.rm = .rz ∧ u.ind.gtMid = true) ∧ u.carried = true ∧ 1 ≤ u.n ∧ u.coef = 10 ^ (u.n - 1)) ∧
    (let u := corrIn true .ru 124 9 indMidUp 3 false;
      (u.rm = .ru ∧ u.ind.midUp = true ∧ u.s = true) ∧
        ¬ (u.carried = true ∧ 1 ≤ u.n ∧ u.coef = 10 ^ (u.n - 1))) ∧
    (let u := corrIn false .ra 124 9 indMidUp 3 false;
      u.rm = .ra ∧ u.ind.midDn = false) := by decide +kernel

theorem witness_CorrectionGivesEveryMode : 1 ≤ 2 ∧ 2 + 1 ≤ digits 12250 ∧ 1 ≤ 75 ∧ 75 + 1 ≤ digits (5 * 10 ^ 75) := by
  decide +kernel

/-- The exponents where the clauses meet, folding down to the largest coefficient and one past it. -/
theorem witness_AssemblePacksFoldsOrOverflows :
    (Config.QMIN ≤ (-6176 : Int) ∧ Config.CMAX ≤ Config.CMAX ∧ (-6176 : Int) ≤ Config.QMAX) ∧
    (Config.QMIN ≤ (6111 : Int) ∧ (6111 : Int) ≤ Config.QMAX) ∧
    (Config.QMAX < (6112 : Int) ∧ (10 ^ 33 - 1) * 10 ^ ((6112 : Int) - Config.QMAX).toNat ≤ Config.CMAX) ∧
    (Config.QMAX < (6112 : Int) ∧ Config.CMAX < 10 ^ 33 * 10 ^ ((6112 : Int) - Config.QMAX).toNat) := by
  decide +kernel

theorem witness_TininessFollowsThePolicy :
    (⟨999999, 7, -6150⟩ : Magnitude).num ≠ 0 ∧ (⟨999999, 7, -6150⟩ : Magnitude).den ≠ 0 := by decide +kernel

theorem witness_UnitsRealizeOneRounding : 1 ≤ 1 ∧ 1 ≤ 10 ^ 34 + 5 := by decide +kernel

/-- The least and the greatest decoded operands. -/
theorem witness_AddDatapathGivesTheSum : IsDecodedFinite (fin false 1 (-6176)) ∧
    IsDecodedFinite (fin true (10 ^ 34 - 1) 6111) := by decide +kernel

theorem witness_FmaDatapathGivesTheResult : IsDecodedFinite (fin false 1 (-6176)) ∧
    IsDecodedFinite (fin true (10 ^ 34 - 1) 6111) ∧ IsDecodedFinite (fin false (10 ^ 33) 0) := by decide +kernel

theorem witness_DivDatapathGivesTheQuotient : IsDecodedFinite (fin true 1 6111) ∧
    IsDecodedFinite (fin false (10 ^ 34 - 1) (-6176)) := by decide +kernel

/-- Operands in order, out of order, 34 and 35 digits apart. -/
theorem witness_AlignAddOrdersAndScales : IsFiniteNonzero (fin false 1 34) ∧ IsFiniteNonzero (fin true 1 0) ∧
    leadPos (fin true 1 0) ≤ leadPos (fin false 1 34) ∧ leadPos (fin true 1 0) < leadPos (fin false 1 34) ∧
    |leadPos (fin false 1 34) - leadPos (fin true 1 0)| = 34 ∧
    |leadPos (fin false 1 35) - leadPos (fin true 1 0)| = 35 := by
  decide +kernel

/-- Addends 35, 34, -34 and -35 digits from the product `1E0`: the two clauses that meet at each end. -/
theorem witness_AlignFmaGivesTheRegion : (prodIn 1 1 0 (fin false 1 35)).prod.C4 ≠ 0 ∧
    IsFiniteNonzero (fin false 1 35) ∧ leadPos (fin false 1 35) - (1 + 0) = 35 ∧
    leadPos (fin false 1 34) - (1 + 0) = 34 ∧ leadPos (fin false 1 (-34)) - (1 + 0) = -34 ∧
    leadPos (fin false 1 (-35)) - (1 + 0) = -35 := by
  decide +kernel

theorem witness_DivscaleGivesTheLeastScale : IsFiniteNonzero (fin false 1 0) ∧
    IsFiniteNonzero (fin false (10 ^ 34 - 1) 0) ∧ (fin false 1 0).Cf.toNat ≤ Config.CMAX ∧
    (fin false (10 ^ 34 - 1) 0).Cf.toNat ≤ Config.CMAX := by decide +kernel

/-- Operands one and three, one and minus one. -/
theorem operands_one_three : operandA (onPorts w1 w3 w0) = fin false 1 0 ∧
    operandB (onPorts w1 w3 w0) = fin false 3 0 ∧ operandC (onPorts w1 w3 w0) = ⟨.zero, false, 6176#14, 0, 0⟩ := by
  decide +kernel

theorem valueOf_one_three : valueOf (fin false 1 0) = 1 ∧ valueOf (fin false 3 0) = 3 ∧
    valueOf ⟨.zero, false, 6176#14, 0, 0⟩ = 0 := by
  norm_num [valueOf, signedCoef, quantumExp, fin]

theorem finite_one_three : isFinite (fin false 1 0) = true ∧ isFinite (fin false 3 0) = true ∧
    isFinite ⟨.zero, false, 6176#14, 0, 0⟩ = true := by decide +kernel

theorem witness_AddIsCorrectlyRounded : isFinite (operandA (onPorts w1 w3 w0)) = true ∧
    isFinite (operandB (onPorts w1 w3 w0)) = true ∧
    valueOf (operandA (onPorts w1 w3 w0)) + valueOf (operandB (onPorts w1 w3 w0)) ≠ 0 := by
  obtain ⟨h1, h2, -⟩ := operands_one_three
  obtain ⟨v1, v2, -⟩ := valueOf_one_three
  obtain ⟨f1, f2, -⟩ := finite_one_three
  rw [h1, h2, v1, v2]
  exact ⟨f1, f2, by norm_num⟩

theorem witness_MulIsCorrectlyRounded : isFinite (operandA (onPorts w1 w3 w0)) = true ∧
    isFinite (operandB (onPorts w1 w3 w0)) = true ∧
    valueOf (operandA (onPorts w1 w3 w0)) * valueOf (operandB (onPorts w1 w3 w0)) ≠ 0 := by
  obtain ⟨h1, h2, -⟩ := operands_one_three
  obtain ⟨v1, v2, -⟩ := valueOf_one_three
  obtain ⟨f1, f2, -⟩ := finite_one_three
  rw [h1, h2, v1, v2]
  exact ⟨f1, f2, by norm_num⟩

theorem witness_FmaIsCorrectlyRounded : isFinite (operandA (onPorts w1 w3 w0)) = true ∧
    isFinite (operandB (onPorts w1 w3 w0)) = true ∧ isFinite (operandC (onPorts w1 w3 w0)) = true ∧
    valueOf (operandA (onPorts w1 w3 w0)) * valueOf (operandB (onPorts w1 w3 w0)) +
      valueOf (operandC (onPorts w1 w3 w0)) ≠ 0 := by
  obtain ⟨h1, h2, h3⟩ := operands_one_three
  obtain ⟨v1, v2, v3⟩ := valueOf_one_three
  obtain ⟨f1, f2, f3⟩ := finite_one_three
  rw [h1, h2, h3, v1, v2, v3]
  exact ⟨f1, f2, f3, by norm_num⟩

theorem witness_DivIsCorrectlyRounded : isFinite (operandA (onPorts w1 w3 w0)) = true ∧
    isFinite (operandB (onPorts w1 w3 w0)) = true ∧ valueOf (operandA (onPorts w1 w3 w0)) ≠ 0 ∧
    valueOf (operandB (onPorts w1 w3 w0)) ≠ 0 := by
  obtain ⟨h1, h2, -⟩ := operands_one_three
  obtain ⟨v1, v2, -⟩ := valueOf_one_three
  obtain ⟨f1, f2, -⟩ := finite_one_three
  rw [h1, h2, v1, v2]
  exact ⟨f1, f2, by norm_num⟩

/-- One and minus one, as addends and as product and addend. -/
theorem operands_cancel : operandA (onPorts w1 wm1 w1) = fin false 1 0 ∧
    operandB (onPorts w1 wm1 w1) = fin true 1 0 ∧ operandC (onPorts w1 wm1 w1) = fin false 1 0 := by
  decide +kernel

theorem valueOf_minus_one : valueOf (fin true 1 0) = -1 := by
  norm_num [valueOf, signedCoef, quantumExp, fin]

theorem witness_ExactZeroSumsOfAdd : isFinite (operandA (onPorts w1 wm1 w1)) = true ∧
    isFinite (operandB (onPorts w1 wm1 w1)) = true ∧
    valueOf (operandA (onPorts w1 wm1 w1)) + valueOf (operandB (onPorts w1 wm1 w1)) = 0 := by
  obtain ⟨h1, h2, -⟩ := operands_cancel
  rw [h1, h2, valueOf_one_three.1, valueOf_minus_one]
  exact ⟨by decide +kernel, by decide +kernel, by norm_num⟩

theorem witness_ExactZeroResultsOfFma : isFinite (operandA (onPorts w1 wm1 w1)) = true ∧
    isFinite (operandB (onPorts w1 wm1 w1)) = true ∧ isFinite (operandC (onPorts w1 wm1 w1)) = true ∧
    valueOf (operandA (onPorts w1 wm1 w1)) * valueOf (operandB (onPorts w1 wm1 w1)) +
      valueOf (operandC (onPorts w1 wm1 w1)) = 0 := by
  obtain ⟨h1, h2, h3⟩ := operands_cancel
  rw [h1, h2, h3, valueOf_one_three.1, valueOf_minus_one]
  exact ⟨by decide +kernel, by decide +kernel, by decide +kernel, by norm_num⟩

theorem witness_ZeroProductsAndQuotients : isFinite (operandA (onPorts w0 w3 w0)) = true ∧
    isFinite (operandB (onPorts w0 w3 w0)) = true ∧ valueOf (operandA (onPorts w0 w3 w0)) = 0 ∧
    valueOf (operandB (onPorts w0 w3 w0)) ≠ 0 := by
  refine ⟨by decide +kernel, by decide +kernel, ?_, ?_⟩
  · rw [valueOf_eq_zero_iff]; decide +kernel
  · rw [Ne, valueOf_eq_zero_iff]; decide +kernel

/-- NaN operands under both orders of `MUL`, and a NaN on port `C` alone. -/
theorem witness_NaNOperandsPropagate : isNaN (operandA (onPorts wqnan wsnan w0)) = true ∧
    (onPorts wqnan wsnan w0).args.mulNanFirst = .a ∧
    { onPorts wqnan wsnan w0 with args := { ModelArgs.default with mulNanFirst := .b } }.args.mulNanFirst = .b ∧
    isNaN (operandC (onPorts winf w0 wqnan)) = true := by decide +kernel

theorem witness_AddOfInfinities :
    ((operandA (onPorts winf wminf w0)).cls = .inf ∧ (operandB (onPorts winf wminf w0)).cls = .inf ∧
      (operandA (onPorts winf wminf w0)).s ≠ (operandB (onPorts winf wminf w0)).s) ∧
    ((operandA (onPorts wminf wminf w0)).cls = .inf ∧ (operandB (onPorts wminf wminf w0)).cls = .inf ∧
      (operandA (onPorts wminf wminf w0)).s = (operandB (onPorts wminf wminf w0)).s) ∧
    ((operandA (onPorts winf w1 w0)).cls = .inf ∧ isFinite (operandB (onPorts winf w1 w0)) = true) ∧
    (isFinite (operandA (onPorts w0 wminf w0)) = true ∧ (operandB (onPorts w0 wminf w0)).cls = .inf) := by
  decide +kernel

theorem witness_MulOfInfinities :
    ((operandA (onPorts winf w0 w0)).cls = .inf ∧ (operandB (onPorts winf w0 w0)).cls = .zero) ∧
    ((operandA (onPorts w0 winf w0)).cls = .zero ∧ (operandB (onPorts w0 winf w0)).cls = .inf) ∧
    ((operandA (onPorts winf wminf w0)).cls = .inf ∧ (operandB (onPorts winf wminf w0)).cls ∈ [.inf, .finite]) ∧
    ((operandA (onPorts wm1 winf w0)).cls = .finite ∧ (operandB (onPorts wm1 winf w0)).cls = .inf) := by
  decide +kernel

theorem witness_FmaOfInfinities :
    ((operandA (onPorts winf w0 winf)).cls = .inf ∧ (operandB (onPorts winf w0 winf)).cls = .zero ∧
      isNaN (operandC (onPorts winf w0 winf)) = false) ∧
    ((operandA (onPorts winf w1 wminf)).cls = .inf ∧ (operandB (onPorts winf w1 wminf)).cls ∈ [.inf, .finite] ∧
      (operandC (onPorts winf w1 wminf)).cls = .inf ∧ (operandC (onPorts winf w1 wminf)).s ≠
        ((operandA (onPorts winf w1 wminf)).s ^^ (operandB (onPorts winf w1 wminf)).s)) ∧
    ((operandA (onPorts w1 winf winf)).cls = .finite ∧ (operandB (onPorts w1 winf winf)).cls = .inf ∧
      (operandC (onPorts w1 winf winf)).cls = .inf ∧ (operandC (onPorts w1 winf winf)).s =
        ((operandA (onPorts w1 winf winf)).s ^^ (operandB (onPorts w1 winf winf)).s)) ∧
    ((operandA (onPorts winf wminf w0)).cls = .inf ∧ (operandB (onPorts winf wminf w0)).cls ∈ [.inf, .finite] ∧
      isFinite (operandC (onPorts winf wminf w0)) = true) ∧
    (isFinite (operandA (onPorts w1 w0 wminf)) = true ∧ isFinite (operandB (onPorts w1 w0 wminf)) = true ∧
      (operandC (onPorts w1 w0 wminf)).cls = .inf) := by decide +kernel

theorem witness_DivOfSpecialOperands :
    ((operandA (onPorts winf wminf w0)).cls = .inf ∧ (operandB (onPorts winf wminf w0)).cls = .inf) ∧
    ((operandA (onPorts winf w3 w0)).cls = .inf ∧ (operandB (onPorts winf w3 w0)).cls = .finite) ∧
    ((operandA (onPorts winf w0 w0)).cls = .inf ∧ (operandB (onPorts winf w0 w0)).cls = .zero) ∧
    (isFinite (operandA (onPorts w1 winf w0)) = true ∧ (operandB (onPorts w1 winf w0)).cls = .inf) ∧
    ((operandA (onPorts w0 w0 w0)).cls = .zero ∧ (operandB (onPorts w0 w0 w0)).cls = .zero) ∧
    ((operandA (onPorts w1 w0 w0)).cls = .finite ∧ (operandB (onPorts w1 w0 w0)).cls = .zero) := by decide +kernel

theorem witness_DivByItselfIsOne : (operandA (onPorts w3 w3 w0)).cls = .finite ∧
    (onPorts w3 w3 w0).ports.b = (onPorts w3 w3 w0).ports.a := by decide +kernel

theorem witness_AddIsSymmetric : ¬ (isNaN (operandA (onPorts w1 wsnan w0)) = true ∧
    isNaN (operandB (onPorts w1 wsnan w0)) = true) := by decide +kernel

theorem witness_MulIsFmaWithTheLargestZero :
    (operandA (onPorts w1 w3 0x5FFE0000000000000000000000000000#128)).cls = .finite ∧
    (operandB (onPorts w1 w3 0x5FFE0000000000000000000000000000#128)).cls = .finite ∧
    (onPorts w1 w3 0x5FFE0000000000000000000000000000#128).ports.c =
      0x5FFE0000000000000000000000000000#128 := by decide +kernel

/-- A zero at the operand's own exponent, and one below it. -/
theorem witness_AddingAZeroKeepsTheValue :
    ((operandA (onPorts w1 w0 w0)).cls = .finite ∧ (operandB (onPorts w1 w0 w0)).cls = .zero ∧
      (operandA (onPorts w1 w0 w0)).E.toNat ≤ (operandB (onPorts w1 w0 w0)).E.toNat) ∧
    ((operandA (onPorts w1 0#128 w0)).cls = .finite ∧ (operandB (onPorts w1 0#128 w0)).cls = .zero) := by
  decide +kernel

end Sys2Proof.Tests
end

section
/-!
PROOFS. The family of 00_scope.md: what every step keeps, and the widths at which a unit function reads its
integer ports.
-/
namespace Sys2Proof.Machine

/-! ### What every step keeps (R7, R398) -/

/-- The run recorded in `t` continues the one recorded in `s`: the model arguments are the same (R7), and
what was driven, marked or read stands in front of what came after it (R398). -/
structure Continues (s t : State) : Prop where
  args : t.args = s.args
  outputs : s.outputs <+: t.outputs
  faults : s.faults <+: t.faults
  refusals : s.refusals <+: t.refusals
  reads : s.reads <+: t.reads

namespace Continues

theorem refl (s : State) : Continues s s :=
  ⟨rfl, List.prefix_rfl, List.prefix_rfl, List.prefix_rfl, List.prefix_rfl⟩

theorem trans {s t u : State} (h : Continues s t) (k : Continues t u) : Continues s u :=
  ⟨k.args.trans h.args, h.outputs.trans k.outputs, h.faults.trans k.faults,
    h.refusals.trans k.refusals, h.reads.trans k.reads⟩

theorem emit (o : Output) (s : State) : Continues s (s.emit o) :=
  { refl s with outputs := List.prefix_append _ _ }

theorem complete (r : Word × FlagWord) (s : State) : Continues s (s.complete r) :=
  { refl s with outputs := List.prefix_append _ _ }

theorem recordFault (e : Fault) (s : State) : Continues s (s.recordFault e) :=
  { refl s with faults := List.prefix_append _ _ }

theorem recordRefusal (e : Refusal) (s : State) : Continues s (s.recordRefusal e) :=
  { refl s with refusals := List.prefix_append _ _ }

theorem present (p : Ports) (s : State) : Continues s (s.present p) := { refl s with }

theorem presentUnit (u : UnitPorts) (s : State) : Continues s (s.presentUnit u) := { refl s with }

theorem writeFlags (mask value : FlagWord) (s : State) : Continues s (s.writeFlags mask value) :=
  { refl s with }

theorem readFlags (s : State) : Continues s s.readFlags :=
  { refl s with reads := List.prefix_append _ _ }

theorem withPending (l : List Request) (s : State) : Continues s (s.withPending l) := { refl s with }

end Continues

/-- What running an instruction can be: an operation completes, a unit function drives an output or
records a fault. -/
theorem exec_cases (i : Instr) (s : State) :
    (isOperation i = true ∧ ∃ r, exec i s = .next (s.complete r)) ∨
      (isOperation i = false ∧
        ((∃ o, exec i s = .next (s.emit o)) ∨ (∃ e, exec i s = .next (s.recordFault e)))) := by
  cases h : isOperation i with
  | true => exact .inl ⟨rfl, _, exec_operation i s h⟩
  | false =>
    refine .inr ⟨rfl, ?_⟩
    rw [exec_unit i s h]
    rcases finishUnit_cases (unitResult s.args s.unitPorts i) s with ⟨o, -, ho⟩ | ⟨e, -, he⟩
    · exact .inl ⟨o, ho⟩
    · exact .inr ⟨e, he⟩

theorem exec_continues (i : Instr) (s : State) : ∃ t, exec i s = .next t ∧ Continues s t := by
  rcases exec_cases i s with ⟨-, r, h⟩ | ⟨-, ⟨o, h⟩ | ⟨e, h⟩⟩
  · exact ⟨_, h, .complete r s⟩
  · exact ⟨_, h, .emit o s⟩
  · exact ⟨_, h, .recordFault e s⟩

theorem runCode_continues (c : Except DecodeError Instr) (s : State) :
    ∃ t, runCode c s = .next t ∧ Continues s t := by
  cases c with
  | ok i => exact exec_continues i s
  | error e => exact ⟨_, runCode_error e s, .recordRefusal _ s⟩

theorem perform_continues (r : Request) (s : State) : ∃ t, perform r s = .next t ∧ Continues s t := by
  rcases perform_cases r s with
    ⟨cmd, p, -, h⟩ | ⟨ufc, u, -, h⟩ | ⟨-, h⟩ | ⟨mask, value, -, h⟩ | ⟨-, h⟩
  · obtain ⟨t, ht, hk⟩ := runCode_continues (decodeCommand cmd) (s.present p)
    exact ⟨t, h.trans ht, (Continues.present p s).trans hk⟩
  · obtain ⟨t, ht, hk⟩ := runCode_continues (decodeUnit ufc) (s.presentUnit u)
    exact ⟨t, h.trans ht, (Continues.presentUnit u s).trans hk⟩
  · exact ⟨_, h, .recordRefusal _ s⟩
  · exact ⟨_, h, .writeFlags mask value s⟩
  · exact ⟨_, h, .readFlags s⟩

theorem step_continues (s : State) : ∃ t, step s = .next t ∧ Continues s t := by
  cases h : s.pending with
  | nil => exact ⟨s, step_idle s h, .refl s⟩
  | cons r rest =>
    obtain ⟨t, ht, hk⟩ := perform_continues r (s.withPending rest)
    exact ⟨t, (step_pending s r rest h).trans ht, (Continues.withPending rest s).trans hk⟩

/-- Settles O8: each kind of interaction only adds to the recorded run, so a step continues it. -/
theorem stepKeepsMarksAndArguments : Obligations.StepKeepsMarksAndArguments := by
  intro s t hst
  obtain ⟨t', ht', hk⟩ := step_continues s
  obtain rfl : t' = t := Host.Outcome.next.inj (ht'.symm.trans hst)
  exact ⟨hk.args, hk.outputs, hk.faults, hk.refusals, hk.reads⟩

/-! ### The widths at which a unit function reads its integer ports (R9) -/

theorem lowBits_eq_iff (W : Nat) (p q : BitVec 512) :
    lowBits W p = lowBits W q ↔ p.toNat % 2 ^ W = q.toNat % 2 ^ W := by
  rw [← BitVec.toNat_inj, lowBits_toNat, lowBits_toNat]

/-- A unit function's output or fault depends on an integer port through the bits of its own width alone. -/
theorem unitResult_eq_of_lowBits_eq (args : ModelArgs) (u : UnitPorts) (ia ib : BitVec 512) (i : Instr)
    (ha : lowBits (portWidths i).1 ia = lowBits (portWidths i).1 u.ia)
    (hb : lowBits (portWidths i).2 ib = lowBits (portWidths i).2 u.ib) :
    unitResult args { u with ia := ia, ib := ib } i = unitResult args u i := by
  cases i <;> dsimp only [portWidths] at ha hb <;> simp only [unitResult, ha, hb]

theorem unitDrives_of_unitResult {i : Instr} {s : State} {o : Output} (h : isOperation i = false)
    (ho : unitResult s.args s.unitPorts i = .ok o) : UnitDrives i s o := by
  rw [UnitDrives, exec_unit i s h, ho]
  exact finishUnit_ok o s

theorem unitFaults_of_unitResult {i : Instr} {s : State} {e : Fault} (h : isOperation i = false)
    (he : unitResult s.args s.unitPorts i = .error e) : UnitFaults i s e := by
  rw [UnitFaults, exec_unit i s h, he]
  exact finishUnit_error e s

/-- Settles O17: ports that agree at the unit's widths have the same low bits, so the unit computes the
same output or fault from them. -/
theorem unitsReadTheirOwnWidths : Obligations.UnitsReadTheirOwnWidths := by
  intro i s ia ib hi ha hb t
  have hres : unitResult t.args t.unitPorts i = unitResult s.args s.unitPorts i :=
    unitResult_eq_of_lowBits_eq s.args s.unitPorts ia ib i
      ((lowBits_eq_iff _ _ _).mpr ha) ((lowBits_eq_iff _ _ _).mpr hb)
  cases h : unitResult s.args s.unitPorts i with
  | ok o => exact .inl ⟨o, unitDrives_of_unitResult hi h, unitDrives_of_unitResult hi (hres.trans h)⟩
  | error e => exact .inr ⟨e, unitFaults_of_unitResult hi h, unitFaults_of_unitResult hi (hres.trans h)⟩

end Sys2Proof.Machine
end

section
/-!
PROOFS. The family of 10_state.md: what an operation and a step do to the accumulator, the host's accesses to
it, the state after reset, and the constant tables the units read.
-/
namespace Sys2Proof.Machine

/-! ### An operation is its result and its flag set (R23, R24, R26, R34) -/

theorem drives_operationResult (i : Instr) (s : State) (h : isOperation i = true) :
    Drives i s (operationResult s.args s.ports i).1 (operationResult s.args s.ports i).2 :=
  exec_operation i s h

/-- Settles O14: word and set are `operationResult`, which takes the model arguments and the operand ports. -/
theorem operationsDriveOneResultAndAccumulateFlags :
    Obligations.OperationsDriveOneResultAndAccumulateFlags := by
  intro i args p hi
  refine ⟨(operationResult args p i).1, (operationResult args p i).2, ?_⟩
  rintro s rfl rfl
  exact drives_operationResult i s hi

/-- `ADD`, `MUL` and `DIV` compute from ports `A` and `B` (R34). -/
theorem operationResult_withPortC (args : ModelArgs) (p : Ports) (c : Word) {rm : Rm} {i : Instr}
    (hi : i ∈ [Instr.add rm, Instr.mul rm, Instr.div rm]) :
    isOperation i = true ∧ operationResult args { p with c := c } i = operationResult args p i := by
  simp only [List.mem_cons, List.not_mem_nil, or_false] at hi
  rcases hi with rfl | rfl | rfl <;> exact ⟨rfl, rfl⟩

/-- Settles O16: both states compute the same result, because it does not depend on port `C`. -/
theorem unreadPortIsIgnored : Obligations.UnreadPortIsIgnored := by
  intro rm s c i hi
  obtain ⟨hop, hres⟩ := operationResult_withPortC s.args s.ports c hi
  refine ⟨_, _, drives_operationResult i s hop, ?_⟩
  rw [← hres]
  exact drives_operationResult i { s with ports := { s.ports with c := c } } hop

/-! ### The flag sets an operation can signal (R218, R351 to R360) -/

/-- The flag sets of a rounded or exact finite result: none, inexact, inexact with underflow, inexact with
overflow (R218, R354, R355). -/
def roundedFlagSets : List FlagWord := [0x00#6, 0x20#6, 0x30#6, 0x28#6]

/-- The flag sets of `ADD`, `MUL` and `FMA`: invalid operation comes alone (R351). -/
def arithmeticFlagSets : List FlagWord := 0x01#6 :: roundedFlagSets

/-- The flag sets of all operations: divide-by-zero, of `DIV` only, comes alone (R353). -/
def operationFlagSets : List FlagWord := 0x04#6 :: arithmeticFlagSets

theorem noFlags_mem_rounded : noFlags ∈ roundedFlagSets := by decide

theorem finiteFlags_mem_rounded (inexact tiny : Bool) : finiteFlags inexact tiny ∈ roundedFlagSets := by
  cases inexact <;> cases tiny <;> decide

theorem roundToFormat_flags_mem (policy : Tininess) (s : Bool) (v : Magnitude) (pref : Int) (rm : Rm) :
    (roundToFormat policy s v pref rm).2 ∈ roundedFlagSets := by
  simp only [roundToFormat]
  split_ifs
  · exact (by decide : overflowFlags ∈ roundedFlagSets)
  · exact finiteFlags_mem_rounded true _
  · exact noFlags_mem_rounded

theorem sumResult_flags_mem (policy : Tininess) (rm : Rm) (m e pref : Int) (sa sb : Bool) :
    (sumResult policy rm m e pref sa sb).2 ∈ roundedFlagSets := by
  unfold sumResult
  split_ifs
  · exact noFlags_mem_rounded
  · exact roundToFormat_flags_mem ..

theorem flagIE_mem_arithmetic : flagIE ∈ arithmeticFlagSets := List.mem_cons_self

theorem noFlags_mem_arithmetic : noFlags ∈ arithmeticFlagSets := List.mem_cons_of_mem _ noFlags_mem_rounded

theorem nanResult_flags_mem (order : List Record) : (nanResult order).2 ∈ arithmeticFlagSets := by
  have hflags : (nanResult order).2 = nanFlags order := by unfold nanResult; split <;> rfl
  rw [hflags, nanFlags]
  split_ifs
  · exact flagIE_mem_arithmetic
  · exact noFlags_mem_arithmetic

theorem addRecords_flags_mem (policy : Tininess) (rm : Rm) (x y : Record) :
    (addRecords policy rm x y).2 ∈ arithmeticFlagSets := by
  unfold addRecords
  split_ifs
  · exact nanResult_flags_mem _
  · exact flagIE_mem_arithmetic
  · exact noFlags_mem_arithmetic
  · exact noFlags_mem_arithmetic
  · exact noFlags_mem_arithmetic
  · exact List.mem_cons_of_mem _ (sumResult_flags_mem ..)

theorem mulRecords_flags_mem (policy : Tininess) (first : NanFirst) (rm : Rm) (x y : Record) :
    (mulRecords policy first rm x y).2 ∈ arithmeticFlagSets := by
  simp only [mulRecords]
  split_ifs
  · exact nanResult_flags_mem _
  · exact flagIE_mem_arithmetic
  · exact noFlags_mem_arithmetic
  · exact noFlags_mem_arithmetic
  · exact List.mem_cons_of_mem _ (roundToFormat_flags_mem ..)

theorem fmaRecords_flags_mem (policy : Tininess) (rm : Rm) (x y z : Record) :
    (fmaRecords policy rm x y z).2 ∈ arithmeticFlagSets := by
  simp only [fmaRecords]
  split_ifs
  · exact nanResult_flags_mem _
  · exact flagIE_mem_arithmetic
  · exact flagIE_mem_arithmetic
  · exact noFlags_mem_arithmetic
  · exact noFlags_mem_arithmetic
  · exact List.mem_cons_of_mem _ (sumResult_flags_mem ..)

theorem divRecords_flags_mem (args : ModelArgs) (rm : Rm) (x y : Record) :
    (divRecords args rm x y).2 ∈ operationFlagSets := by
  have hIE : flagIE ∈ operationFlagSets := List.mem_cons_of_mem _ flagIE_mem_arithmetic
  have hZE : flagZE ∈ operationFlagSets := List.mem_cons_self
  have hnone : noFlags ∈ operationFlagSets := List.mem_cons_of_mem _ noFlags_mem_arithmetic
  simp only [divRecords]
  split_ifs
  · exact List.mem_cons_of_mem _ (nanResult_flags_mem _)
  · exact hIE
  · exact hZE
  · exact hnone
  · exact hnone
  · exact hIE
  · exact hZE
  · exact hnone
  · exact List.mem_cons_of_mem _ (List.mem_cons_of_mem _ (roundToFormat_flags_mem ..))

theorem operationResult_flags_mem (args : ModelArgs) (p : Ports) (i : Instr) (h : isOperation i = true) :
    (operationResult args p i).2 ∈ operationFlagSets := by
  cases i with
  | add rm => exact List.mem_cons_of_mem _ (addRecords_flags_mem ..)
  | mul rm => exact List.mem_cons_of_mem _ (mulRecords_flags_mem ..)
  | fma rm => exact List.mem_cons_of_mem _ (fmaRecords_flags_mem ..)
  | div rm => exact divRecords_flags_mem ..
  | _ => cases h

/-! ### What a step does to the accumulator (R24, R357) -/

/-- Between `s` and `t` one of the flag sets of an operation has been ORed into the accumulator. -/
def Accumulates (s t : State) : Prop := ∃ F ∈ operationFlagSets, t.flags = s.flags ||| F

namespace Accumulates

theorem of_flags_eq {s t : State} (h : t.flags = s.flags) : Accumulates s t :=
  ⟨0x00#6, by decide, by rw [h, BitVec.or_zero]⟩

theorem keeps_set_bits {s t : State} (h : Accumulates s t) (i : Nat) (hi : s.flags.getLsbD i = true) :
    t.flags.getLsbD i = true := by
  obtain ⟨F, -, hF⟩ := h
  rw [hF, BitVec.getLsbD_or, hi, Bool.true_or]

/-- No operation signals `DE` (R357). -/
theorem keeps_DE {s t : State} (h : Accumulates s t) : t.flags.getLsbD 1 = s.flags.getLsbD 1 := by
  obtain ⟨F, hmem, hF⟩ := h
  have hDE : F.getLsbD 1 = false := (by decide : ∀ F ∈ operationFlagSets, F.getLsbD 1 = false) F hmem
  rw [hF, BitVec.getLsbD_or, hDE, Bool.or_false]

end Accumulates

theorem exec_accumulates (i : Instr) (s : State) : ∃ t, exec i s = .next t ∧ Accumulates s t := by
  cases h : isOperation i with
  | true => exact ⟨_, exec_operation i s h, _, operationResult_flags_mem s.args s.ports i h, rfl⟩
  | false =>
    rw [exec_unit i s h]
    rcases finishUnit_cases (unitResult s.args s.unitPorts i) s with ⟨o, -, ho⟩ | ⟨e, -, he⟩
    · exact ⟨_, ho, .of_flags_eq rfl⟩
    · exact ⟨_, he, .of_flags_eq rfl⟩

theorem runCode_accumulates (c : Except DecodeError Instr) (s : State) :
    ∃ t, runCode c s = .next t ∧ Accumulates s t := by
  cases c with
  | ok i => exact exec_accumulates i s
  | error e => exact ⟨_, runCode_error e s, .of_flags_eq rfl⟩

/-- Every interaction but a host write ORs a flag set into the accumulator (R397). -/
theorem perform_accumulates (r : Request) (s : State) (hw : ∀ mask value, r ≠ .writeFlags mask value) :
    ∃ t, perform r s = .next t ∧ Accumulates s t := by
  rcases perform_cases r s with
    ⟨cmd, p, -, h⟩ | ⟨ufc, u, -, h⟩ | ⟨-, h⟩ | ⟨mask, value, hr, -⟩ | ⟨-, h⟩
  · rw [h]; exact runCode_accumulates (decodeCommand cmd) (s.present p)
  · rw [h]; exact runCode_accumulates (decodeUnit ufc) (s.presentUnit u)
  · exact ⟨_, h, .of_flags_eq rfl⟩
  · exact absurd hr (hw mask value)
  · exact ⟨_, h, .of_flags_eq rfl⟩

theorem step_accumulates (s : State)
    (hw : ∀ mask value rest, s.pending ≠ Request.writeFlags mask value :: rest) :
    ∃ t, step s = .next t ∧ Accumulates s t := by
  cases h : s.pending with
  | nil => exact ⟨s, step_idle s h, .of_flags_eq rfl⟩
  | cons r rest =>
    rw [step_pending s r rest h]
    refine perform_accumulates r (s.withPending rest) fun mask value hr => hw mask value rest ?_
    rw [h, hr]

/-- Settles O9: a step that is no host write ORs the flag set of an operation into the accumulator, and `DE`
is in none of these sets. -/
theorem onlyAHostWriteClearsAFlag : Obligations.OnlyAHostWriteClearsAFlag := by
  intro s t hst hw
  obtain ⟨t', ht', hacc⟩ := step_accumulates s hw
  obtain rfl : t' = t := Host.Outcome.next.inj (ht'.symm.trans hst)
  exact ⟨hacc.keeps_set_bits, hacc.keeps_DE⟩

/-! ### What a step does with each kind of request (R22, R25, R397) -/

/-- Settles O3: the step takes the request, puts its values on the ports, and runs its decoded code word. -/
theorem stepRunsTheDecodedInstruction : Obligations.StepRunsTheDecodedInstruction := by
  constructor
  · intro s cmd p rest i hs hd
    calc step s = runCode (decodeCommand cmd) ((s.withPending rest).present p) := step_pending s _ rest hs
      _ = exec i ((s.withPending rest).present p) := by rw [hd, runCode_ok]
  · intro s ufc u rest i hs hd
    calc step s = runCode (decodeUnit ufc) ((s.withPending rest).presentUnit u) := step_pending s _ rest hs
      _ = exec i ((s.withPending rest).presentUnit u) := by rw [hd, runCode_ok]

/-- A host write takes the selected bits from its value and leaves the others (R25). -/
theorem State.writeFlags_flags_getLsbD (mask value : FlagWord) (s : State) (i : Nat) (hi : i < 6) :
    (s.writeFlags mask value).flags.getLsbD i =
      if mask.getLsbD i then value.getLsbD i else s.flags.getLsbD i := by
  rw [State.writeFlags_flags, BitVec.getLsbD_or, BitVec.getLsbD_and, BitVec.getLsbD_and, BitVec.getLsbD_not]
  cases mask.getLsbD i <;> simp [hi]

/-- Settles O5: a write and a read of the accumulator are each one step on the state's own access. -/
theorem hostWritesAndReadsTheAccumulator : Obligations.HostWritesAndReadsTheAccumulator := by
  constructor
  · intro s mask value rest hs
    exact ⟨((s.withPending rest).writeFlags mask value).flags, step_pending s _ rest hs,
      State.writeFlags_flags_getLsbD mask value (s.withPending rest)⟩
  · intro s rest hs
    exact step_pending s _ rest hs

/-- Settles O6: each field of the state after reset, by the laws of `State.resetWith`. -/
theorem resetLeavesFlagsInit : Obligations.ResetLeavesFlagsInit := by
  refine ⟨fun args => ?_, rfl, State.resetWith_flags ModelArgs.default⟩
  exact ⟨State.resetWith_flags args, State.resetWith_args args, State.resetWith_pending args,
    State.resetWith_outputs args, State.resetWith_faults args, State.resetWith_refusals args, rfl, rfl⟩

/-! ### The constant tables (R31, R51, R142, R198) -/

theorem pow_ten_lt_entry (k : Nat) (hk : k ≤ 76) : 10 ^ k < 2 ^ 256 :=
  lt_of_le_of_lt (Nat.pow_le_pow_right (by decide) hk) (by decide)

theorem romTenPow_readsConstant (k : Nat) (hk : k ≤ 76) : ReadsConstant (romTenPow k) (10 ^ k) := by
  rw [romTenPow_ok k hk]
  exact readsConstant_entryOf _ (pow_ten_lt_entry k hk)

/-- The entry of `HALF_ULP` is half a unit of the digits to discard (R198). -/
theorem romHalfUlp_readsConstant (x : Nat) (h1 : 1 ≤ x) (h75 : x ≤ 75) :
    ReadsConstant (romHalfUlp x) (10 ^ x / 2) := by
  have htwice := twice_halfUlp x h1
  have hhalf : 10 ^ x / 2 = 5 * 10 ^ (x - 1) := by omega
  have hlt := pow_ten_lt_entry x (by omega)
  rw [romHalfUlp_ok x ⟨h1, h75⟩, hhalf]
  exact readsConstant_entryOf _ (by omega)

theorem nrDigits_length : nrDigits.length = 256 := by decide +kernel

/-- The entries R142 lists, each against the powers of ten around the smallest value `2^k` of its bit
length `k + 1`, and the ambiguity bit against the end of that bit length. -/
theorem nrDigits_bracket : ∀ p ∈ nrDigits.zipIdx, p.1.1 < 2 ^ 63 ∧ 10 ^ (p.1.1 - 1) ≤ 2 ^ p.2 ∧
    2 ^ p.2 < 10 ^ p.1.1 ∧ (p.1.2 = true ↔ 10 ^ p.1.1 < 2 ^ (p.2 + 1)) := by
  decide +kernel

/-- What a read of `NR_DIGITS` answers: the digit count of the smallest value of the bit length, and whether
a value of the bit length has more digits (R142). -/
theorem romNrDigits_spec (b : Nat) (h1 : 1 ≤ b) (h256 : b ≤ 256) :
    ∃ e, romNrDigits b = .ok e ∧ e.d.toNat = digits (2 ^ (b - 1)) ∧
      (e.amb = true ↔ 10 ^ e.d.toNat < 2 ^ b) := by
  obtain ⟨k, rfl⟩ : ∃ k, b = k + 1 := ⟨b - 1, by omega⟩
  have hk : k < nrDigits.length := by rw [nrDigits_length]; omega
  have hget : nrDigits[k]? = some nrDigits[k] := List.getElem?_eq_getElem hk
  have hmem : (nrDigits[k], k) ∈ nrDigits.zipIdx := List.mem_zipIdx_iff_getElem?.mpr hget
  obtain ⟨h63, hlo, hhi, hamb⟩ := nrDigits_bracket _ hmem
  have hd : (BitVec.ofNat 63 nrDigits[k].1).toNat = nrDigits[k].1 := by
    rw [BitVec.toNat_ofNat, Nat.mod_eq_of_lt h63]
  have hpos : 1 ≤ nrDigits[k].1 := by
    by_contra h0
    have : 1 ≤ 2 ^ k := Nat.one_le_two_pow
    simp only [show nrDigits[k].1 = 0 by omega] at hhi
    omega
  refine ⟨⟨BitVec.ofNat 63 nrDigits[k].1, nrDigits[k].2⟩, ?_, ?_, ?_⟩
  · simp only [romNrDigits, hget]
  · rw [hd]; exact (digits_unique _ _ hpos hlo hhi).symm
  · rw [hd]; exact hamb

theorem le_threshWidth (b : Nat) (h : b ≤ 256) : b ≤ threshWidth b := by
  unfold threshWidth
  split_ifs <;> omega

theorem digitEntryMeetsContract (b : Nat) (h1 : 1 ≤ b) (h256 : b ≤ 256) : DigitEntryMeetsContract b := by
  obtain ⟨e, he, hd, hamb⟩ := romNrDigits_spec b h1 h256
  refine ⟨e, he, hd, ?_, fun ha => ⟨_, romDigitThresh_ambiguous b e he ha, rfl, ?_⟩⟩
  · have hlast := digits_le_iff (2 ^ b - 1) (digits (2 ^ (b - 1))) (digits_pos _)
    have hone : 1 ≤ 2 ^ b := Nat.one_le_two_pow
    rw [hamb, hd]
    omega
  · have hfits : 10 ^ e.d.toNat < 2 ^ threshWidth b :=
      lt_of_lt_of_le (hamb.mp ha) (Nat.pow_le_pow_right (by decide) (le_threshWidth b h256))
    rw [BitVec.toNat_ofNat, Nat.mod_eq_of_lt hfits, hd]

/-- Settles O28: each table against its contract. -/
theorem constantTablesMeetTheirContracts : Obligations.ConstantTablesMeetTheirContracts :=
  ⟨digitEntryMeetsContract, romTenPow_readsConstant, romHalfUlp_readsConstant⟩

end Sys2Proof.Machine
end

section
/-!
PROOFS. The family of 20_memory.md: which code words decode, what is refused, and the order of two operations
on the one accumulator.
-/
namespace Sys2Proof

/-! ### Which code words decode (R77 to R84) -/

theorem rmField_toNat (w : CommandWord) : (rmField w).toNat = w.toNat / 8 := by
  have hw := w.isLt
  simp only [rmField, BitVec.extractLsb_toNat, Nat.shiftRight_eq_div_pow]
  omega

theorem opField_toNat (w : CommandWord) : (opField w).toNat = w.toNat % 8 := by
  simp [opField]

theorem decodeRm_eq_none_iff (c : BitVec 3) : decodeRm c = none ↔ 5 ≤ c.toNat := by
  decide +revert

theorem decodeOp_eq_none_iff (c : BitVec 3) (rm : Rm) : decodeOp c rm = none ↔ 4 ≤ c.toNat := by
  cases rm <;> decide +revert

theorem isOperation_of_decodeOp {c : BitVec 3} {rm : Rm} {i : Instr} (h : decodeOp c rm = some i) :
    Machine.isOperation i = true := by
  unfold decodeOp at h
  split at h <;> cases h <;> rfl

/-- A command word with a defined `OP` and a defined `RM` spells an operation (R78, R79). -/
theorem decodeCommand_of_wf (w : CommandWord) (h : CommandWord.wf w = true) :
    ∃ i, decodeCommand w = .ok i ∧ Machine.isOperation i = true := by
  simp only [CommandWord.wf, Bool.and_eq_true, decide_eq_true_eq] at h
  obtain ⟨hop, hrm⟩ := h
  obtain ⟨rm, hrm⟩ := Option.ne_none_iff_exists'.mp (mt (decodeRm_eq_none_iff (rmField w)).mp hrm.not_ge)
  obtain ⟨i, hi⟩ := Option.ne_none_iff_exists'.mp (mt (decodeOp_eq_none_iff (opField w) rm).mp hop.not_ge)
  exact ⟨i, by simp only [decodeCommand, hrm, hi], isOperation_of_decodeOp hi⟩

/-- A command word with a reserved `OP` or a reserved `RM` spells nothing (R83). -/
theorem decodeCommand_reserved (w : CommandWord) (h : 4 ≤ w.toNat % 8 ∨ 5 ≤ w.toNat / 8) :
    decodeCommand w = .error .reservedCommand := by
  rw [← opField_toNat, ← rmField_toNat, ← decodeRm_eq_none_iff] at h
  unfold decodeCommand
  cases hrm : decodeRm (rmField w) with
  | none => rfl
  | some rm =>
    have hop : 4 ≤ (opField w).toNat := h.resolve_right (by simp [hrm])
    simp only [(decodeOp_eq_none_iff _ rm).mpr hop]

/-- The unit function codes of the table of R81. -/
def listedUnitCodes : List Nat :=
  [0x00, 0x01, 0x02, 0x10, 0x11, 0x12, 0x13, 0x14, 0x15, 0x16, 0x17, 0x18, 0x19, 0x1A, 0x1B,
    0x20, 0x21, 0x22, 0x23, 0x24, 0x25, 0x26, 0x30, 0x31, 0x40, 0x41, 0x50, 0x51, 0x52, 0x53, 0x60, 0x61,
    0x70, 0x71, 0x72]

/-- A unit function code that R81 does not list spells nothing (R84): every arm of the decoder but the last
is for a listed code. -/
theorem decodeUnit_unlisted (u : UnitCode) (h : u.toNat ∉ listedUnitCodes) :
    decodeUnit u = .error .reservedUnitFunction := by
  unfold decodeUnit
  split
  case h_36 => rfl
  all_goals
    rename_i hcode
    exact absurd (hcode ▸ by decide) h

end Sys2Proof

namespace Sys2Proof.Machine

/-! ### What is refused (R58, R83, R84) -/

/-- Settles O4: a reserved code word decodes to the error whose refusal `runCode` records, and overlapping
operations are refused undecoded. -/
theorem undefinedRequestsAreRefused : Obligations.UndefinedRequestsAreRefused := by
  refine ⟨?_, ?_, fun s _ _ _ _ rest hs => step_pending s _ rest hs⟩
  · intro s cmd p rest hs hres
    calc step s = runCode (decodeCommand cmd) ((s.withPending rest).present p) := step_pending s _ rest hs
      _ = .next (((s.withPending rest).present p).recordRefusal .reservedCommand) := by
        rw [decodeCommand_reserved cmd hres, runCode_error, refusalOf]
  · intro s ufc u rest hs hres
    calc step s = runCode (decodeUnit ufc) ((s.withPending rest).presentUnit u) := step_pending s _ rest hs
      _ = .next (((s.withPending rest).presentUnit u).recordRefusal .reservedUnitFunction) := by
        rw [decodeUnit_unlisted ufc hres, runCode_error, refusalOf]

/-! ### Two operations in either order (R57) -/

/-- Under the model arguments `args`, an operation request with command word `cmd` and operands `p` is
answered by the result word and flag set `r`, whatever else the state holds. -/
def AnsweredBy (args : ModelArgs) (cmd : CommandWord) (p : Ports) (r : Word × FlagWord) : Prop :=
  ∀ s rest, s.args = args → s.pending = Request.operation cmd p :: rest →
    step s = .next (((s.withPending rest).present p).complete r)

theorem exists_answeredBy (args : ModelArgs) (cmd : CommandWord) (p : Ports) (h : CommandWord.wf cmd = true) :
    ∃ r, AnsweredBy args cmd p r := by
  obtain ⟨i, hi, hop⟩ := decodeCommand_of_wf cmd h
  refine ⟨operationResult args p i, ?_⟩
  rintro s rest rfl hs
  calc step s = runCode (decodeCommand cmd) ((s.withPending rest).present p) := step_pending s _ rest hs
    _ = exec i ((s.withPending rest).present p) := by rw [hi, runCode_ok]
    _ = _ := exec_operation i _ hop

theorem run_succ_of_next (M : Host.Core) {s t : M.State} (h : M.step s = .next t) (k : Nat) :
    M.run (k + 1) s = M.run k t := by
  rw [Host.Core.run, h]

theorem core_run_succ_of_step {s t : State} (h : step s = .next t) (k : Nat) :
    Host.Core.run core (k + 1) s = Host.Core.run core k t :=
  run_succ_of_next core (s := s) (t := t) h k

/-- A run of two operation requests drives their results in the order of issue and ORs in both flag sets. -/
theorem run_two_operations (s : State) {cmd₁ cmd₂ : CommandWord} {p₁ p₂ : Ports} {r₁ r₂ : Word × FlagWord}
    (h₁ : AnsweredBy s.args cmd₁ p₁ r₁) (h₂ : AnsweredBy s.args cmd₂ p₂ r₂) :
    ∃ t : State,
      Host.Core.run core 2 { s with pending := [.operation cmd₁ p₁, .operation cmd₂ p₂] } = .next t ∧
      t.outputs = s.outputs ++ [.res r₁.1, .res r₂.1] ∧ t.flags = s.flags ||| r₁.2 ||| r₂.2 := by
  have hfirst := h₁ (s.withPending [.operation cmd₁ p₁, .operation cmd₂ p₂]) _ rfl rfl
  have hsecond := h₂ (((s.withPending [.operation cmd₂ p₂]).present p₁).complete r₁) _ rfl rfl
  exact ⟨_, (core_run_succ_of_step hfirst 1).trans (core_run_succ_of_step hsecond 0), by simp, by simp⟩

/-- Settles O13: what answers a request depends on neither the accumulator nor the other request, and OR is
associative and commutative. -/
theorem orderOfOperationsIsImmaterial : Obligations.OrderOfOperationsIsImmaterial := by
  intro s cmd₁ p₁ cmd₂ p₂ hwf₁ hwf₂
  obtain ⟨r₁, h₁⟩ := exists_answeredBy s.args cmd₁ p₁ hwf₁
  obtain ⟨r₂, h₂⟩ := exists_answeredBy s.args cmd₂ p₂ hwf₂
  obtain ⟨t, ht, htout, htflags⟩ := run_two_operations s h₁ h₂
  obtain ⟨u, hu, huout, huflags⟩ := run_two_operations s h₂ h₁
  refine ⟨r₁.1, r₂.1, t, u, ht, hu, htout, huout, ?_⟩
  calc t.flags = s.flags ||| (r₁.2 ||| r₂.2) := by rw [htflags, BitVec.or_assoc]
    _ = s.flags ||| (r₂.2 ||| r₁.2) := by rw [BitVec.or_comm r₁.2]
    _ = u.flags := by rw [huflags, BitVec.or_assoc]

end Sys2Proof.Machine
end

section
/-!
PROOFS. The family of 30_encoding.md: decoding and encoding are inverse, and every output the block drives is
canonical.
-/
namespace Sys2Proof

/-! ### The fields of a command word and the code of each (R77 to R79) -/

@[simp] theorem rmField_commandOf (rm : Rm) (op : BitVec 3) : rmField (commandOf rm op) = encodeRm rm := by
  have hop := op.isLt
  apply BitVec.eq_of_toNat_eq
  rw [rmField_toNat, commandOf, BitVec.toNat_append, ← Nat.shiftLeft_add_eq_or_of_lt hop, Nat.shiftLeft_eq]
  omega

@[simp] theorem opField_commandOf (rm : Rm) (op : BitVec 3) : opField (commandOf rm op) = op := by
  have hop := op.isLt
  apply BitVec.eq_of_toNat_eq
  rw [opField_toNat, commandOf, BitVec.toNat_append, ← Nat.shiftLeft_add_eq_or_of_lt hop, Nat.shiftLeft_eq]
  omega

/-- A command word is its two fields and nothing else (R77). -/
theorem rmField_append_opField (w : CommandWord) : rmField w ++ opField w = w := by
  have hop := (opField w).isLt
  apply BitVec.eq_of_toNat_eq
  rw [BitVec.toNat_append, ← Nat.shiftLeft_add_eq_or_of_lt hop, Nat.shiftLeft_eq, rmField_toNat, opField_toNat]
  omega

@[simp] theorem decodeRm_encodeRm (rm : Rm) : decodeRm (encodeRm rm) = some rm := by
  cases rm <;> rfl

theorem encodeRm_of_decodeRm {c : BitVec 3} {rm : Rm} (h : decodeRm c = some rm) : encodeRm rm = c := by
  unfold decodeRm at h
  split at h <;> cases h
  all_goals
    rename_i hc
    exact BitVec.eq_of_toNat_eq hc.symm

/-- The code word of the operation with code `c` in mode `rm` is these two fields (R77, R78). -/
theorem encode_of_decodeOp {c : BitVec 3} {rm : Rm} {i : Instr} (h : decodeOp c rm = some i) :
    encode i = .command (commandOf rm c) := by
  unfold decodeOp at h
  split at h <;> cases h
  all_goals
    rename_i hc
    exact congrArg (fun op => Code.command (commandOf rm op)) (BitVec.eq_of_toNat_eq hc.symm)

/-! ### Decoding and encoding are inverse (R77 to R84) -/

theorem decodeCommand_eq_ok_iff (w : CommandWord) (i : Instr) :
    decodeCommand w = .ok i ↔ ∃ rm, decodeRm (rmField w) = some rm ∧ decodeOp (opField w) rm = some i := by
  unfold decodeCommand
  cases decodeRm (rmField w) with
  | none => simp
  | some rm => cases hop : decodeOp (opField w) rm <;> simp [hop]

theorem decodeCommand_commandOf {op : BitVec 3} {rm : Rm} {i : Instr} (h : decodeOp op rm = some i) :
    decodeCommand (commandOf rm op) = .ok i :=
  (decodeCommand_eq_ok_iff _ i).mpr ⟨rm, by simp, by simp [h]⟩

theorem decode_encode (i : Instr) : decode (encode i) = .ok i := by
  cases i with
  | add rm => exact decodeCommand_commandOf rfl
  | mul rm => exact decodeCommand_commandOf rfl
  | fma rm => exact decodeCommand_commandOf rfl
  | div rm => exact decodeCommand_commandOf rfl
  | _ => rfl

theorem encode_of_decodeCommand {w : CommandWord} {i : Instr} (h : decodeCommand w = .ok i) :
    encode i = .command w := by
  obtain ⟨rm, hrm, hop⟩ := (decodeCommand_eq_ok_iff w i).mp h
  rw [encode_of_decodeOp hop, commandOf, encodeRm_of_decodeRm hrm, rmField_append_opField]

/-- The decoder gives each function at one code of R81, the code the encoder gives it. -/
theorem encode_of_decodeUnit {u : UnitCode} {i : Instr} (h : decodeUnit u = .ok i) : encode i = .unit u := by
  unfold decodeUnit at h
  split at h <;> cases h
  all_goals
    rename_i hu
    exact congrArg Code.unit (BitVec.eq_of_toNat_eq hu.symm)

theorem encode_of_decode {c : Code} {i : Instr} (h : decode c = .ok i) : encode i = c := by
  cases c with
  | command w => exact encode_of_decodeCommand h
  | unit u => exact encode_of_decodeUnit h

/-- Settles O2: the decoder inverts the encoder on every instruction, and the encoder the decoder on every
code word that decodes. -/
theorem decodeAndEncodeAgree : Obligations.DecodeAndEncodeAgree :=
  ⟨decode_encode, fun _ _ => encode_of_decode⟩

/-- Settles O1: each word written out is the code word of the instruction the tables give it. -/
theorem writtenCodeWordsDecode : Obligations.WrittenCodeWordsDecode :=
  ⟨decode_encode (.add .rn), decode_encode (.add .rd), decode_encode (.mul .ru), decode_encode (.fma .rz),
    decode_encode (.div .ra), decode_encode .quietnan, decode_encode .mwadd512, decode_encode .mwsub512,
    decode_encode .mul128x192_320, decode_encode .div256by128, decode_encode .dcnt256, decode_encode .rnd256,
    decode_encode .assemble, decode_encode .divscale⟩

end Sys2Proof

namespace Sys2Proof.Machine

/-! ### The words a rounding answers are canonical (R75, R208, R210, R212) -/

theorem zero_canonical (limit : Nat) (s : Bool) (q : Int) (h : q ≤ Config.QMAX) :
    canonicalWord limit (packWord s (biased q) 0) = true :=
  packWord_canonical limit s _ 0 (biased_le q h) (Nat.zero_le _)

theorem dnan_canonical (limit : Nat) : canonicalWord limit dnan = true :=
  qnanWord_canonical limit false 0 (Nat.zero_le _)

theorem maxfin_canonical (limit : Nat) (s : Bool) : canonicalWord limit (maxfin s) = true :=
  packWord_canonical limit s _ _ le_rfl le_rfl

theorem ovfWord_canonical (limit : Nat) (s : Bool) (rm : Rm) : canonicalWord limit (ovfWord s rm) = true := by
  have hinf := infWord_canonical limit s
  have hmax := maxfin_canonical limit s
  cases rm with
  | rn | ra => exact hinf
  | rz => exact hmax
  | ru | rd => cases s <;> assumption

theorem roundToFormat_canonical (limit : Nat) (policy : Tininess) (s : Bool) (v : Magnitude) (pref : Int)
    (rm : Rm) (hn : v.num ≠ 0) (hd : v.den ≠ 0) :
    canonicalWord limit (roundToFormat policy s v pref rm).1 = true := by
  rcases roundToFormat_cases policy s v pref rm hn hd with
    ⟨-, h⟩ | ⟨-, C, q, -, hq, hC, ⟨-, h, -⟩ | ⟨-, h, -⟩⟩ <;> rw [h]
  · exact ovfWord_canonical limit s rm
  · exact packWord_canonical limit s _ C (biased_le q hq) hC
  · exact packWord_canonical limit s _ C (biased_le q hq) hC

theorem sumResult_canonical (limit : Nat) (policy : Tininess) (rm : Rm) (m e pref : Int) (sa sb : Bool)
    (hpref : pref ≤ Config.QMAX) :
    canonicalWord limit (sumResult policy rm m e pref sa sb).1 = true := by
  unfold sumResult
  split_ifs with hm
  · exact zero_canonical limit _ pref hpref
  · exact roundToFormat_canonical limit policy _ _ pref rm (Int.natAbs_ne_zero.mpr hm) one_ne_zero

/-! ### The results of the operations on decoded operands are canonical (R75, R169) -/

section
variable {limit : Nat} {x y z : Record}

theorem wf_payload_le (hx : Record.wf limit x = true) (hnan : isNaN x = true) : x.PL.toNat ≤ limit := by
  unfold Record.wf at hx
  rcases (isNaN_iff x).mp hnan with hc | hc <;> simp only [hc, Bool.and_eq_true, decide_eq_true_eq] at hx
  · exact hx.2
  · exact hx.2

theorem wf_quantumExp_le (hx : Record.wf limit x = true) : quantumExp x ≤ Config.QMAX := by
  have hE := wf_exponent_le limit x hx
  simp only [quantumExp, Config.EBMAX, Config.BIAS, Config.QMAX] at *
  omega

/-- A decoded record that is no NaN, no infinity and no zero has a coefficient that is not 0 (R166). -/
theorem wf_coefficient_ne_zero (hx : Record.wf limit x = true) (hnan : isNaN x = false) (hinf : x.cls ≠ .inf)
    (hzero : x.cls ≠ .zero) : x.Cf.toNat ≠ 0 := by
  unfold Record.wf at hx
  cases hc : x.cls with
  | finite =>
    simp only [hc, Bool.and_eq_true, decide_eq_true_eq] at hx
    obtain ⟨⟨⟨-, hCf⟩, -⟩, -⟩ := hx
    exact fun h => hCf (BitVec.eq_of_toNat_eq h)
  | zero => exact absurd hc hzero
  | inf => exact absurd hc hinf
  | qnan => simp [isNaN, hc] at hnan
  | snan => simp [isNaN, hc] at hnan

theorem nanResult_canonical {order : List Record} (h : ∀ r ∈ order, Record.wf limit r = true) :
    canonicalWord limit (nanResult order).1 = true := by
  unfold nanResult
  cases hfind : order.find? isNaN with
  | none => exact dnan_canonical limit
  | some r =>
    exact qnanWord_canonical limit r.s r.PL
      (wf_payload_le (h r (List.mem_of_find?_eq_some hfind)) (List.find?_some hfind))

theorem clamp_le_QMAX (e : Int) : clamp e Config.QMIN Config.QMAX ≤ Config.QMAX :=
  (clamp_mem e Config.QMIN Config.QMAX (by decide)).2

theorem addRecords_canonical (policy : Tininess) (rm : Rm) (hx : Record.wf limit x = true)
    (hy : Record.wf limit y = true) : canonicalWord limit (addRecords policy rm x y).1 = true := by
  unfold addRecords
  split_ifs
  · exact nanResult_canonical (by simp [hx, hy])
  · exact dnan_canonical limit
  · exact infWord_canonical limit x.s
  · exact infWord_canonical limit x.s
  · exact infWord_canonical limit y.s
  · exact sumResult_canonical limit policy rm _ _ _ _ _ (min_le_of_left_le (wf_quantumExp_le hx))

theorem mulRecords_canonical (policy : Tininess) (first : NanFirst) (rm : Rm) (hx : Record.wf limit x = true)
    (hy : Record.wf limit y = true) : canonicalWord limit (mulRecords policy first rm x y).1 = true := by
  simp only [mulRecords]
  split_ifs with hnan hinf _ hzero
  · refine nanResult_canonical ?_
    cases first <;> simp [mulOrder, hx, hy]
  · exact dnan_canonical limit
  · exact infWord_canonical limit _
  · exact zero_canonical limit _ _ (clamp_le_QMAX _)
  · simp only [Bool.or_eq_true, Bool.not_eq_true, not_or] at hnan hinf hzero
    exact roundToFormat_canonical limit policy _ _ _ rm
      (Nat.mul_ne_zero (wf_coefficient_ne_zero hx hnan.1 hinf.1 hzero.1)
        (wf_coefficient_ne_zero hy hnan.2 hinf.2 hzero.2)) one_ne_zero

theorem fmaRecords_canonical (policy : Tininess) (rm : Rm) (hx : Record.wf limit x = true)
    (hy : Record.wf limit y = true) (hz : Record.wf limit z = true) :
    canonicalWord limit (fmaRecords policy rm x y z).1 = true := by
  simp only [fmaRecords]
  split_ifs
  · exact nanResult_canonical (by simp [hx, hy, hz])
  · exact dnan_canonical limit
  · exact dnan_canonical limit
  · exact infWord_canonical limit _
  · exact infWord_canonical limit z.s
  · exact sumResult_canonical limit policy rm _ _ _ _ _ (clamp_le_QMAX _)

theorem divRecords_canonical (args : ModelArgs) (rm : Rm) (hx : Record.wf limit x = true)
    (hy : Record.wf limit y = true) : canonicalWord limit (divRecords args rm x y).1 = true := by
  simp only [divRecords]
  split_ifs with hnan hxinf _ _ hyinf hyzero _ hxzero
  · exact nanResult_canonical (by simp [hx, hy])
  · exact dnan_canonical limit
  · exact infWord_canonical limit _
  · exact infWord_canonical limit _
  · exact packWord_canonical limit _ 0 0 (Nat.zero_le _) (Nat.zero_le _)
  · exact dnan_canonical limit
  · exact infWord_canonical limit _
  · exact zero_canonical limit _ _ (clamp_le_QMAX _)
  · simp only [Bool.or_eq_true, Bool.not_eq_true, not_or] at hnan
    exact roundToFormat_canonical limit args.tininess _ _ _ rm
      (wf_coefficient_ne_zero hx hnan.1 hxinf hxzero) (wf_coefficient_ne_zero hy hnan.2 hyinf hyzero)

end

theorem operationResult_canonical (args : ModelArgs) (p : Ports) (i : Instr) (h : isOperation i = true) :
    canonicalWord args.nanPayloadLimit (operationResult args p i).1 = true := by
  have hwf := unpack_wf args.nanPayloadLimit
  cases i with
  | add rm => exact addRecords_canonical args.tininess rm (hwf p.a) (hwf p.b)
  | mul rm => exact mulRecords_canonical args.tininess args.mulNanFirst rm (hwf p.a) (hwf p.b)
  | fma rm => exact fmaRecords_canonical args.tininess rm (hwf p.a) (hwf p.b) (hwf p.c)
  | div rm => exact divRecords_canonical args rm (hwf p.a) (hwf p.b)
  | _ => cases h

/-! ### What the unit functions drive (R143, R144, R193, R208) -/

theorem digits_mono {m n : Nat} (h : m ≤ n) : digits m ≤ digits n :=
  Nat.succ_le_succ (Nat.log_mono_right h)

/-- The digit counter counts the digits of every magnitude of at most 256 bits: the table's candidate, or one
more where the threshold is reached (R140, R141). -/
theorem dcnt_eq_digits (C : Nat) (h0 : C ≠ 0) (h256 : C < 2 ^ 256) : dcnt C = .ok (digits C) := by
  have hlo := pow_bitlen_le C h0
  have hhi := lt_pow_bitlen C
  obtain ⟨e, he, hd, hamb, hthresh⟩ :=
    digitEntryMeetsContract (bitlen C) (bitlen_pos C) (bitlen_le_of_lt C 256 (by decide) h256)
  have hge : e.d.toNat ≤ digits C := hd ▸ digits_mono hlo
  have hpos : 1 ≤ e.d.toNat := hd ▸ digits_pos _
  simp only [dcnt, if_neg h0, he]
  cases ha : e.amb with
  | false =>
    have hlast : digits C ≤ digits (2 ^ bitlen C - 1) := digits_mono (by omega)
    have hsame : ¬ digits (2 ^ (bitlen C - 1)) < digits (2 ^ bitlen C - 1) := by simp [← hamb, ha]
    simp only [Bool.false_eq_true, if_false, Except.ok.injEq]
    omega
  | true =>
    obtain ⟨t, ht, -, htv⟩ := hthresh ha
    rw [← hd] at htv
    simp only [if_true, ht, htv]
    have hle := digits_le_iff C e.d.toNat hpos
    split_ifs with hreached
    · have hdouble : 2 ^ bitlen C = 2 * 2 ^ (bitlen C - 1) := by
        rw [← pow_succ', Nat.sub_add_cancel (bitlen_pos C)]
      have hfirst := lt_pow_digits (2 ^ (bitlen C - 1))
      rw [← hd] at hfirst
      have hnext := (digits_le_iff C (e.d.toNat + 1) (by omega)).mpr (by rw [pow_succ]; omega)
      rw [Except.ok.injEq]
      omega
    · rw [Except.ok.injEq]
      omega

/-- A digit count is between 1 and 78 (R143, R144). -/
theorem dcnt_lowBits_range {W q : Nat} {p : BitVec 512} (hW : W ≤ 256)
    (h : dcnt (lowBits W p).toNat = .ok q) : 1 ≤ q ∧ q ≤ 78 := by
  have h0 : (lowBits W p).toNat ≠ 0 := by
    intro h0
    rw [h0] at h
    cases h
  have h256 := lt_of_lt_of_le (lowBits W p).isLt (Nat.pow_le_pow_right (by decide) hW)
  rw [dcnt_eq_digits _ h0 h256, Except.ok.injEq] at h
  rw [← h]
  exact ⟨digits_pos _, (digits_le_iff _ 78 (by decide)).mpr (lt_trans h256 (by decide))⟩

theorem classify_indicators_wf (Q R half : Nat) : Indicators.wf (classify Q R half).2 = true := by
  rcases classify_cases Q R half with ⟨-, h⟩ | ⟨-, -, h⟩ | ⟨-, -, h⟩ | ⟨-, -, -, h⟩ | ⟨-, -, -, h⟩ <;>
    rw [h] <;> rfl

theorem rndWith_indicators (half C x : Nat) :
    (rndWith half C x).ind = (classify (C / 10 ^ x) (C % 10 ^ x) half).2 := by
  simp only [rndWith]
  split_ifs <;> rfl

theorem rndUnit_indicators_wf {lo hi C x : Nat} {r : Rounded} (h : rndUnit lo hi C x = .ok r) :
    Indicators.wf r.ind = true := by
  unfold rndUnit at h
  split_ifs at h
  split at h <;> cases h
  rw [rndWith_indicators]
  exact classify_indicators_wf _ _ _

theorem packed_canonical (limit : Nat) {s : Bool} {E Cf : Nat} {F : FlagWord} {r : Word × FlagWord}
    (h : packed s E Cf F = .ok r) : canonicalWord limit r.1 = true := by
  unfold packed pack at h
  split_ifs at h with hrange
  cases h
  exact packWord_canonical limit s E Cf hrange.1 hrange.2

theorem assemble_canonical (limit : Nat) {s : Bool} {C : Nat} {e : Int} {rm : Rm} {inexact tiny : Bool}
    {r : Word × FlagWord} (h : assemble s C e rm inexact tiny = .ok r) : canonicalWord limit r.1 = true := by
  simp only [assemble] at h
  split_ifs at h
  · exact packed_canonical limit h
  · cases h
    exact ovfWord_canonical limit s rm
  · exact packed_canonical limit h

theorem outputOf_eq_ok {α : Type} {f : α → Output} {r : Except Fault α} {o : Output}
    (h : outputOf f r = .ok o) : ∃ x, r = .ok x ∧ o = f x := by
  cases r with
  | ok x => exact ⟨x, rfl, (Except.ok.inj h).symm⟩
  | error e => cases h

theorem unitResult_outputOk (args : ModelArgs) (u : UnitPorts) (i : Instr) {o : Output}
    (h : unitResult args u i = .ok o) : outputOk args.nanPayloadLimit o = true := by
  cases i with
  | unpack =>
    cases h
    exact unpack_wf args.nanPayloadLimit u.w
  | dcnt128 | dcnt256 =>
    obtain ⟨q, hq, rfl⟩ := outputOf_eq_ok h
    simpa [outputOk] using dcnt_lowBits_range (by decide) hq
  | rnd64 | rnd128 | rnd192 | rnd256 =>
    obtain ⟨r, hr, rfl⟩ := outputOf_eq_ok h
    exact rndUnit_indicators_wf hr
  | assemble =>
    obtain ⟨r, hr, rfl⟩ := outputOf_eq_ok h
    exact assemble_canonical args.nanPayloadLimit hr
  | pack | quietnan | div128by128 | div256by128 | alignAdd | alignFma | divscale =>
    obtain ⟨_, -, rfl⟩ := outputOf_eq_ok h
    rfl
  | add | mul | fma | div => cases h
  | _ =>
    cases h
    rfl

/-! ### What every step keeps of the outputs (R75) -/

theorem outputsOk_emit {s : State} {o : Output} (h : OutputsOk s)
    (ho : outputOk s.args.nanPayloadLimit o = true) : OutputsOk (s.emit o) := by
  intro o' ho'
  rw [State.emit_outputs, List.mem_append, List.mem_singleton] at ho'
  rcases ho' with hold | rfl
  · exact h o' hold
  · exact ho

theorem exec_outputsOk (i : Instr) (s : State) (h : OutputsOk s) :
    ∃ t, exec i s = .next t ∧ OutputsOk t := by
  cases hop : isOperation i with
  | true =>
    exact ⟨_, exec_operation i s hop, outputsOk_emit h (operationResult_canonical s.args s.ports i hop)⟩
  | false =>
    rw [exec_unit i s hop]
    rcases finishUnit_cases (unitResult s.args s.unitPorts i) s with ⟨o, ho, hnext⟩ | ⟨e, -, hnext⟩
    · exact ⟨_, hnext, outputsOk_emit h (unitResult_outputOk s.args s.unitPorts i ho)⟩
    · exact ⟨_, hnext, h⟩

theorem runCode_outputsOk (c : Except DecodeError Instr) (s : State) (h : OutputsOk s) :
    ∃ t, runCode c s = .next t ∧ OutputsOk t := by
  cases c with
  | ok i => exact exec_outputsOk i s h
  | error e => exact ⟨_, runCode_error e s, h⟩

theorem perform_outputsOk (r : Request) (s : State) (h : OutputsOk s) :
    ∃ t, perform r s = .next t ∧ OutputsOk t := by
  rcases perform_cases r s with
    ⟨cmd, p, -, hr⟩ | ⟨ufc, u, -, hr⟩ | ⟨-, hr⟩ | ⟨mask, value, -, hr⟩ | ⟨-, hr⟩
  · rw [hr]; exact runCode_outputsOk (decodeCommand cmd) (s.present p) h
  · rw [hr]; exact runCode_outputsOk (decodeUnit ufc) (s.presentUnit u) h
  · exact ⟨_, hr, h⟩
  · exact ⟨_, hr, h⟩
  · exact ⟨_, hr, h⟩

theorem step_outputsOk (s : State) (h : OutputsOk s) : ∃ t, step s = .next t ∧ OutputsOk t := by
  cases hs : s.pending with
  | nil => exact ⟨s, step_idle s hs, h⟩
  | cons r rest =>
    rw [step_pending s r rest hs]
    exact perform_outputsOk r (s.withPending rest) h

/-- Settles O10: a step appends at most one output, and what an operation or a unit function drives is
canonical. -/
theorem stepKeepsOutputsCanonical : Obligations.StepKeepsOutputsCanonical := by
  intro s t hs hst
  obtain ⟨t', ht', hok⟩ := step_outputsOk s hs
  obtain rfl : t' = t := Host.Outcome.next.inj (ht'.symm.trans hst)
  exact hok

end Sys2Proof.Machine
end

section
/-!
PROOFS. The family of 40_integer_kernel.md: the adders and subtractors with their limb loops, the multipliers,
the dividers, and the named faults of the arithmetic units.
-/
namespace Sys2Proof.Machine

/-! ### The adders and subtractors (R101 to R113) -/

theorem lowBits_toNat_of_lt {W : Nat} {p : BitVec 512} (h : p.toNat < 2 ^ W) :
    (lowBits W p).toNat = p.toNat := by
  rw [lowBits_toNat, Nat.mod_eq_of_lt h]

/-- Sum and carry out together are the exact sum (R113): the sum is below `2 × 2^W`, so a
carry takes `2^W` from it at most once. -/
theorem mwAdd_exact (W : Nat) (a b : BitVec W) (c : Bool) :
    (mwAdd W a b c).1.toNat + 2 ^ W * (mwAdd W a b c).2.toNat = a.toNat + b.toNat + c.toNat := by
  have ha := a.isLt
  have hb := b.isLt
  have hc := c.toNat_le
  simp only [mwAdd, BitVec.toNat_ofNat]
  by_cases h : 2 ^ W ≤ a.toNat + b.toNat + c.toNat
  · rw [Nat.mod_eq_sub_mod h, Nat.mod_eq_of_lt (by omega)]
    simp only [h, decide_true, Bool.toNat_true]
    omega
  · rw [Nat.mod_eq_of_lt (by omega)]
    simp [h]

/-- Difference and borrow out together are the exact difference (R113): the difference is between `-2^W` and
`2^W`, and a borrow adds `2^W` to it. -/
theorem mwSub_exact (W : Nat) (a b : BitVec W) (c : Bool) :
    (mwSub W a b c).1.toNat + b.toNat + c.toNat = a.toNat + 2 ^ W * (mwSub W a b c).2.toNat := by
  have ha := a.isLt
  have hb := b.isLt
  have hc := c.toNat_le
  simp only [mwSub, BitVec.toNat_ofInt]
  by_cases h : a.toNat < b.toNat + c.toNat
  · rw [← Int.add_emod_right, Int.emod_eq_of_lt (by omega) (by omega)]
    simp only [h, decide_true, Bool.toNat_true]
    omega
  · rw [Int.emod_eq_of_lt (by omega) (by omega)]
    simp only [h, decide_false, Bool.toNat_false]
    omega

theorem addsAt_of_unitResult {W : Nat} {i : Instr} {s : State} (hi : isOperation i = false)
    (h : unitResult s.args s.unitPorts i =
      .ok (sumOutput W (mwAdd W (lowBits W s.unitPorts.ia) (lowBits W s.unitPorts.ib) s.unitPorts.cin)))
    (hfit : PortsFit W W s) : AddsAt W i s := by
  refine ⟨_, _, unitDrives_of_unitResult hi h, ?_⟩
  rw [mwAdd_exact, lowBits_toNat_of_lt hfit.1, lowBits_toNat_of_lt hfit.2]

theorem subtractsAt_of_unitResult {W : Nat} {i : Instr} {s : State} (hi : isOperation i = false)
    (h : unitResult s.args s.unitPorts i =
      .ok (sumOutput W (mwSub W (lowBits W s.unitPorts.ia) (lowBits W s.unitPorts.ib) s.unitPorts.cin)))
    (hfit : PortsFit W W s) : SubtractsAt W i s := by
  refine ⟨_, _, unitDrives_of_unitResult hi h, ?_⟩
  have hexact := mwSub_exact W (lowBits W s.unitPorts.ia) (lowBits W s.unitPorts.ib) s.unitPorts.cin
  rwa [lowBits_toNat_of_lt hfit.1, lowBits_toNat_of_lt hfit.2] at hexact

/-- Settles O18: each adder is `mwAdd` at its own width, which is exact. -/
theorem addersGiveSumAndCarry : Obligations.AddersGiveSumAndCarry := fun _ =>
  ⟨addsAt_of_unitResult rfl rfl, addsAt_of_unitResult rfl rfl, addsAt_of_unitResult rfl rfl,
    addsAt_of_unitResult rfl rfl, addsAt_of_unitResult rfl rfl, addsAt_of_unitResult rfl rfl,
    rfl, rfl, rfl, rfl, rfl, rfl⟩

/-- Settles O19: each subtractor is `mwSub` at its own width, which is exact. -/
theorem subtractorsGiveDifferenceAndBorrow : Obligations.SubtractorsGiveDifferenceAndBorrow := fun _ =>
  ⟨subtractsAt_of_unitResult rfl rfl, subtractsAt_of_unitResult rfl rfl, subtractsAt_of_unitResult rfl rfl,
    subtractsAt_of_unitResult rfl rfl, subtractsAt_of_unitResult rfl rfl, subtractsAt_of_unitResult rfl rfl,
    rfl, rfl, rfl, rfl, rfl, rfl⟩

/-! ### The limb loops (R113) -/

theorem pow_limbs_succ (k : Nat) : 2 ^ (64 * (k + 1)) = 2 ^ 64 * 2 ^ (64 * k) := by
  rw [Nat.mul_succ, Nat.add_comm, pow_add]

/-- The adder's loop keeps the exact sum of the limbs it has read: a value below the wide modulus and a
carry. -/
theorem addLimbs_limbs_exact (k x y c : Nat) :
    limbsValue (addLimbs (limbs k x) (limbs k y) c).1 < 2 ^ (64 * k) ∧
      limbsValue (addLimbs (limbs k x) (limbs k y) c).1 +
          2 ^ (64 * k) * (addLimbs (limbs k x) (limbs k y) c).2 =
        x % 2 ^ (64 * k) + y % 2 ^ (64 * k) + c := by
  induction k generalizing x y c with
  | zero => simp [limbs, addLimbs, limbsValue, Nat.mod_one]
  | succ k ih =>
    obtain ⟨hlt, hsum⟩ := ih (x / 2 ^ 64) (y / 2 ^ 64) ((x % 2 ^ 64 + y % 2 ^ 64 + c) / 2 ^ 64)
    simp only [limbs, addLimbs, limbsValue, pow_limbs_succ, Nat.mod_mul, mul_assoc]
    omega

/-- The subtractor's loop keeps the exact difference of the limbs it has read: a value below the wide
modulus and a borrow. -/
theorem subLimbs_limbs_exact (k x y c : Nat) (hc : c ≤ 1) :
    limbsValue (subLimbs (limbs k x) (limbs k y) c).1 < 2 ^ (64 * k) ∧
      limbsValue (subLimbs (limbs k x) (limbs k y) c).1 + y % 2 ^ (64 * k) + c =
        x % 2 ^ (64 * k) + 2 ^ (64 * k) * (subLimbs (limbs k x) (limbs k y) c).2 := by
  induction k generalizing x y c with
  | zero => simp [limbs, subLimbs, limbsValue, Nat.mod_one]
  | succ k ih =>
    simp only [limbs, subLimbs, limbsValue, pow_limbs_succ, Nat.mod_mul, mul_assoc]
    split_ifs with hborrow
    · obtain ⟨hlt, hdiff⟩ := ih (x / 2 ^ 64) (y / 2 ^ 64) 1 le_rfl
      omega
    · obtain ⟨hlt, hdiff⟩ := ih (x / 2 ^ 64) (y / 2 ^ 64) 0 zero_le_one
      omega

/-- A value below `M` and a multiple of `M` are determined by their sum. -/
theorem eq_and_eq_of_add_mul_eq {M v v' c c' : Nat} (hv : v < M) (hv' : v' < M)
    (h : v + M * c = v' + M * c') : v = v' ∧ c = c' := by
  obtain ⟨hc, hm⟩ := (Nat.div_mod_unique (by omega)).mpr ⟨h, hv⟩
  rw [Nat.add_mul_div_left _ _ (by omega), Nat.div_eq_of_lt hv', Nat.zero_add] at hc
  rw [Nat.add_mul_mod_self_left, Nat.mod_eq_of_lt hv'] at hm
  exact ⟨hm.symm, hc.symm⟩

/-- Settles O20: loop and unit both give a value below `2^(64 k)` with a carry or borrow that makes it the exact
sum or difference, and there is only one such pair. -/
theorem limbLoopsMatchTheWideResult : Obligations.LimbLoopsMatchTheWideResult := by
  intro k a b c
  obtain ⟨hsumlt, hsum⟩ := addLimbs_limbs_exact k a.toNat b.toNat c.toNat
  obtain ⟨hdifflt, hdiff⟩ := subLimbs_limbs_exact k a.toNat b.toNat c.toNat c.toNat_le
  rw [Nat.mod_eq_of_lt a.isLt, Nat.mod_eq_of_lt b.isLt] at hsum hdiff
  have hadd := mwAdd_exact (64 * k) a b c
  have hsub := mwSub_exact (64 * k) a b c
  obtain ⟨hv, hcarry⟩ := eq_and_eq_of_add_mul_eq hsumlt (mwAdd (64 * k) a b c).1.isLt (hsum.trans hadd.symm)
  obtain ⟨hw, hborrow⟩ := eq_and_eq_of_add_mul_eq (c := (mwSub (64 * k) a b c).2.toNat)
    (c' := (subLimbs (limbs k a.toNat) (limbs k b.toNat) c.toNat).2)
    hdifflt (mwSub (64 * k) a b c).1.isLt (by omega)
  exact ⟨hv, hcarry, hw, hborrow.symm⟩

/-! ### The multipliers (R115 to R122) -/

/-- A multiplier on inputs of its operand widths drives the low `W` bits of their product. -/
theorem drives_product_of_unitResult {Wa Wb W : Nat} {i : Instr} {s : State} (hi : isOperation i = false)
    (h : unitResult s.args s.unitPorts i =
      .ok (.product W (widenMul W (lowBits Wa s.unitPorts.ia).toNat (lowBits Wb s.unitPorts.ib).toNat)))
    (hfit : PortsFit Wa Wb s) :
    ∃ p, UnitDrives i s (.product W p) ∧
      p.toNat = s.unitPorts.ia.toNat * s.unitPorts.ib.toNat % 2 ^ W := by
  refine ⟨_, unitDrives_of_unitResult hi h, ?_⟩
  rw [widenMul, BitVec.toNat_ofNat, lowBits_toNat_of_lt hfit.1, lowBits_toNat_of_lt hfit.2]

/-- A destination as wide as the operands together holds the exact product. -/
theorem multipliesAt_of_unitResult (Wa Wb : Nat) {i : Instr} {s : State} (hi : isOperation i = false)
    (h : unitResult s.args s.unitPorts i = .ok (.product (Wa + Wb)
      (widenMul (Wa + Wb) (lowBits Wa s.unitPorts.ia).toNat (lowBits Wb s.unitPorts.ib).toNat)))
    (hfit : PortsFit Wa Wb s) : MultipliesAt (Wa + Wb) i s := by
  obtain ⟨p, hp, hval⟩ := drives_product_of_unitResult hi h hfit
  have hlt : s.unitPorts.ia.toNat * s.unitPorts.ib.toNat < 2 ^ (Wa + Wb) :=
    pow_add 2 Wa Wb ▸ Nat.mul_lt_mul'' hfit.1 hfit.2
  exact ⟨p, hp, hval.trans (Nat.mod_eq_of_lt hlt)⟩

/-- Settles O21: the destination of each is the sum of its operand widths. -/
theorem wideMultipliersAreExact : Obligations.WideMultipliersAreExact := fun _ =>
  ⟨multipliesAt_of_unitResult 64 64 rfl rfl, multipliesAt_of_unitResult 64 128 rfl rfl,
    multipliesAt_of_unitResult 128 128 rfl rfl, multipliesAt_of_unitResult 192 192 rfl rfl,
    multipliesAt_of_unitResult 256 256 rfl rfl, rfl, rfl, rfl, rfl, rfl⟩

/-- Settles O22: the first destination is narrower than its operands together, the second as wide. -/
theorem narrowMultiplierWraps : Obligations.NarrowMultiplierWraps := fun _ =>
  ⟨drives_product_of_unitResult rfl rfl, multipliesAt_of_unitResult 128 192 rfl rfl⟩

/-! ### The dividers (R125 to R129) -/

theorem longDivide_zero (n : Nat) : longDivide n 0 = .error .divideByZeroDivisor := rfl

theorem longDivide_overflow {n d : Nat} (hd : d ≠ 0) (h : 2 ^ 128 * d ≤ n) :
    longDivide n d = .error .quotientOverflow := by
  rw [longDivide, if_neg hd, if_pos ((Nat.le_div_iff_mul_le (Nat.pos_of_ne_zero hd)).mpr h)]

theorem longDivide_ok {n d : Nat} (hd : d ≠ 0) (h : n < 2 ^ 128 * d) :
    longDivide n d = .ok (BitVec.ofNat 128 (n / d), BitVec.ofNat 128 (n % d)) := by
  rw [longDivide, if_neg hd, if_neg (Nat.not_le.mpr ((Nat.div_lt_iff_lt_mul (Nat.pos_of_ne_zero hd)).mpr h))]

/-- A divider of dividend width `W` on inputs of its widths is the long division of the port values. -/
theorem longDivide_lowBits {W : Nat} {s : State} (hfit : PortsFit W 128 s) :
    longDivide (lowBits W s.unitPorts.ia).toNat (lowBits 128 s.unitPorts.ib).toNat =
      longDivide s.unitPorts.ia.toNat s.unitPorts.ib.toNat := by
  rw [lowBits_toNat_of_lt hfit.1, lowBits_toNat_of_lt hfit.2]

section
variable {W : Nat} {i : Instr} {s : State} (hi : isOperation i = false)
  (h : unitResult s.args s.unitPorts i = outputOf quotientOutput
    (longDivide (lowBits W s.unitPorts.ia).toNat (lowBits 128 s.unitPorts.ib).toNat))
include hi h

theorem dividesAt_of_unitResult (hacc : DividerAccepts W s) : DividesAt i s := by
  obtain ⟨hfit, hd, hq⟩ := hacc
  rw [longDivide_lowBits hfit, longDivide_ok hd hq] at h
  refine ⟨_, _, unitDrives_of_unitResult hi h, ?_⟩
  have hrem := Nat.mod_lt s.unitPorts.ia.toNat (Nat.pos_of_ne_zero hd)
  rw [BitVec.toNat_ofNat, BitVec.toNat_ofNat, Nat.mod_eq_of_lt (lt_trans hrem hfit.2),
    Nat.mod_eq_of_lt ((Nat.div_lt_iff_lt_mul (Nat.pos_of_ne_zero hd)).mpr hq)]
  exact ⟨(Nat.div_add_mod' _ _).symm, hrem⟩

theorem faults_of_divisor_zero (hfit : PortsFit W 128 s) (hd : s.unitPorts.ib.toNat = 0) :
    UnitFaults i s .divideByZeroDivisor := by
  rw [longDivide_lowBits hfit, hd, longDivide_zero] at h
  exact unitFaults_of_unitResult hi h

theorem faults_of_not_dividerAccepts (hfit : PortsFit W 128 s) (hd : s.unitPorts.ib.toNat ≠ 0)
    (hacc : ¬ DividerAccepts W s) : UnitFaults i s .quotientOverflow := by
  have hq : 2 ^ 128 * s.unitPorts.ib.toNat ≤ s.unitPorts.ia.toNat :=
    Nat.not_lt.mp fun hq => hacc ⟨hfit, hd, hq⟩
  rw [longDivide_lowBits hfit, longDivide_overflow hd hq] at h
  exact unitFaults_of_unitResult hi h

end

/-- A 128-bit dividend divided by anything other than 0 has a quotient of at most 128 bits (R126). -/
theorem dividerAccepts_128 {s : State} (hfit : PortsFit 128 128 s) (hd : s.unitPorts.ib.toNat ≠ 0) :
    DividerAccepts 128 s :=
  ⟨hfit, hd, lt_of_lt_of_le hfit.1 (Nat.le_mul_of_pos_right _ (Nat.pos_of_ne_zero hd))⟩

/-- Settles O23: within its precondition a divider gives quotient and remainder of the long division. -/
theorem dividersGiveQuotientAndRemainder : Obligations.DividersGiveQuotientAndRemainder := fun _ =>
  ⟨fun hfit hd => dividesAt_of_unitResult rfl rfl (dividerAccepts_128 hfit hd), dividesAt_of_unitResult rfl rfl⟩

/-! ### The faults of the digit counter and the rounding engine (R145, R192) -/

theorem faults_of_count_zero {W : Nat} {i : Instr} {s : State} (hi : isOperation i = false)
    (h : unitResult s.args s.unitPorts i = outputOf .digitCount (dcnt (lowBits W s.unitPorts.ia).toNat))
    (hzero : s.unitPorts.ia.toNat = 0) : UnitFaults i s .zeroDigitCount := by
  rw [lowBits_toNat, hzero, Nat.zero_mod] at h
  exact unitFaults_of_unitResult hi h

theorem faults_of_not_engineAccepts {lo hi W : Nat} {i : Instr} {s : State} (hop : isOperation i = false)
    (h : unitResult s.args s.unitPorts i = outputOf (roundedOutput W)
      (rndUnit lo hi (lowBits W s.unitPorts.ia).toNat s.unitPorts.discard))
    (hfit : s.unitPorts.ia.toNat < 2 ^ W) (hacc : ¬ EngineAccepts lo hi W s) :
    UnitFaults i s .roundRange := by
  rw [lowBits_toNat_of_lt hfit, rndUnit, if_neg fun hrange => hacc ⟨hfit, hrange⟩] at h
  exact unitFaults_of_unitResult hop h

/-- Settles O24: outside its precondition each unit's result is its named fault. -/
theorem arithmeticUnitFaultsAreMarked : Obligations.ArithmeticUnitFaultsAreMarked := fun _ =>
  ⟨faults_of_divisor_zero rfl rfl, faults_of_divisor_zero rfl rfl, faults_of_not_dividerAccepts rfl rfl,
    fun hzero => ⟨faults_of_count_zero (W := 128) rfl rfl hzero, faults_of_count_zero (W := 256) rfl rfl hzero⟩,
    faults_of_not_engineAccepts rfl rfl, faults_of_not_engineAccepts rfl rfl,
    faults_of_not_engineAccepts rfl rfl, faults_of_not_engineAccepts rfl rfl⟩

end Sys2Proof.Machine
end

section
/-!
PROOFS. The family of 41_digit_counter.md: the digit counters give the digit count, and no unit function reads
outside a table.
-/
namespace Sys2Proof.Machine

/-! ### What the digit counters drive (R140, R143, R144) -/

/-- A digit counter of width `W` drives `digits` of its input, which is at most any `most` whose power of ten
bounds the width. -/
theorem countsAt_of_unitResult {W most : Nat} {i : Instr} {s : State} (hi : isOperation i = false)
    (h : unitResult s.args s.unitPorts i = outputOf .digitCount (dcnt (lowBits W s.unitPorts.ia).toNat))
    (hW : W ≤ 256) (hpos : 1 ≤ most) (hmost : 2 ^ W ≤ 10 ^ most) (hacc : CounterAccepts W s) :
    CountsAt most i s := by
  obtain ⟨hone, hlt⟩ := hacc
  have h256 := lt_of_lt_of_le hlt (Nat.pow_le_pow_right two_pos hW)
  rw [lowBits_toNat_of_lt hlt, dcnt_eq_digits _ (Nat.one_le_iff_ne_zero.mp hone) h256] at h
  exact ⟨_, unitDrives_of_unitResult hi h, digits_pos _,
    (digits_le_iff _ most hpos).mpr (lt_of_lt_of_le hlt hmost), lt_pow_digits _,
    fun q' hq' hlt' => (digits_le_iff _ q' hq').mpr hlt'⟩

/-- Settles O27: both counters drive `digits`, the least such count; `2^128 ≤ 10^39` and `2^256 ≤ 10^78`. -/
theorem digitCountersCount : Obligations.DigitCountersCount := fun _ =>
  ⟨countsAt_of_unitResult rfl rfl (by decide) (by decide) (by decide),
    countsAt_of_unitResult rfl rfl (by decide) (by decide) (by decide)⟩

/-! ### The faults the units name (R125, R145, R171, R172, R192, R208, R243, R285, R322) -/

section
variable {e : Fault}

theorem pack_fault {s : Bool} {E Cf : Nat} (h : pack s E Cf = .error e) : e = .packRange := by
  unfold pack at h
  split_ifs at h
  exact (Except.error.inj h).symm

theorem quietNaN_fault {r : Record} (h : quietNaN r = .error e) : e = .notNaN := by
  unfold quietNaN at h
  split_ifs at h
  exact (Except.error.inj h).symm

theorem longDivide_fault {n d : Nat} (h : longDivide n d = .error e) :
    e = .divideByZeroDivisor ∨ e = .quotientOverflow := by
  unfold longDivide at h
  split_ifs at h
  · exact .inl (Except.error.inj h).symm
  · exact .inr (Except.error.inj h).symm

/-- Every bit length up to 256 has its entries in the two digit tables, so only a zero input faults. -/
theorem dcnt_fault {C : Nat} (h256 : C < 2 ^ 256) (h : dcnt C = .error e) : e = .zeroDigitCount := by
  by_cases h0 : C = 0
  · rw [h0] at h
    exact (Except.error.inj h).symm
  · rw [dcnt_eq_digits C h0 h256] at h
    cases h

theorem dcnt_lowBits_fault {W : Nat} {p : BitVec 512} (hW : W ≤ 256)
    (h : dcnt (lowBits W p).toNat = .error e) : e = .zeroDigitCount :=
  dcnt_fault (lt_of_lt_of_le (lowBits W p).isLt (Nat.pow_le_pow_right two_pos hW)) h

/-- A class of at most 76 digits discards at most 75 of them, so `HALF_ULP` is read inside its range. -/
theorem rndUnit_fault {lo hi C x : Nat} (hhi : hi ≤ 76) (h : rndUnit lo hi C x = .error e) :
    e = .roundRange := by
  unfold rndUnit at h
  split_ifs at h with hrange
  · rw [romHalfUlp_ok x (by omega)] at h
    cases h
  · exact (Except.error.inj h).symm

theorem packed_fault {s : Bool} {E Cf : Nat} {F : FlagWord} (h : packed s E Cf F = .error e) :
    e = .packRange := by
  unfold packed at h
  split at h <;> cases h
  exact pack_fault ‹_›

theorem assemble_fault {s : Bool} {C : Nat} {q : Int} {rm : Rm} {inexact tiny : Bool}
    (h : assemble s C q rm inexact tiny = .error e) : e = .exponentRange ∨ e = .packRange := by
  simp only [assemble] at h
  split_ifs at h
  · exact .inl (Except.error.inj h).symm
  · exact .inr (packed_fault h)
  · exact .inr (packed_fault h)

theorem alignAdd_fault {x y : Record} (h : alignAdd x y = .error e) : e = .alignOperand := by
  unfold alignAdd at h
  split_ifs at h
  exact (Except.error.inj h).symm

theorem alignFma_fault {p : Product} {z : Record} (h : alignFma p z = .error e) : e = .alignOperand := by
  simp only [alignFma] at h
  split_ifs at h
  exact (Except.error.inj h).symm

theorem leastScale_le (C1 C2 fuel k0 : Nat) : leastScale C1 C2 fuel k0 ≤ k0 + fuel := by
  induction fuel generalizing k0 with
  | zero => exact le_rfl
  | succ fuel ih =>
    unfold leastScale
    split_ifs
    · exact Nat.le_add_right _ _
    · exact (ih (k0 + 1)).trans_eq (Nat.succ_add_eq_add_succ _ _)

/-- The scale is at most 68, so `TEN_POW` is read inside its range. -/
theorem divScale_fault {x y : Record} (h : divScale x y = .error e) : e = .divScaleOperand := by
  have hk := leastScale_le x.Cf.toNat y.Cf.toNat 68 0
  simp only [divScale, romTenPow_ok _ (show leastScale x.Cf.toNat y.Cf.toNat 68 0 ≤ 76 by omega)] at h
  split_ifs at h
  exact (Except.error.inj h).symm

theorem outputOf_eq_error {α : Type} {f : α → Output} {r : Except Fault α} (h : outputOf f r = .error e) :
    r = .error e := by
  cases r with
  | ok x => cases h
  | error e' => exact congrArg Except.error (Except.error.inj h)

end

/-- The faults the rules of a unit function name for inputs outside its precondition; an instruction whose rules
name none, an operation included (R361), has the empty list. -/
def namedFaults : Instr → List Fault
  | .pack => [.packRange]
  | .quietnan => [.notNaN]
  | .div128by128 | .div256by128 => [.divideByZeroDivisor, .quotientOverflow]
  | .dcnt128 | .dcnt256 => [.zeroDigitCount]
  | .rnd64 | .rnd128 | .rnd192 | .rnd256 => [.roundRange]
  | .assemble => [.exponentRange, .packRange]
  | .alignAdd | .alignFma => [.alignOperand]
  | .divscale => [.divScaleOperand]
  | _ => []

theorem tableIndex_not_mem_namedFaults (i : Instr) : .tableIndex ∉ namedFaults i := by
  cases i <;> simp [namedFaults]

/-- Whatever the inputs, a unit function that faults does so with a fault its rules name. -/
theorem unitResult_fault_mem (args : ModelArgs) (u : UnitPorts) (i : Instr) {e : Fault}
    (hi : isOperation i = false) (h : unitResult args u i = .error e) : e ∈ namedFaults i := by
  cases i with
  | pack => exact List.mem_singleton.mpr (pack_fault (outputOf_eq_error h))
  | quietnan => exact List.mem_singleton.mpr (quietNaN_fault (outputOf_eq_error h))
  | div128by128 | div256by128 => exact List.mem_pair.mpr (longDivide_fault (outputOf_eq_error h))
  | dcnt128 | dcnt256 =>
    exact List.mem_singleton.mpr (dcnt_lowBits_fault (by decide) (outputOf_eq_error h))
  | rnd64 | rnd128 | rnd192 | rnd256 =>
    exact List.mem_singleton.mpr (rndUnit_fault (by decide) (outputOf_eq_error h))
  | assemble => exact List.mem_pair.mpr (assemble_fault (outputOf_eq_error h))
  | alignAdd => exact List.mem_singleton.mpr (alignAdd_fault (outputOf_eq_error h))
  | alignFma => exact List.mem_singleton.mpr (alignFma_fault (outputOf_eq_error h))
  | divscale => exact List.mem_singleton.mpr (divScale_fault (outputOf_eq_error h))
  | add | mul | fma | div => cases hi
  | _ => cases h

/-! ### A recorded fault is the unit's own (R361, R398) -/

/-- Recording a fault drives nothing, so it is told from whatever drives an output. -/
theorem next_ne_next_recordFault {s t : State} {o : Output} (e : Fault) (h : t.outputs = s.outputs ++ [o]) :
    (.next t : Host.Outcome State Fault Refusal) ≠ .next (s.recordFault e) := by
  intro hnext
  rw [Host.Outcome.next.inj hnext, State.recordFault_outputs] at h
  simp at h

theorem next_recordFault_inj {s : State} {e e' : Fault}
    (h : (.next (s.recordFault e) : Host.Outcome State Fault Refusal) = .next (s.recordFault e')) :
    e = e' := by
  simpa using congrArg State.faults (Host.Outcome.next.inj h)

/-- Only a unit function records a fault, and the one recorded is the one it computes. -/
theorem unitResult_of_unitFaults {i : Instr} {s : State} {e : Fault} (h : UnitFaults i s e) :
    isOperation i = false ∧ unitResult s.args s.unitPorts i = .error e := by
  cases hi : isOperation i with
  | true =>
    have hnext := (exec_operation i s hi).symm.trans h
    exact absurd hnext (next_ne_next_recordFault e (State.complete_outputs s _))
  | false =>
    have hfinish := (exec_unit i s hi).symm.trans h
    rcases finishUnit_cases (unitResult s.args s.unitPorts i) s with ⟨o, -, ho⟩ | ⟨e', he', hnext⟩
    · exact absurd (ho.symm.trans hfinish) (next_ne_next_recordFault e (State.emit_outputs s o))
    · exact ⟨rfl, next_recordFault_inj (hnext.symm.trans hfinish) ▸ he'⟩

/-- Settles O26: a recorded fault is one the unit's rules name, and none of them is `TableIndex`. -/
theorem noUnitReadsOutsideATable : Obligations.NoUnitReadsOutsideATable := by
  intro i s h
  obtain ⟨hi, hres⟩ := unitResult_of_unitFaults h
  exact tableIndex_not_mem_namedFaults i (unitResult_fault_mem s.args s.unitPorts i hi hres)

end Sys2Proof.Machine
end

section
/-!
PROOFS. The family of 42_decoder.md: what `UNPACK` reads from each kind of word, what `PACK` and `QUIETNAN`
write, their round trip, and the named faults of the units that take records or fields as operands.
-/
namespace Sys2Proof.Machine

/-! ### The bits of a word as numbers (R8, R70) -/

section
variable (w : Word)

theorem extractLsb_toNat_eq_field (hi lo : Nat) (h : lo ≤ hi) : (w.extractLsb hi lo).toNat = field w hi lo := by
  rw [BitVec.extractLsb_toNat, Nat.shiftRight_eq_div_pow, field, Nat.sub_add_comm h]

theorem extractLsb_eq_iff_field (hi lo : Nat) (h : lo ≤ hi) (b : BitVec (hi - lo + 1)) :
    w.extractLsb hi lo = b ↔ field w hi lo = b.toNat := by
  rw [← BitVec.toNat_inj, extractLsb_toNat_eq_field w hi lo h]

/-- The `k + 1` bits from `lo` up. -/
theorem extractLsb'_toNat_eq_field (lo k : Nat) : (w.extractLsb' lo (k + 1)).toNat = field w (lo + k) lo := by
  rw [BitVec.extractLsb'_toNat, Nat.shiftRight_eq_div_pow, field, Nat.add_assoc, Nat.add_sub_cancel_left]

theorem getLsbD_eq_field (i : Nat) : w.getLsbD i = decide (field w i i = 1) := by
  rw [BitVec.getLsbD, Nat.testBit_eq_decide_div_mod_eq, field, Nat.add_sub_cancel_left, pow_one]

/-- The two steering bits are the upper two of the five combination bits (R71 to R73). -/
theorem steering_eq_combination_div : field w 126 125 = field w 126 122 / 8 := by
  unfold field
  omega

/-- A word is its sign, exponent and coefficient fields and nothing else (R71). -/
theorem toNat_eq_fields :
    w.toNat = field w 127 127 * 2 ^ 127 + field w 126 113 * 2 ^ 113 + field w 112 0 := by
  have hw := w.isLt
  unfold field
  omega

theorem decide_sign_toNat : (decide (field w 127 127 = 1)).toNat = field w 127 127 := by
  have h : field w 127 127 < 2 := Nat.mod_lt _ two_pos
  interval_cases field w 127 127 <;> rfl

end

/-! ### What `UNPACK` reads, by the class of the word (R162 to R166, R170) -/

section
variable (limit : Nat) (w : Word)

theorem unpack_sign : (unpack limit w).s = decide (field w 127 127 = 1) := by
  rw [← getLsbD_eq_field]
  unfold unpack
  split_ifs <;> rfl

theorem unpack_nan (h : field w 126 122 = 31) :
    (unpack limit w).cls = (if field w 121 121 = 1 then .snan else .qnan) ∧ (unpack limit w).E = 0 ∧
      (unpack limit w).Cf = 0 ∧
      (unpack limit w).PL.toNat = if field w 109 0 ≤ limit then field w 109 0 else 0 := by
  have hnan : w.extractLsb 126 122 = 0b11111#5 := (extractLsb_eq_iff_field w 126 122 (by decide) _).mpr h
  have hPL := extractLsb'_toNat_eq_field w 0 109
  simp only [unpack, if_pos hnan, getLsbD_eq_field, decide_eq_true_eq, true_and, hPL, apply_ite BitVec.toNat]
  rfl

theorem unpack_inf (h : field w 126 122 = 30) :
    (unpack limit w).cls = .inf ∧ (unpack limit w).E = 0 ∧ (unpack limit w).Cf = 0 ∧
      (unpack limit w).PL = 0 := by
  have hinf : w.extractLsb 126 122 = 0b11110#5 := (extractLsb_eq_iff_field w 126 122 (by decide) _).mpr h
  have hnan : w.extractLsb 126 122 ≠ 0b11111#5 := by rw [hinf]; decide
  simp only [unpack, if_neg hnan, if_pos hinf, true_and]

/-- Combination bits below `11110` are those of neither a NaN nor an infinity (R163, R164). -/
theorem not_special_of_combination (h : field w 126 122 < 30) :
    w.extractLsb 126 122 ≠ 0b11111#5 ∧ w.extractLsb 126 122 ≠ 0b11110#5 := by
  simp only [Ne, extractLsb_eq_iff_field w 126 122 (by decide), BitVec.toNat_ofNat]
  omega

theorem unpack_alternate (h : field w 126 122 < 30) (h3 : field w 126 125 = 3) :
    (unpack limit w).cls = .zero ∧ (unpack limit w).E.toNat = field w 124 111 ∧ (unpack limit w).Cf = 0 ∧
      (unpack limit w).PL = 0 := by
  obtain ⟨hnan, hinf⟩ := not_special_of_combination w h
  have halt : w.extractLsb 126 125 = 0b11#2 := (extractLsb_eq_iff_field w 126 125 (by decide) _).mpr h3
  simp only [unpack, if_neg hnan, if_neg hinf, if_pos halt, true_and, and_true]
  exact extractLsb'_toNat_eq_field w 111 13

theorem unpack_standard (h : field w 126 125 < 3) :
    (unpack limit w).E.toNat = field w 126 113 ∧ (unpack limit w).PL = 0 ∧
      (unpack limit w).Cf.toNat = (if field w 112 0 ≤ 10 ^ 34 - 1 then field w 112 0 else 0) ∧
      (unpack limit w).cls = if (unpack limit w).Cf = 0 then .zero else .finite := by
  have hcomb := steering_eq_combination_div w
  obtain ⟨hnan, hinf⟩ := not_special_of_combination w (by omega)
  have halt : ¬ w.extractLsb 126 125 = 0b11#2 := by
    rw [extractLsb_eq_iff_field w 126 125 (by decide)]
    exact h.ne
  have hF := extractLsb'_toNat_eq_field w 0 112
  simp only [unpack, if_neg hnan, if_neg hinf, if_neg halt, and_true, true_and]
  refine ⟨extractLsb'_toNat_eq_field w 113 13, ?_⟩
  rw [apply_ite BitVec.toNat, hF]
  by_cases hC : field w 112 0 ≤ 10 ^ 34 - 1
  · rw [if_pos hC]
    exact if_neg (not_lt.mpr hC)
  · rw [if_neg hC]
    exact if_pos (not_le.mp hC)

end

/-- Settles O29: the sign is read in every class, and the four clauses are what `UNPACK` reads from a NaN, an
infinity, an alternate form and a standard form. -/
theorem unpackFollowsTheClassTable : Obligations.UnpackFollowsTheClassTable :=
  ⟨rfl, fun _ => ⟨_, unitDrives_of_unitResult rfl rfl, unpack_sign _ _, unpack_nan _ _, unpack_inf _ _,
    unpack_alternate _ _, unpack_standard _ _⟩⟩

/-! ### What `PACK` and `QUIETNAN` write (R171, R172) -/

theorem pack_ok (s : Bool) {E Cf : Nat} (hE : E ≤ Config.EBMAX) (hC : Cf ≤ Config.CMAX) :
    pack s E Cf = .ok (packWord s E Cf) :=
  if_pos ⟨hE, hC⟩

theorem packWord_isStandardForm (s : Bool) {E Cf : Nat} (hE : E ≤ Config.EBMAX) (hC : Cf ≤ Config.CMAX) :
    IsStandardForm (packWord s E Cf) s E Cf :=
  packWord_toNat s E Cf (lt_of_le_of_lt hE (by decide)) (lt_of_le_of_lt hC (by decide))

theorem packWord_steering_field (s : Bool) {E Cf : Nat} (hE : E ≤ Config.EBMAX) (hC : Cf ≤ Config.CMAX) :
    field (packWord s E Cf) 126 125 ≠ 3 := by
  obtain ⟨-, -, hsteering⟩ := packWord_steering s E Cf hE hC
  exact fun h => hsteering ((extractLsb_eq_iff_field _ 126 125 (by decide) _).mpr h)

theorem quietNaN_ok {r : Record} (h : isNaN r = true) : quietNaN r = .ok (qnanWord r.s r.PL) := if_pos h

/-- A unit whose computation succeeds drives its output. -/
theorem unitDrives_of_ok {α : Type} {f : α → Output} {r : Except Fault α} {x : α} {i : Instr} {s : State}
    (hi : isOperation i = false) (hunit : unitResult s.args s.unitPorts i = outputOf f r) (hx : r = .ok x) :
    UnitDrives i s (f x) :=
  unitDrives_of_unitResult hi (hunit.trans (congrArg (outputOf f) hx))

/-- Settles O30: `PACK` answers `packWord`, whose exponent of at most 12287 keeps the steering bits below 11, and
`QUIETNAN` answers `qnanWord`. -/
theorem packAndQuietnanWriteTheirForms : Obligations.PackAndQuietnanWriteTheirForms :=
  ⟨fun _ hE hC => ⟨_, unitDrives_of_ok rfl rfl (pack_ok _ hE hC), packWord_isStandardForm _ hE hC,
    packWord_steering_field _ hE hC⟩,
    fun _ hnan => ⟨_, unitDrives_of_ok rfl rfl (quietNaN_ok hnan), qnanWord_toNat _ _⟩⟩

/-! ### Unpacking and packing (R173) -/

/-- A decoded record's coefficient is canonical (R169). -/
theorem wf_coefficient_le {limit : Nat} {r : Record} (h : Record.wf limit r = true) :
    r.Cf.toNat ≤ Config.CMAX := by
  unfold Record.wf at h
  cases hc : r.cls with
  | finite =>
    simp only [hc, Bool.and_eq_true, decide_eq_true_eq] at h
    obtain ⟨⟨-, hC⟩, -⟩ := h
    exact hC
  | zero | inf | qnan | snan =>
    simp only [hc, Bool.and_eq_true, decide_eq_true_eq] at h
    obtain ⟨⟨-, hC⟩, -⟩ := h
    rw [hC]
    exact Nat.zero_le _

/-- The packer accepts every record the decoder produces. -/
theorem pack_unpack (limit : Nat) (w : Word) :
    ∃ w', pack (unpack limit w).s (unpack limit w).E.toNat (unpack limit w).Cf.toNat = .ok w' ∧
      IsStandardForm w' (unpack limit w).s (unpack limit w).E.toNat (unpack limit w).Cf.toNat := by
  have hE := wf_exponent_le limit _ (unpack_wf limit w)
  have hC := wf_coefficient_le (unpack_wf limit w)
  exact ⟨_, pack_ok _ hE hC, packWord_isStandardForm _ hE hC⟩

/-- Settles O31: the packed word is the standard form of the fields `UNPACK` reads, which are the word's own
exactly when it is a standard form with a canonical coefficient. -/
theorem unpackThenPackRoundTrip : Obligations.UnpackThenPackRoundTrip := by
  intro limit w hfinite
  obtain ⟨w', hpack, hform⟩ := pack_unpack limit w
  rw [unpack_sign] at hform
  refine ⟨w', hpack, fun hstd hcanonical => ?_, fun hstd hlarge => ?_, fun halt => ?_⟩
  · obtain ⟨hE, -, hC, -⟩ := unpack_standard limit w hstd
    rw [hE, hC, if_pos hcanonical, IsStandardForm, decide_sign_toNat, ← toNat_eq_fields] at hform
    exact BitVec.eq_of_toNat_eq hform
  · obtain ⟨hE, -, hC, -⟩ := unpack_standard limit w hstd
    rwa [hE, hC, if_neg (by omega)] at hform
  · obtain ⟨-, hE, hC, -⟩ := unpack_alternate limit w hfinite halt
    rwa [hE, hC] at hform

/-! ### The faults outside the operand units' preconditions (R171, R172, R208, R243, R285, R322) -/

theorem pack_error (s : Bool) {E Cf : Nat} (h : ¬ (E ≤ Config.EBMAX ∧ Cf ≤ Config.CMAX)) :
    pack s E Cf = .error .packRange :=
  if_neg h

theorem quietNaN_error {r : Record} (h : isNaN r = false) : quietNaN r = .error .notNaN :=
  if_neg (Bool.not_eq_true _ ▸ h)

theorem assemble_below_QMIN (s : Bool) (C : Nat) {e : Int} (rm : Rm) (inexact tiny : Bool)
    (h : e < Config.QMIN) : assemble s C e rm inexact tiny = .error .exponentRange :=
  if_pos h

/-- Within the format's exponents the assembler hands its coefficient to the packer as it stands. -/
theorem assemble_above_CMAX (s : Bool) {C : Nat} {e : Int} (rm : Rm) (inexact tiny : Bool)
    (hmin : Config.QMIN ≤ e) (hmax : e ≤ Config.QMAX) (hC : Config.CMAX < C) :
    assemble s C e rm inexact tiny = .error .packRange := by
  rw [assemble, if_neg (not_lt.mpr hmin), if_neg (not_lt.mpr hmax), packed,
    pack_error s fun hrange => absurd hC (not_lt.mpr hrange.2)]

theorem finiteNonzero_iff (r : Record) : finiteNonzero r = true ↔ IsFiniteNonzero r := by
  rw [finiteNonzero, Bool.and_eq_true, beq_iff_eq, decide_eq_true_eq]

theorem alignAdd_error {x y : Record} (h : ¬ (IsFiniteNonzero x ∧ IsFiniteNonzero y)) :
    alignAdd x y = .error .alignOperand := by
  rw [← finiteNonzero_iff, ← finiteNonzero_iff, ← Bool.and_eq_true] at h
  exact if_neg h

theorem divScale_error {x y : Record} (h : ¬ (IsFiniteNonzero x ∧ IsFiniteNonzero y)) :
    divScale x y = .error .divScaleOperand := by
  rw [← finiteNonzero_iff, ← finiteNonzero_iff, ← Bool.and_eq_true] at h
  exact if_neg h

theorem alignFma_error {p : Product} {z : Record} (h : ¬ (p.C4 ≠ 0 ∧ IsFiniteNonzero z)) :
    alignFma p z = .error .alignOperand := by
  rw [← finiteNonzero_iff, not_and_or, not_not, Bool.not_eq_true] at h
  exact if_pos h

/-- A unit whose computation faults records that fault. -/
theorem unitFaults_of_error {α : Type} {f : α → Output} {r : Except Fault α} {i : Instr} {s : State} {e : Fault}
    (hi : isOperation i = false) (hunit : unitResult s.args s.unitPorts i = outputOf f r)
    (he : r = .error e) : UnitFaults i s e :=
  unitFaults_of_unitResult hi (hunit.trans (congrArg (outputOf f) he))

/-- Settles O25: outside its precondition each unit's computation is its named fault. -/
theorem operandUnitFaultsAreMarked : Obligations.OperandUnitFaultsAreMarked := fun _ =>
  ⟨fun h => unitFaults_of_error rfl rfl (pack_error _ h),
    fun h => unitFaults_of_error rfl rfl (quietNaN_error h),
    fun h => unitFaults_of_error rfl rfl (assemble_below_QMIN _ _ _ _ _ h),
    fun hmin hmax hC => unitFaults_of_error rfl rfl (assemble_above_CMAX _ _ _ _ hmin hmax hC),
    fun h => ⟨unitFaults_of_error rfl rfl (alignAdd_error h), unitFaults_of_error rfl rfl (divScale_error h)⟩,
    fun h => unitFaults_of_error rfl rfl (alignFma_error h)⟩

end Sys2Proof.Machine
end

section
/-!
PROOFS. The family of 43_rounding.md, the units: the rounding engine, the mode correction and the assembler,
each against its rule, and the one rounding they realize together.
-/
namespace Sys2Proof.Machine

/-! ### The rounding engine (R190 to R194) -/

/-- The engine's quotient with its indicators before the decade carry: `C / 10^x` to nearest, ties to even. -/
def nearestEven (C x : Nat) : Nat × Indicators := classify (C / 10 ^ x) (C % 10 ^ x) (5 * 10 ^ (x - 1))

theorem rnd_ind (C x : Nat) : (rnd C x).ind = (nearestEven C x).2 := rndWith_indicators _ _ _

/-- The engine answers its quotient, but `10^n` as `10^(n-1)` with the carry reported (R191). -/
theorem rnd_cases (C x : Nat) :
    ((nearestEven C x).1 = 10 ^ (digits C - x) ∧ (rnd C x).Cstar = 10 ^ (digits C - x - 1) ∧
        (rnd C x).incr = true) ∨
      ((nearestEven C x).1 ≠ 10 ^ (digits C - x) ∧ (rnd C x).Cstar = (nearestEven C x).1 ∧
        (rnd C x).incr = false) := by
  simp only [rnd, rndWith, nearestEven]
  split_ifs with h
  · exact .inl ⟨h, rfl, rfl⟩
  · exact .inr ⟨h, rfl, rfl⟩

/-- The rounding in any mode is the engine's quotient moved by the step of the mode. -/
theorem roundInt_eq_nearestEven_add (s : Bool) (rm : Rm) (C : Nat) {x : Nat} (hx : 1 ≤ x) :
    (roundInt s rm C (10 ^ x) : Int) = (nearestEven C x).1 + rmStep s rm (nearestEven C x).2 := by
  have htwice := twice_halfUlp x hx
  exact classify_corrected s rm C (10 ^ x) _ _ Iff.rfl (by omega) (by omega)

theorem nearestEven_rounds (C : Nat) {x : Nat} (hx : 1 ≤ x) :
    RoundsTo false .rn ((C : ℚ) / 10 ^ x) (nearestEven C x).1 := by
  have hround := roundInt_rounds false .rn C (10 ^ x) (by positivity)
  have hstep : rmStep false .rn (nearestEven C x).2 = 0 := rfl
  have heq := roundInt_eq_nearestEven_add false .rn C hx
  rw [hstep, add_zero, Nat.cast_inj] at heq
  rw [heq] at hround
  exact_mod_cast hround

/-- Each indicator says where the discarded part lies against half a unit (R193). -/
theorem nearestEven_indicators (C : Nat) {x : Nat} (hx : 1 ≤ x) :
    ((nearestEven C x).2.ltMid = true ↔ 0 < C % 10 ^ x ∧ 2 * (C % 10 ^ x) < 10 ^ x) ∧
      ((nearestEven C x).2.gtMid = true ↔ 10 ^ x < 2 * (C % 10 ^ x)) ∧
      ((nearestEven C x).2.midDn = true ↔ 2 * (C % 10 ^ x) = 10 ^ x ∧ C / 10 ^ x % 2 = 0) ∧
      ((nearestEven C x).2.midUp = true ↔ 2 * (C % 10 ^ x) = 10 ^ x ∧ C / 10 ^ x % 2 = 1) := by
  have htwice := twice_halfUlp x hx
  unfold nearestEven
  rcases classify_cases (C / 10 ^ x) (C % 10 ^ x) (5 * 10 ^ (x - 1)) with
    ⟨hR, h⟩ | ⟨hR, hhalf, h⟩ | ⟨hR, hhalf, h⟩ | ⟨hR, hhalf, hQ, h⟩ | ⟨hR, hhalf, hQ, h⟩ <;>
    rw [h] <;>
    simp only [indExact, indLtMid, indGtMid, indMidDn, indMidUp, Bool.false_eq_true, false_iff, true_iff] <;>
    omega

/-- The engine's quotient is the truncated one or the next. -/
theorem nearestEven_quotient (C x : Nat) :
    C / 10 ^ x ≤ (nearestEven C x).1 ∧ (nearestEven C x).1 ≤ C / 10 ^ x + 1 := by
  unfold nearestEven
  rcases classify_cases (C / 10 ^ x) (C % 10 ^ x) (5 * 10 ^ (x - 1)) with
    ⟨-, h⟩ | ⟨-, -, h⟩ | ⟨-, -, h⟩ | ⟨-, -, -, h⟩ | ⟨-, -, -, h⟩ <;> rw [h] <;> simp

theorem nearestEven_le (C : Nat) {x : Nat} (hx : 1 ≤ x) (hdigits : x + 1 ≤ digits C) :
    (nearestEven C x).1 ≤ C := by
  have hC : C ≠ 0 := by
    rintro rfl
    simp [digits] at hdigits
    omega
  have hten : 10 ^ 1 ≤ 10 ^ x := Nat.pow_le_pow_right (by decide) hx
  have hpow : 10 ^ x ≤ C :=
    (Nat.pow_le_pow_right (by decide) (Nat.le_sub_of_add_le hdigits)).trans (pow_digits_le C hC)
  have hQ : C / 10 ^ x ≤ C / 10 := Nat.div_le_div_left hten (by decide)
  exact (nearestEven_quotient C x).2.trans (by omega)

theorem rnd_Cstar_le (C : Nat) {x : Nat} (hx : 1 ≤ x) (hdigits : x + 1 ≤ digits C) : (rnd C x).Cstar ≤ C := by
  refine le_trans ?_ (nearestEven_le C hx hdigits)
  rcases rnd_cases C x with ⟨hT, hCstar, -⟩ | ⟨-, hCstar, -⟩ <;> rw [hCstar]
  rw [hT]
  exact Nat.pow_le_pow_right (by decide) (Nat.sub_le _ _)

/-- The constant a routine reads is half a unit, so within its class it is the engine. -/
theorem rndUnit_ok {lo hi C x : Nat} (hhi : hi ≤ 76)
    (h : lo ≤ digits C ∧ digits C ≤ hi ∧ 1 ≤ x ∧ x ≤ digits C - 1) : rndUnit lo hi C x = .ok (rnd C x) := by
  obtain ⟨-, hmax, hx, hdiscard⟩ := id h
  obtain ⟨e, he, -, hval⟩ := romHalfUlp_readsConstant x hx (by omega)
  have htwice := twice_halfUlp x hx
  have hhalf : e.value.toNat = 5 * 10 ^ (x - 1) := by omega
  simp only [rndUnit, if_pos h, he, hhalf]
  rfl

theorem roundsAt_of_unitResult {lo hi W : Nat} {i : Instr} {s : State} (hop : isOperation i = false)
    (h : unitResult s.args s.unitPorts i = outputOf (roundedOutput W)
      (rndUnit lo hi (lowBits W s.unitPorts.ia).toNat s.unitPorts.discard))
    (hhi : hi ≤ 76) (hacc : EngineAccepts lo hi W s) : RoundsAt W i s := by
  obtain ⟨hfit, hclass⟩ := hacc
  obtain ⟨-, -, hx, hdiscard⟩ := id hclass
  rw [lowBits_toNat_of_lt hfit, rndUnit_ok hhi hclass] at h
  have hle := rnd_Cstar_le s.unitPorts.ia.toNat hx (by omega)
  have hW : (BitVec.ofNat W (rnd s.unitPorts.ia.toNat s.unitPorts.discard).Cstar).toNat =
      (rnd s.unitPorts.ia.toNat s.unitPorts.discard).Cstar :=
    Nat.mod_eq_of_lt (lt_of_le_of_lt hle hfit)
  refine ⟨_, _, _, unitDrives_of_unitResult hop h, ⟨_, nearestEven_rounds _ hx, ?_⟩, ?_⟩
  · rw [hW]
    rcases rnd_cases s.unitPorts.ia.toNat s.unitPorts.discard with ⟨hT, hCstar, hincr⟩ | ⟨hT, hCstar, hincr⟩
    · simp [hT, hCstar, hincr]
    · simp [hT, hCstar, hincr]
  · rw [rnd_ind]
    exact nearestEven_indicators _ hx

/-- Settles O32: a routine within its class is the engine, whose quotient is the rounding to nearest even. -/
theorem engineRoundsToNearestEven : Obligations.EngineRoundsToNearestEven := fun _ =>
  ⟨roundsAt_of_unitResult rfl rfl (by decide), roundsAt_of_unitResult rfl rfl (by decide),
    roundsAt_of_unitResult rfl rfl (by decide), roundsAt_of_unitResult rfl rfl (by decide)⟩

/-! ### The correction for the mode (R202 to R207) -/

theorem rmIncrements_iff (s : Bool) (rm : Rm) (ind : Indicators) :
    rmIncrements s rm ind = true ↔ (rm = .ra ∧ ind.midDn = true) ∨
      (rm = .ru ∧ (ind.ltMid = true ∨ ind.midDn = true) ∧ s = false) ∨
      (rm = .rd ∧ (ind.ltMid = true ∨ ind.midDn = true) ∧ s = true) := by
  cases rm <;> simp [rmIncrements, roundedDown]

theorem rmDecrements_iff (s : Bool) (rm : Rm) (ind : Indicators) :
    rmDecrements s rm ind = true ↔ (rm = .rz ∧ (ind.gtMid = true ∨ ind.midUp = true)) ∨
      (rm = .ru ∧ (ind.gtMid = true ∨ ind.midUp = true) ∧ s = true) ∨
      (rm = .rd ∧ (ind.gtMid = true ∨ ind.midUp = true) ∧ s = false) := by
  cases rm <;> simp [rmDecrements, roundedUp]

/-- No mode and sign ask for both directions. -/
theorem not_rmIncrements_and_rmDecrements (s : Bool) (rm : Rm) (ind : Indicators) :
    ¬ (rmIncrements s rm ind = true ∧ rmDecrements s rm ind = true) := by
  cases rm <;> cases s <;> simp [rmIncrements, rmDecrements]

/-- `RMCORR` tests `Cstar = 10^(n-1)` as `10 × Cstar = 10^n` (log entry 8). -/
theorem ten_mul_eq_pow_iff (Cstar n : Nat) : 10 * Cstar = 10 ^ n ↔ 1 ≤ n ∧ Cstar = 10 ^ (n - 1) := by
  cases n with
  | zero => simp
  | succ n => rw [pow_succ']; simp

section
variable {s : Bool} {rm : Rm} {ind : Indicators} (Cstar : Nat) (e : Int) (n : Nat) (carried : Bool)

theorem rmcorr_of_increments (hinc : rmIncrements s rm ind = true) :
    rmcorr s rm Cstar e ind n carried =
      if Cstar + 1 = 10 ^ Config.P then (10 ^ (Config.P - 1), e + 1) else ((Cstar : Int) + 1, e) :=
  if_pos hinc

theorem rmcorr_of_decrements (hdec : rmDecrements s rm ind = true) :
    rmcorr s rm Cstar e ind n carried =
      if carried = true ∧ 10 * Cstar = 10 ^ n then (10 ^ n - 1, e - 1) else ((Cstar : Int) - 1, e) := by
  rw [rmcorr, if_neg fun hinc => not_rmIncrements_and_rmDecrements s rm ind ⟨hinc, hdec⟩, if_pos hdec]

theorem rmcorr_of_neither (hinc : ¬ rmIncrements s rm ind = true) (hdec : ¬ rmDecrements s rm ind = true) :
    rmcorr s rm Cstar e ind n carried = ((Cstar : Int), e) := by
  rw [rmcorr, if_neg hinc, if_neg hdec]

end

/-- Settles O33: the two directions of the rule are `rmIncrements` and `rmDecrements`, which exclude each other. -/
theorem rmcorrFollowsTheModes : Obligations.RmcorrFollowsTheModes := by
  intro s
  refine ⟨_, _, unitDrives_of_unitResult rfl rfl, ?_⟩
  simp only [← rmIncrements_iff, ← rmDecrements_iff, ← ten_mul_eq_pow_iff]
  refine ⟨not_rmIncrements_and_rmDecrements _ _ _, fun hinc htop => ?_, fun hinc htop => ?_,
    fun hdec hundo => ?_, fun hdec hundo => ?_, fun hinc hdec => ?_⟩
  · rw [rmcorr_of_increments _ _ _ _ hinc, if_pos htop]
    exact ⟨rfl, rfl⟩
  · rw [rmcorr_of_increments _ _ _ _ hinc, if_neg htop]
    exact ⟨rfl, rfl⟩
  · rw [rmcorr_of_decrements _ _ _ _ hdec, if_pos hundo]
    exact ⟨rfl, rfl⟩
  · rw [rmcorr_of_decrements _ _ _ _ hdec, if_neg hundo]
    exact ⟨rfl, rfl⟩
  · rw [rmcorr_of_neither _ _ _ _ hinc hdec]
    exact ⟨rfl, rfl⟩

/-- A quotient of the engine that reached the next decade was rounded up, so no mode increments it (R203). -/
theorem rmIncrements_of_carry (s : Bool) (rm : Rm) {C x : Nat} (h : (nearestEven C x).1 = 10 ^ (digits C - x)) :
    rmIncrements s rm (nearestEven C x).2 = false :=
  classify_up s rm _ _ _ (h.trans_ne (discard_lt C x).ne')

/-- Settles O34: the corrected value is the engine's quotient moved by the step of the mode. -/
theorem correctionGivesEveryMode : Obligations.CorrectionGivesEveryMode := by
  intro s rm C x e hx hdigits
  have hround := roundInt_rounds s rm C (10 ^ x) (by positivity)
  refine ⟨_, by exact_mod_cast hround, ?_⟩
  have hstate : ((rnd C x).incr = true ∧ (nearestEven C x).1 = 10 ^ (digits C - x) ∧
      (rnd C x).Cstar = 10 ^ (digits C - x - 1) ∧ rmIncrements s rm (rnd C x).ind = false) ∨
      ((rnd C x).incr = false ∧ (rnd C x).Cstar = (nearestEven C x).1) := by
    rw [rnd_ind]
    rcases rnd_cases C x with ⟨hT, hCstar, hincr⟩ | ⟨-, hCstar, hincr⟩
    · exact .inl ⟨hincr, hT, hCstar, rmIncrements_of_carry s rm hT⟩
    · exact .inr ⟨hincr, hCstar⟩
  have hvalue := rmcorr_value s rm (nearestEven C x).1 (digits C - x) (rnd C x).Cstar e (rnd C x).ind
    (rnd C x).incr (by omega) hstate
  rw [rnd_ind, ← roundInt_eq_nearestEven_add s rm C hx, ← rnd_ind] at hvalue
  exact_mod_cast hvalue

/-! ### The assembler (R208, R210) -/

theorem digits_mul_pow {C : Nat} (hC : C ≠ 0) (k : Nat) : digits (C * 10 ^ k) = digits C + k := by
  have hpos := digits_pos C
  refine digits_unique _ _ (by omega) ?_ ?_
  · rw [Nat.sub_add_comm hpos, pow_add]
    exact Nat.mul_le_mul_right _ (pow_digits_le C hC)
  · rw [pow_add]
    exact Nat.mul_lt_mul_of_pos_right (lt_pow_digits C) (by positivity)

/-- A result above `QMAX` can be folded down exactly when its coefficient grows to at most `P` digits (R208). -/
theorem folds_iff (C k : Nat) : (C = 0 ∨ digits C + k ≤ Config.P) ↔ C * 10 ^ k ≤ Config.CMAX := by
  rcases eq_or_ne C 0 with rfl | hC
  · simp
  · rw [or_iff_right hC, ← digits_mul_pow hC, digits_le_iff _ _ (by decide)]
    exact Nat.lt_succ_iff

section
variable (s : Bool) {C : Nat} {e : Int} (rm : Rm)

theorem assemble_pack (inexact tiny : Bool) (hmin : Config.QMIN ≤ e) (hmax : e ≤ Config.QMAX)
    (hC : C ≤ Config.CMAX) :
    assemble s C e rm inexact tiny = .ok (packWord s (biased e) C, finiteFlags inexact tiny) := by
  rw [assemble, if_neg (not_lt.mpr hmin), if_neg (not_lt.mpr hmax), packed, pack_ok s (biased_le e hmax) hC]

theorem assemble_fold (tiny : Bool) (hmax : Config.QMAX < e)
    (hC : C * 10 ^ (e - Config.QMAX).toNat ≤ Config.CMAX) :
    assemble s C e rm false tiny =
      .ok (packWord s Config.EBMAX (C * 10 ^ (e - Config.QMAX).toNat), noFlags) := by
  rw [assemble, if_neg (not_lt.mpr (lt_trans (by decide) hmax).le), if_pos hmax,
    if_pos ⟨rfl, (folds_iff C _).mpr hC⟩, packed, pack_ok s le_rfl hC]

theorem assemble_overflow (inexact tiny : Bool) (hmax : Config.QMAX < e)
    (h : inexact = true ∨ Config.CMAX < C * 10 ^ (e - Config.QMAX).toNat) :
    assemble s C e rm inexact tiny = .ok (overflow s rm) := by
  have hfold : ¬ (inexact = false ∧ (C = 0 ∨ digits C + (e - Config.QMAX).toNat ≤ Config.P)) := by
    rw [folds_iff, ← not_lt, ← Bool.not_eq_true]
    tauto
  rw [assemble, if_neg (not_lt.mpr (lt_trans (by decide) hmax).le), if_pos hmax, if_neg hfold]

end

theorem finiteFlags_eq (inexact tiny : Bool) :
    finiteFlags inexact tiny = if inexact then (if tiny then 0x30#6 else 0x20#6) else 0#6 := by
  cases inexact <;> cases tiny <;> rfl

theorem drives_of_assemble {s : State} {w : Word} {F : FlagWord}
    (h : assemble s.unitPorts.s s.unitPorts.coef s.unitPorts.exp s.unitPorts.rm s.unitPorts.inexact
      s.unitPorts.tiny = .ok (w, F)) : UnitDrives .assemble s (.assembled w F) :=
  unitDrives_of_ok (f := assembledOutput) rfl rfl h

/-- Settles O35: packed, folded down and overflowed are the three cases, by the exponent and by whether the
coefficient can grow. -/
theorem assemblePacksFoldsOrOverflows : Obligations.AssemblePacksFoldsOrOverflows := by
  intro s hmin hC
  rcases le_or_gt s.unitPorts.exp Config.QMAX with hmax | hmax
  · refine ⟨_, _, drives_of_assemble (assemble_pack _ _ _ _ hmin hmax hC), fun _ => ⟨?_, ?_⟩,
      fun h => absurd hmax (not_le.mpr h), fun h => absurd hmax (not_le.mpr h)⟩
    · exact packWord_isStandardForm _ (biased_le _ hmax) hC
    · exact finiteFlags_eq _ _
  · by_cases hover : s.unitPorts.inexact = true ∨
        Config.CMAX < s.unitPorts.coef * 10 ^ (s.unitPorts.exp - Config.QMAX).toNat
    · refine ⟨_, _, drives_of_assemble (assemble_overflow _ _ _ _ hmax hover),
        fun h => absurd hmax (not_lt.mpr h), fun _ hexact hgrow => ?_, fun _ _ => ⟨ovfWord_eq _ _, rfl⟩⟩
      rw [hexact] at hover
      exact absurd hgrow (not_le.mpr (hover.resolve_left Bool.false_ne_true))
    · obtain ⟨hexact, hgrow⟩ := not_or.mp hover
      have hfold := assemble_fold s.unitPorts.s s.unitPorts.rm s.unitPorts.tiny hmax (not_lt.mp hgrow)
      rw [← Bool.eq_false_of_not_eq_true hexact] at hfold
      exact ⟨_, _, drives_of_assemble hfold, fun h => absurd hmax (not_lt.mpr h),
        fun _ _ _ => ⟨packWord_isStandardForm _ le_rfl (not_lt.mp hgrow), rfl⟩, fun _ h => absurd h hover⟩

/-! ### Tininess (R214) -/

theorem floorLog10_lt_iff {v : Magnitude} (hn : v.num ≠ 0) (hd : v.den ≠ 0) (L : Int) :
    floorLog10 v < L ↔ magnitudeValue v < (10 : ℚ) ^ L := by
  obtain ⟨hlo, hhi⟩ := floorLog10_spec v hn hd
  constructor
  · exact fun h => hhi.trans_le (zpow_le_zpow_right₀ (by norm_num) h)
  · exact fun h => (zpow_lt_zpow_iff_right₀ (by norm_num : (1 : ℚ) < 10)).mp (hlo.trans_lt h)

theorem pow_toNat_mul_zpow_min (i j : Int) : (10 : ℚ) ^ (i - j).toNat * (10 : ℚ) ^ min i j = (10 : ℚ) ^ i := by
  rw [← zpow_natCast, ← zpow_add₀ (by norm_num)]
  congr 1
  omega

theorem scaledLt_iff (a : Nat) (i : Int) (b : Nat) (j : Int) :
    scaledLt a i b j = true ↔ (a : ℚ) * (10 : ℚ) ^ i < b * (10 : ℚ) ^ j := by
  have hj := pow_toNat_mul_zpow_min j i
  rw [min_comm] at hj
  rw [← pow_toNat_mul_zpow_min i j, ← hj, ← mul_assoc, ← mul_assoc, mul_lt_mul_iff_left₀ (by positivity),
    scaledLt, decide_eq_true_eq]
  norm_cast

/-- The carry into the next decade does not change the rounded value. -/
theorem roundAt_value (s : Bool) (rm : Rm) (v : Magnitude) (q : Int) :
    ((roundAt s rm v q).1 : ℚ) * (10 : ℚ) ^ (roundAt s rm v q).2 =
      roundInt s rm (atExp v q).1 (atExp v q).2 * (10 : ℚ) ^ q := by
  rcases roundAt_cases s rm v q with ⟨hcarry, h⟩ | ⟨-, h⟩ <;> rw [h]
  rw [hcarry, zpow_succ_ten]
  norm_num
  ring

/-- Settles O36: the exponent of the 34th digit and the rounded coefficient there are unique. -/
theorem tininessFollowsThePolicy : Obligations.TininessFollowsThePolicy := by
  intro policy s v rm hn hd
  cases policy with
  | before => rw [tiny, decide_eq_true_eq, floorLog10_lt_iff hn hd, TinyValue]
  | after =>
    have hround := roundInt_rounds s rm (atExp v (floorLog10 v - 33)).1 _
      (atExp_den_ne_zero v (floorLog10 v - 33) hd)
    rw [atExp_value v _ hd] at hround
    simp only [tiny, TinyValue]
    rw [scaledLt_iff, roundAt_value, Nat.cast_one, one_mul]
    constructor
    · intro htiny
      obtain ⟨hlo, hhi⟩ := floorLog10_spec v hn hd
      refine ⟨floorLog10 v - 33, _, ?_, ?_, hround, htiny⟩
      · rwa [sub_add_cancel]
      · rwa [show floorLog10 v - 33 + 34 = floorLog10 v + 1 by ring]
    · rintro ⟨q, C, hlo, hhi, hC, htiny⟩
      have hL := floorLog10_unique v hn hd (q + 33) hlo (by rwa [add_assoc])
      obtain rfl : q = floorLog10 v - 33 := by omega
      rwa [← RoundsTo_unique s rm _ _ _ hround hC] at htiny

/-! ### One rounding by engine, correction and assembler (R219, R220) -/

section
variable {M : Nat} (e : Int)

theorem magnitudeValue_integer : magnitudeValue ⟨M, 1, e⟩ = M * (10 : ℚ) ^ e := by
  simp [magnitudeValue]

theorem atExp_integer_le {q : Int} (h : q ≤ e) : atExp ⟨M, 1, e⟩ q = (M * 10 ^ (e - q).toNat, 1) := by
  simp [atExp, h]

theorem atExp_integer_add (x : Nat) : atExp ⟨M, 1, e⟩ (e + x) = (M, 10 ^ x) := by
  simp [atExp]

theorem floorLog10_integer (hM : M ≠ 0) : floorLog10 ⟨M, 1, e⟩ = e + (digits M - 1) := by
  have hpos := digits_pos M
  have hd : (digits M : Int) - digits 1 = (digits M - 1 : Nat) := by
    rw [show digits 1 = 1 from rfl]
    omega
  simp only [floorLog10, hd]
  rw [show ((digits M - 1 : Nat) : Int) = 0 + (digits M - 1 : Nat) by ring, atExp_integer_add,
    if_pos (pow_digits_le M hM)]
  omega

theorem lastKept_integer (hM : M ≠ 0) :
    lastKept ⟨M, 1, e⟩ = max (e + digits M - Config.P) Config.QMIN := by
  rw [lastKept, floorLog10_integer e hM]
  simp only [Config.P]
  omega

end

theorem trailingZeros_mul_pow {N : Nat} (hN : N ≠ 0) (k : Nat) :
    trailingZeros (N * 10 ^ k) = trailingZeros N + k := by
  have hNk : N * 10 ^ k ≠ 0 := by positivity
  refine eq_of_forall_le_iff fun j => ?_
  rw [← pow_dvd_iff_le_trailingZeros _ _ hNk]
  rcases le_total j k with h | h
  · exact iff_of_true (Dvd.dvd.mul_left (pow_dvd_pow 10 h) N) (by omega)
  · obtain ⟨i, rfl⟩ := Nat.exists_eq_add_of_le' h
    rw [pow_add, Nat.mul_dvd_mul_iff_right (by positivity), pow_dvd_iff_le_trailingZeros _ _ hN]
    omega

/-- An integer at an exponent does not depend on the exponent it was scaled to on the way. -/
theorem rescale_eq (N : Nat) {e q q0 : Int} (he : q0 ≤ e) (hq : q0 ≤ q) :
    N * 10 ^ (e - q).toNat / 10 ^ (q - e).toNat = N * 10 ^ (e - q0).toNat / 10 ^ (q - q0).toNat := by
  rw [show (e - q0).toNat = (e - q).toNat + (min e q - q0).toNat by omega,
    show (q - q0).toNat = (q - e).toNat + (min e q - q0).toNat by omega, pow_add, pow_add, ← mul_assoc,
    Nat.mul_div_mul_right _ _ (by positivity)]

/-- A value whose last kept exponent is at or below its own needs no rounding (R212, R215). -/
theorem roundToFormat_integer (policy : Tininess) (s : Bool) {N : Nat} {e : Int} (pref : Int) (rm : Rm)
    (hN : N ≠ 0) (he : lastKept ⟨N, 1, e⟩ ≤ e) :
    roundToFormat policy s ⟨N, 1, e⟩ pref rm =
      if Config.QMAX < lastKept ⟨N, 1, e⟩ then overflow s rm
      else exactResult s (N * 10 ^ (e - lastKept ⟨N, 1, e⟩).toNat) (lastKept ⟨N, 1, e⟩) pref := by
  have hlt := atExp_lastKept_lt ⟨N, 1, e⟩ hN one_ne_zero
  rw [atExp_integer_le e he, mul_one] at hlt
  have hround : roundAt s rm ⟨N, 1, e⟩ (lastKept ⟨N, 1, e⟩) =
      (N * 10 ^ (e - lastKept ⟨N, 1, e⟩).toNat, lastKept ⟨N, 1, e⟩) := by
    simp only [roundAt, atExp_integer_le e he, roundInt_of_dvd s rm _ 1 (Nat.mod_one _), Nat.div_one]
    exact if_neg hlt.ne
  have hexact : inexactAt ⟨N, 1, e⟩ (lastKept ⟨N, 1, e⟩) = false := by
    simp [inexactAt, atExp_integer_le e he, Nat.mod_one]
  simp only [roundToFormat, hround, hexact, Bool.false_eq_true, if_false]

theorem assembleExact_eq (policy : Tininess) (s : Bool) {N : Nat} {e : Int} (pref : Int) (rm : Rm)
    (hN : N ≠ 0) (he : lastKept ⟨N, 1, e⟩ ≤ e) :
    assembleExact s N e pref rm = .ok (roundToFormat policy s ⟨N, 1, e⟩ pref rm) := by
  have hlt := atExp_lastKept_lt ⟨N, 1, e⟩ hN one_ne_zero
  have hge := le_atExp_lastKept ⟨N, 1, e⟩ hN one_ne_zero
  have hmin : Config.QMIN ≤ lastKept ⟨N, 1, e⟩ := le_max_right _ _
  have htz := trailingZeros_mul_pow hN (e - lastKept ⟨N, 1, e⟩).toNat
  rw [atExp_integer_le e he, mul_one] at hlt hge
  rw [roundToFormat_integer policy s pref rm hN he]
  simp only [assembleExact, ← lastKept_integer e hN, exactResult, htz]
  generalize lastKept ⟨N, 1, e⟩ = q0 at *
  rw [show q0 + ((trailingZeros N + (e - q0).toNat : Nat) : Int) = e + trailingZeros N by omega]
  have hclamp := clamp_mem pref q0 (min (e + trailingZeros N) Config.QMAX)
  split_ifs with hover
  · have hq : max q0 (clamp pref q0 (min (e + trailingZeros N) Config.QMAX)) = q0 := by
      unfold clamp
      omega
    rw [hq, Int.toNat_of_nonpos (sub_nonpos.mpr he), pow_zero, Nat.div_one]
    refine assemble_overflow s rm false false hover (.inr ?_)
    have hten : 10 ^ 1 ≤ 10 ^ (q0 - Config.QMAX).toNat := Nat.pow_le_pow_right (by decide) (by omega)
    exact lt_of_lt_of_le (by decide) (Nat.mul_le_mul (hge (lt_trans (by decide) hover).ne') hten)
  · rw [max_eq_right (hclamp (by omega)).1, rescale_eq N he (hclamp (by omega)).1]
    refine assemble_pack s rm false false (by omega) (by omega) ?_
    exact (Nat.div_le_self _ _).trans (Nat.le_of_lt_succ hlt)

/-- An inexact value is assembled at the exponent it was rounded to (R208, R212). -/
theorem assemble_roundAt (policy : Tininess) (s : Bool) {v : Magnitude} (pref : Int) (rm : Rm)
    (hn : v.num ≠ 0) (hd : v.den ≠ 0) (hinexact : inexactAt v (lastKept v) = true) :
    assemble s (roundAt s rm v (lastKept v)).1 (roundAt s rm v (lastKept v)).2 rm true (tiny policy s v rm) =
      .ok (roundToFormat policy s v pref rm) := by
  have hmin : Config.QMIN ≤ (roundAt s rm v (lastKept v)).2 :=
    (le_max_right _ _).trans (roundAt_exp s rm v (lastKept v)).1
  simp only [roundToFormat, hinexact, if_true]
  split_ifs with hover
  · exact assemble_overflow s rm true _ hover (.inl rfl)
  · exact assemble_pack s rm true _ hmin (not_lt.mp hover) (roundAt_lastKept_le s rm v hn hd)

/-- The correction of a quotient `T` of at most `P` digits, carried into the next decade where it is `10^P`,
is the rounded coefficient `Z` with its own carry: an increment that reaches `10^P` carries, and a decrement
undoes the engine's carry (R203, R205, R207). -/
theorem rmcorr_eq_carry (s : Bool) (rm : Rm) {T Z Cstar : Nat} (e : Int) {n : Nat} {ind : Indicators}
    {carried : Bool} (hT : T ≤ 10 ^ Config.P) (hZ : (Z : Int) = T + rmStep s rm ind)
    (h : (carried = true ∧ T = 10 ^ Config.P ∧ Cstar = 10 ^ (Config.P - 1) ∧ n = Config.P ∧
        rmIncrements s rm ind = false) ∨ (carried = false ∧ T ≠ 10 ^ Config.P ∧ Cstar = T)) :
    rmcorr s rm Cstar (e + if carried then 1 else 0) ind n carried =
      if Z = 10 ^ Config.P then (10 ^ (Config.P - 1), e + 1) else ((Z : Int), e) := by
  unfold rmStep at hZ
  by_cases hinc : rmIncrements s rm ind = true
  · obtain ⟨rfl, hne, rfl⟩ := h.resolve_left fun h => by simp [hinc] at h
    rw [rmcorr_of_increments _ _ _ _ hinc]
    rw [if_pos hinc] at hZ
    obtain rfl : Z = Cstar + 1 := by omega
    simp
  · rw [if_neg hinc] at hZ
    by_cases hdec : rmDecrements s rm ind = true
    · rw [if_pos hdec] at hZ
      rw [rmcorr_of_decrements _ _ _ _ hdec, if_neg (by omega : Z ≠ 10 ^ Config.P)]
      rcases h with ⟨rfl, rfl, rfl, rfl, -⟩ | ⟨rfl, hne, rfl⟩
      · rw [if_pos ⟨rfl, rfl⟩, hZ]
        simp [sub_eq_add_neg]
      · simp [hZ, sub_eq_add_neg]
    · rw [if_neg hdec, add_zero, Nat.cast_inj] at hZ
      rw [rmcorr_of_neither _ _ _ _ hinc hdec, hZ]
      rcases h with ⟨rfl, rfl, rfl, rfl, -⟩ | ⟨rfl, hne, rfl⟩
      · simp
      · simp [hne]

theorem nearestEven_exact_iff (M : Nat) (x : Nat) :
    anyIndicator (nearestEven M x).2 = false ↔ M % 10 ^ x = 0 := by
  unfold nearestEven
  rcases classify_cases (M / 10 ^ x) (M % 10 ^ x) (5 * 10 ^ (x - 1)) with
    ⟨hR, h⟩ | ⟨hR, -, h⟩ | ⟨hR, -, h⟩ | ⟨hR, -, -, h⟩ | ⟨hR, -, -, h⟩ <;> rw [h]
  · exact iff_of_true rfl hR
  all_goals exact iff_of_false Bool.false_ne_true.symm hR.ne'

section
variable (policy : Tininess) (s : Bool) (rm : Rm) {M : Nat} (e : Int) (pref : Int) {x : Nat}

theorem roundAt_integer_add :
    roundAt s rm ⟨M, 1, e⟩ (e + x) =
      if roundInt s rm M (10 ^ x) = 10 ^ Config.P then (10 ^ (Config.P - 1), e + x + 1)
      else (roundInt s rm M (10 ^ x), e + x) := by
  simp only [roundAt, atExp_integer_add]

theorem inexactAt_integer_add : inexactAt ⟨M, 1, e⟩ (e + x) = decide (M % 10 ^ x ≠ 0) := by
  simp only [inexactAt, atExp_integer_add]

theorem nearestEven_le_pow : (nearestEven M x).1 ≤ 10 ^ (digits M - x) :=
  (nearestEven_quotient M x).2.trans (discard_lt M x)

/-- Engine and correction round as `RoundToFormat` does: a quotient that reached `10^n` with `n` below `P` still
fits the format and keeps its exponent, and at `n = P` the engine's carry is the decade's (R219). -/
theorem rmcorr_rnd_eq_roundAt (hx : 1 ≤ x) (hP : digits M - x ≤ Config.P) :
    let r := rnd M x
    let n := digits M - x
    let fits := r.incr && decide (n < Config.P)
    let carried := r.incr && !fits
    rmcorr s rm (if fits then 10 ^ n else r.Cstar) (e + x + if carried then 1 else 0) r.ind
        (if fits then n + 1 else n) carried =
      (((roundAt s rm ⟨M, 1, e⟩ (e + x)).1 : Int), (roundAt s rm ⟨M, 1, e⟩ (e + x)).2) := by
  intro r n fits carried
  have hle : (nearestEven M x).1 ≤ 10 ^ n := nearestEven_le_pow
  have hpow : 10 ^ n ≤ 10 ^ Config.P := Nat.pow_le_pow_right (by decide) hP
  have hstate : (carried = true ∧ (nearestEven M x).1 = 10 ^ Config.P ∧
      (if fits then 10 ^ n else r.Cstar) = 10 ^ (Config.P - 1) ∧ (if fits then n + 1 else n) = Config.P ∧
        rmIncrements s rm r.ind = false) ∨
      (carried = false ∧ (nearestEven M x).1 ≠ 10 ^ Config.P ∧
        (if fits then 10 ^ n else r.Cstar) = (nearestEven M x).1) := by
    rcases rnd_cases M x with ⟨hT, hCstar, hincr⟩ | ⟨hT, hCstar, hincr⟩
    · rcases hP.lt_or_eq with hn | hn
      · have hlt : 10 ^ n < 10 ^ Config.P := Nat.pow_lt_pow_right (by decide) hn
        simp only [carried, fits, r, n, hincr, hn, hT]
        exact .inr ⟨rfl, hlt.ne, rfl⟩
      · have hinc := rmIncrements_of_carry s rm hT
        rw [← rnd_ind] at hinc
        simp only [carried, fits, r, n, hincr, hn, hT, hCstar]
        exact .inl ⟨rfl, trivial, rfl, rfl, hinc⟩
    · have hlt : (nearestEven M x).1 < 10 ^ Config.P := (lt_of_le_of_ne hle hT).trans_le hpow
      simp only [carried, fits, r, hincr, hCstar]
      exact .inr ⟨rfl, hlt.ne, rfl⟩
  have hZ := roundInt_eq_nearestEven_add s rm M hx
  rw [← rnd_ind] at hZ
  rw [rmcorr_eq_carry s rm (e + x) (hle.trans hpow) hZ hstate, roundAt_integer_add]
  split_ifs <;> rfl

variable (hM : M ≠ 0) (hkept : lastKept ⟨M, 1, e⟩ = e + x)
include hM hkept

/-- A value of no more digits than are discarded: at `QMIN` it is rounded to 0 or 1 (R219). -/
theorem assemble_below_unit (hdigits : digits M ≤ x) :
    assemble s (roundInt s rm M (10 ^ x)) (e + x) rm true (tiny policy s ⟨M, 1, e⟩ rm) =
      .ok (roundToFormat policy s ⟨M, 1, e⟩ pref rm) := by
  have hlt : M < 10 ^ x := (lt_pow_digits M).trans_le (Nat.pow_le_pow_right (by decide) hdigits)
  have hle : roundInt s rm M (10 ^ x) ≤ 1 := roundInt_le s rm M (10 ^ x) 1 (by omega)
  have hround := assemble_roundAt (v := ⟨M, 1, e⟩) policy s pref rm hM one_ne_zero (by
    rw [hkept, inexactAt_integer_add, Nat.mod_eq_of_lt hlt, decide_eq_true hM])
  rwa [hkept, roundAt_integer_add, if_neg (lt_of_le_of_lt hle (by decide)).ne] at hround

/-- A value whose discarded digits are all 0 is exact with its other digits (R219). -/
theorem assembleExact_of_discard_zero (hexact : M % 10 ^ x = 0) :
    assembleExact s (M / 10 ^ x) (e + x) pref rm = .ok (roundToFormat policy s ⟨M, 1, e⟩ pref rm) := by
  have hmul := Nat.div_mul_cancel (Nat.dvd_of_mod_eq_zero hexact)
  have hN : M / 10 ^ x ≠ 0 := fun h => hM (by rw [← hmul, h, zero_mul])
  have hvalue : magnitudeValue ⟨M / 10 ^ x, 1, e + x⟩ = magnitudeValue ⟨M, 1, e⟩ := by
    rw [magnitudeValue_integer, magnitudeValue_integer, zpow_add₀ (by norm_num), zpow_natCast]
    conv_rhs => rw [← hmul]
    push_cast
    ring
  have hfloor := floorLog10_congr _ _ hN one_ne_zero hM one_ne_zero hvalue
  rw [assembleExact_eq policy s pref rm hN (by rw [lastKept, hfloor, ← hkept, lastKept]),
    roundToFormat_congr policy s pref rm _ _ hN one_ne_zero hM one_ne_zero hvalue]

end

/-- Settles O37: the digits discarded are those below the last kept exponent; none, all of them, only zeros, or a
part that the engine rounds and the correction moves. -/
theorem unitsRealizeOneRounding : Obligations.UnitsRealizeOneRounding := by
  intro policy s M e pref rm hpos
  have hM : M ≠ 0 := Nat.one_le_iff_ne_zero.mp hpos
  have hkept := lastKept_integer e hM
  obtain ⟨x, hx⟩ : ∃ x, (max (max ((digits M : Int) - Config.P) (Config.QMIN - e)) 0).toNat = x := ⟨_, rfl⟩
  simp only [realize, hx]
  by_cases hzero : x = 0
  · rw [if_pos hzero]
    exact assembleExact_eq policy s pref rm hM (by omega)
  have hkept : lastKept ⟨M, 1, e⟩ = e + x := by omega
  by_cases hbelow : digits M ≤ x
  · rw [if_neg hzero, if_pos hbelow]
    exact assemble_below_unit policy s rm e pref hM hkept hbelow
  rw [if_neg hzero, if_neg hbelow]
  by_cases hexact : anyIndicator (rnd M x).ind = false
  · rw [if_pos hexact]
    rw [rnd_ind, nearestEven_exact_iff] at hexact
    exact assembleExact_of_discard_zero policy s rm e pref hM hkept hexact
  · have hround := rmcorr_rnd_eq_roundAt s rm e (M := M) (x := x) (by omega) (by omega)
    rw [if_neg hexact, hround, Int.toNat_natCast, ← hkept]
    refine assemble_roundAt policy s pref rm hM one_ne_zero ?_
    rw [rnd_ind, nearestEven_exact_iff] at hexact
    rw [hkept, inexactAt_integer_add, decide_eq_true hexact]

end Sys2Proof.Machine
end

section
/-!
PROOFS. The family of 43_rounding.md, the operations: `ADD`, `MUL`, `FMA` and `DIV` of finite operands are their
exact value rounded once, and their exactly zero results.
-/
namespace Sys2Proof.Machine

/-! ### `RoundToFormat` is the exact value rounded once (R212 to R216, R218) -/

theorem roundToFormat_correctlyRounded (policy : Tininess) {s : Bool} {v : Magnitude} (pref : Int) (rm : Rm)
    {a : ℚ} (hn : v.num ≠ 0) (hd : v.den ≠ 0) (habs : |a| = magnitudeValue v) (hs : s = decide (a < 0)) :
    CorrectlyRounded policy rm pref a (roundToFormat policy s v pref rm).1
      (roundToFormat policy s v pref rm).2 := by
  rw [CorrectlyRounded, habs, ← hs]
  rcases roundToFormat_cases policy s v pref rm hn hd with
    ⟨hover, h⟩ | ⟨-, C, q, hmin, hmax, hC, ⟨hvalue, h, hclosest⟩ | ⟨hround, h, hnot⟩⟩ <;> rw [h]
  · have hrounds := roundInt_rounds s rm (atExp v Config.QMAX).1 _ (atExp_den_ne_zero v Config.QMAX hd)
    rw [atExp_value v _ hd] at hrounds
    exact .inl ⟨⟨_, hrounds, hover⟩, ovfWord_eq s rm, rfl⟩
  · exact .inr (.inl ⟨rfl, C, q, ⟨hC, hmin, hmax, hvalue⟩, rfl,
      fun C' q' ⟨hC', hmin', hmax', hvalue'⟩ => hclosest C' q' hmin' hmax' hC' hvalue'⟩)
  · have htiny := tininessFollowsThePolicy policy s v rm hn hd
    refine .inr (.inr ⟨fun C' q' ⟨hC', hmin', _, hvalue'⟩ => hnot C' q' hmin' hC' hvalue',
      ⟨C, q, hmax, hround, rfl⟩, fun h => ?_, fun h => ?_⟩)
    · rw [htiny.mpr h]
      rfl
    · rw [Bool.eq_false_iff.mpr (mt htiny.mp h)]
      rfl

/-- A nonzero sum of `ADD` or `FMA`, an integer at an exponent, is rounded once (R240, R280). -/
theorem sumResult_correctlyRounded (policy : Tininess) (rm : Rm) {m e : Int} (pref : Int) (sa sb : Bool) {a : ℚ}
    (hvalue : a = m * (10 : ℚ) ^ e) (hne : a ≠ 0) :
    CorrectlyRounded policy rm pref a (sumResult policy rm m e pref sa sb).1
      (sumResult policy rm m e pref sa sb).2 := by
  have hpos : (0 : ℚ) < (10 : ℚ) ^ e := by positivity
  have hm : m ≠ 0 := by
    rintro rfl
    exact hne (by rw [hvalue, Int.cast_zero, zero_mul])
  have habs : |a| = magnitudeValue ⟨m.natAbs, 1, e⟩ := by
    rw [magnitudeValue_integer, hvalue, abs_mul, abs_of_pos hpos, Nat.cast_natAbs, Int.cast_abs]
  have hsign : decide (m < 0) = decide (a < 0) := by
    rw [decide_eq_decide, hvalue, ← zero_mul ((10 : ℚ) ^ e), mul_lt_mul_iff_left₀ hpos, Int.cast_lt_zero]
  rw [sumResult, if_neg hm]
  exact roundToFormat_correctlyRounded policy pref rm (Int.natAbs_ne_zero.mpr hm) one_ne_zero habs hsign

/-- A zero sum of `ADD` or `FMA` is the zero of the sign rule at the preferred exponent (R217). -/
theorem sumResult_zero (policy : Tininess) (rm : Rm) {m e : Int} (pref : Int) (sa sb : Bool)
    (hvalue : (m : ℚ) * (10 : ℚ) ^ e = 0) :
    sumResult policy rm m e pref sa sb = (packWord (zsign sa sb rm) (biased pref) 0, noFlags) :=
  if_pos (Int.cast_eq_zero.mp ((mul_eq_zero.mp hvalue).resolve_right (by positivity)))

/-! ### The operations on finite records (R240, R280, R290, R320) -/

section
variable {x y z : Record} (policy : Tininess) (rm : Rm) (hx : isFinite x = true) (hy : isFinite y = true)
include hx hy

theorem addRecords_finite :
    addRecords policy rm x y =
      sumResult policy rm (exactSum x y) (min (quantumExp x) (quantumExp y)) (min (quantumExp x) (quantumExp y))
        x.s y.s := by
  obtain ⟨hxnan, hxinf⟩ := not_special_of_isFinite x hx
  obtain ⟨hynan, hyinf⟩ := not_special_of_isFinite y hy
  simp [addRecords, hxnan, hxinf, hynan, hyinf]

theorem mulRecords_finite (first : NanFirst) :
    mulRecords policy first rm x y =
      if x.cls = .zero ∨ y.cls = .zero then
        (packWord (x.s ^^ y.s) (biased (clamp (quantumExp x + quantumExp y) Config.QMIN Config.QMAX)) 0, noFlags)
      else roundToFormat policy (x.s ^^ y.s) ⟨x.Cf.toNat * y.Cf.toNat, 1, quantumExp x + quantumExp y⟩
        (clamp (quantumExp x + quantumExp y) Config.QMIN Config.QMAX) rm := by
  obtain ⟨hxnan, hxinf⟩ := not_special_of_isFinite x hx
  obtain ⟨hynan, hyinf⟩ := not_special_of_isFinite y hy
  simp [mulRecords, hxnan, hxinf, hynan, hyinf]

theorem fmaRecords_finite (hz : isFinite z = true) :
    fmaRecords policy rm x y z =
      sumResult policy rm (exactFma x y z) (min (quantumExp x + quantumExp y) (quantumExp z))
        (clamp (min (quantumExp x + quantumExp y) (quantumExp z)) Config.QMIN Config.QMAX) (x.s ^^ y.s) z.s := by
  obtain ⟨hxnan, hxinf⟩ := not_special_of_isFinite x hx
  obtain ⟨hynan, hyinf⟩ := not_special_of_isFinite y hy
  obtain ⟨hznan, hzinf⟩ := not_special_of_isFinite z hz
  simp [fmaRecords, hxnan, hxinf, hynan, hyinf, hznan, hzinf]

theorem divRecords_finite (args : ModelArgs) (hyzero : y.cls ≠ .zero) :
    divRecords args rm x y =
      if x.cls = .zero then
        (packWord (x.s ^^ y.s) (biased (clamp (quantumExp x - quantumExp y) Config.QMIN Config.QMAX)) 0, noFlags)
      else roundToFormat args.tininess (x.s ^^ y.s) ⟨x.Cf.toNat, y.Cf.toNat, quantumExp x - quantumExp y⟩
        (clamp (quantumExp x - quantumExp y) Config.QMIN Config.QMAX) rm := by
  obtain ⟨hxnan, hxinf⟩ := not_special_of_isFinite x hx
  obtain ⟨hynan, hyinf⟩ := not_special_of_isFinite y hy
  simp [divRecords, hxnan, hxinf, hynan, hyinf, hyzero]

end

/-! ### The operations on the decoded operands (R22 to R24, R170) -/

section
variable (rm : Rm) (s : State)

theorem drives_add : Drives (.add rm) s (addRecords s.args.tininess rm (operandA s) (operandB s)).1
    (addRecords s.args.tininess rm (operandA s) (operandB s)).2 :=
  drives_operationResult (.add rm) s rfl

theorem drives_mul :
    Drives (.mul rm) s (mulRecords s.args.tininess s.args.mulNanFirst rm (operandA s) (operandB s)).1
      (mulRecords s.args.tininess s.args.mulNanFirst rm (operandA s) (operandB s)).2 :=
  drives_operationResult (.mul rm) s rfl

theorem drives_fma :
    Drives (.fma rm) s (fmaRecords s.args.tininess rm (operandA s) (operandB s) (operandC s)).1
      (fmaRecords s.args.tininess rm (operandA s) (operandB s) (operandC s)).2 :=
  drives_operationResult (.fma rm) s rfl

theorem drives_div : Drives (.div rm) s (divRecords s.args rm (operandA s) (operandB s)).1
    (divRecords s.args rm (operandA s) (operandB s)).2 :=
  drives_operationResult (.div rm) s rfl

theorem operandA_zero_iff (h : isFinite (operandA s) = true) :
    (operandA s).cls = .zero ↔ valueOf (operandA s) = 0 :=
  cls_zero_iff _ _ (unpack_wf _ _) h

theorem operandB_zero_iff (h : isFinite (operandB s) = true) :
    (operandB s).cls = .zero ↔ valueOf (operandB s) = 0 :=
  cls_zero_iff _ _ (unpack_wf _ _) h

theorem factor_zero_iff (hA : isFinite (operandA s) = true) (hB : isFinite (operandB s) = true) :
    ((operandA s).cls = .zero ∨ (operandB s).cls = .zero) ↔
      (valueOf (operandA s) = 0 ∨ valueOf (operandB s) = 0) :=
  or_congr (operandA_zero_iff s hA) (operandB_zero_iff s hB)

end

/-! ### Signs and magnitudes of products and quotients (R12) -/

theorem sign_eq_decide_valueOf_neg {r : Record} (h : valueOf r ≠ 0) : r.s = decide (valueOf r < 0) := by
  rw [Ne, valueOf_eq_zero_iff] at h
  simp [valueOf_neg_iff, h]

theorem decide_mul_neg {a b : ℚ} (ha : a ≠ 0) (hb : b ≠ 0) :
    decide (a * b < 0) = (decide (a < 0) ^^ decide (b < 0)) := by
  rcases ha.lt_or_gt with ha | ha <;> rcases hb.lt_or_gt with hb | hb <;>
    simp [mul_neg_iff, ha, hb, ha.not_gt, hb.not_gt]

theorem decide_div_neg {a b : ℚ} (ha : a ≠ 0) (hb : b ≠ 0) :
    decide (a / b < 0) = (decide (a < 0) ^^ decide (b < 0)) := by
  rw [div_eq_mul_inv, decide_mul_neg ha (inv_ne_zero hb), decide_eq_decide.mpr inv_lt_zero]

theorem abs_valueOf_mul (x y : Record) :
    |valueOf x * valueOf y| = magnitudeValue ⟨x.Cf.toNat * y.Cf.toNat, 1, quantumExp x + quantumExp y⟩ := by
  rw [abs_mul, abs_valueOf, abs_valueOf, magnitudeValue_integer, zpow_add₀ (by norm_num)]
  push_cast
  ring

theorem abs_valueOf_div (x y : Record) :
    |valueOf x / valueOf y| = magnitudeValue ⟨x.Cf.toNat, y.Cf.toNat, quantumExp x - quantumExp y⟩ := by
  rw [abs_div, abs_valueOf, abs_valueOf, magnitudeValue, zpow_sub₀ (by norm_num), mul_div_mul_comm]

/-! ### The results with a nonzero value -/

/-- Settles O44: the integer `ADD` rounds is the exact sum at the smaller exponent. -/
theorem addIsCorrectlyRounded : Obligations.AddIsCorrectlyRounded := by
  intro rm s hA hB hne
  refine ⟨_, _, drives_add rm s, ?_⟩
  rw [addRecords_finite _ _ hA hB]
  exact sumResult_correctlyRounded _ rm _ _ _ (exactSum_value _ _) hne

/-- Settles O45: the product of the coefficients at the sum of the exponents is the exact product. -/
theorem mulIsCorrectlyRounded : Obligations.MulIsCorrectlyRounded := by
  intro rm s hA hB hne
  obtain ⟨hvA, hvB⟩ := mul_ne_zero_iff.mp hne
  refine ⟨_, _, drives_mul rm s, ?_⟩
  rw [mulRecords_finite _ _ hA hB, if_neg (mt (factor_zero_iff s hA hB).mp (not_or.mpr ⟨hvA, hvB⟩))]
  refine roundToFormat_correctlyRounded _ _ rm (Nat.mul_ne_zero ?_ ?_) one_ne_zero (abs_valueOf_mul _ _) ?_
  · exact mt (valueOf_eq_zero_iff _).mpr hvA
  · exact mt (valueOf_eq_zero_iff _).mpr hvB
  · rw [decide_mul_neg hvA hvB, ← sign_eq_decide_valueOf_neg hvA, ← sign_eq_decide_valueOf_neg hvB]

/-- Settles O46: the integer `FMA` rounds is the exact product and sum at the smaller exponent. -/
theorem fmaIsCorrectlyRounded : Obligations.FmaIsCorrectlyRounded := by
  intro rm s hA hB hC hne
  refine ⟨_, _, drives_fma rm s, ?_⟩
  rw [fmaRecords_finite _ _ hA hB hC]
  exact sumResult_correctlyRounded _ rm _ _ _ (exactFma_value _ _ _) hne

/-- Settles O47: the quotient of the coefficients at the difference of the exponents is the exact quotient. -/
theorem divIsCorrectlyRounded : Obligations.DivIsCorrectlyRounded := by
  intro rm s hA hB hvA hvB
  refine ⟨_, _, drives_div rm s, ?_⟩
  rw [divRecords_finite _ hA hB _ (mt (operandB_zero_iff s hB).mp hvB),
    if_neg (mt (operandA_zero_iff s hA).mp hvA)]
  refine roundToFormat_correctlyRounded _ _ rm ?_ ?_ (abs_valueOf_div _ _) ?_
  · exact mt (valueOf_eq_zero_iff _).mpr hvA
  · exact mt (valueOf_eq_zero_iff _).mpr hvB
  · rw [decide_div_neg hvA hvB, ← sign_eq_decide_valueOf_neg hvA, ← sign_eq_decide_valueOf_neg hvB]

/-! ### The results that are exactly zero (R213, R217) -/

/-- A zero at a clamped exponent is a standard form with coefficient 0. -/
theorem zero_isStandardForm (s : Bool) (e : Int) :
    IsStandardForm (packWord s (biased (clamp e Config.QMIN Config.QMAX)) 0) s
      (clamp e Config.QMIN Config.QMAX + Config.BIAS).toNat 0 :=
  packWord_isStandardForm s (biased_le _ (clamp_le_QMAX e)) (Nat.zero_le _)

theorem zsign_eq (a b : Bool) (rm : Rm) : zsign a b rm = if a = b then b else decide (rm = .rd) := by
  unfold zsign
  split_ifs with h
  · exact h
  · rfl

/-- Settles O49: an exact value of 0 is an integer 0, which `sumResult` answers by the sign rule. -/
theorem exactZeroResultsOfFma : Obligations.ExactZeroResultsOfFma := by
  intro rm s hA hB hC hzero
  have hdrives := drives_fma rm s
  rw [exactFma_value] at hzero
  rw [fmaRecords_finite _ _ hA hB hC, sumResult_zero _ rm _ _ _ hzero, zsign_eq] at hdrives
  exact ⟨_, hdrives, zero_isStandardForm _ _⟩

/-- Settles O50: a factor or a dividend of value 0 has the class `ZERO`. -/
theorem zeroProductsAndQuotients : Obligations.ZeroProductsAndQuotients := by
  intro rm s hA hB
  refine ⟨fun hzero => ?_, fun hvA hvB => ?_⟩
  · have hdrives := drives_mul rm s
    rw [mulRecords_finite _ _ hA hB, if_pos ((factor_zero_iff s hA hB).mpr hzero)] at hdrives
    exact ⟨_, hdrives, zero_isStandardForm _ _⟩
  · have hdrives := drives_div rm s
    rw [divRecords_finite _ hA hB _ (mt (operandB_zero_iff s hB).mp hvB),
      if_pos ((operandA_zero_iff s hA).mpr hvA)] at hdrives
    exact ⟨_, hdrives, zero_isStandardForm _ _⟩

end Sys2Proof.Machine
end

section
/-!
PROOFS. The family of 44_add.md, the operation: its infinite operands, its exactly zero sums, its symmetry, the
flag sets of all operations, and a zero operand.
-/
namespace Sys2Proof.Machine

/-! ### Infinite and exchanged operands (R240, R252, R351) -/

theorem exactSum_comm (x y : Record) : exactSum x y = exactSum y x := by
  simp only [exactSum, min_comm (quantumExp y), add_comm]

theorem zsign_comm (a b : Bool) (rm : Rm) : zsign a b rm = zsign b a rm := by
  unfold zsign
  by_cases h : a = b
  · rw [h]
  · rw [if_neg h, if_neg (Ne.symm h)]

/-- Of two operands with at most one NaN either order finds the same one (R358). -/
theorem nanResult_comm {x y : Record} (h : ¬ (isNaN x = true ∧ isNaN y = true)) :
    nanResult [x, y] = nanResult [y, x] := by
  have hflags : nanFlags [x, y] = nanFlags [y, x] := by simp [nanFlags, or_comm]
  have hfind : [x, y].find? isNaN = [y, x].find? isNaN := by
    cases hx : isNaN x <;> cases hy : isNaN y <;> simp_all
  simp only [nanResult, hfind, hflags]

theorem isNaN_eq_false_of_inf {x : Record} (hx : x.cls = .inf) : isNaN x = false := by simp [isNaN, hx]

section
variable (policy : Tininess) (rm : Rm) {x y : Record}

theorem addRecords_infinities (hx : x.cls = .inf) (hy : y.cls = .inf) :
    addRecords policy rm x y = if x.s ≠ y.s then (dnan, flagIE) else (infWord x.s, noFlags) := by
  simp [addRecords, isNaN_eq_false_of_inf, hx, hy]

theorem addRecords_infinity_finite (hx : x.cls = .inf) (hy : isFinite y = true) :
    addRecords policy rm x y = (infWord x.s, noFlags) := by
  obtain ⟨hynan, hyinf⟩ := not_special_of_isFinite y hy
  simp [addRecords, isNaN_eq_false_of_inf, hx, hynan, hyinf]

theorem addRecords_comm (h : ¬ (isNaN x = true ∧ isNaN y = true)) :
    addRecords policy rm x y = addRecords policy rm y x := by
  simp only [addRecords, nanResult_comm h, exactSum_comm x, min_comm (quantumExp x), Bool.or_comm (isNaN x),
    sumResult, zsign_comm x.s]
  by_cases hx : x.cls = .inf <;> by_cases hy : y.cls = .inf
  · by_cases hs : x.s = y.s
    · simp [hx, hy, hs]
    · simp [hx, hy, hs, Ne.symm hs]
  all_goals simp [hx, hy]

theorem addRecords_finite_infinity (hx : isFinite x = true) (hy : y.cls = .inf) :
    addRecords policy rm x y = (infWord y.s, noFlags) := by
  obtain ⟨hxnan, -⟩ := not_special_of_isFinite x hx
  rw [addRecords_comm policy rm (by simp [hxnan]), addRecords_infinity_finite policy rm hy hx]

end

theorem drives_add_of_eq {rm : Rm} {s : State} {w : Word} {F : FlagWord}
    (h : addRecords s.args.tininess rm (operandA s) (operandB s) = (w, F)) : Drives (.add rm) s w F := by
  have hdrives := drives_add rm s
  rwa [h] at hdrives

/-- Settles O57: at most one operand is a NaN, and in every other case the rule treats both alike. -/
theorem addIsSymmetric : Obligations.AddIsSymmetric := fun rm s h =>
  ⟨_, _, drives_add rm s, drives_add_of_eq (addRecords_comm s.args.tininess rm h).symm⟩

/-- Settles O52: the infinite cases of the rule, the last as the one before it with the operands exchanged. -/
theorem addOfInfinities : Obligations.AddOfInfinities := by
  intro rm s A B
  refine ⟨fun hA hB hs => ?_, fun hA hB hs => ?_, fun hA hB => ?_, fun hA hB => ?_⟩
  · rw [← dnan_eq]
    exact drives_add_of_eq ((addRecords_infinities _ rm hA hB).trans (if_pos hs))
  · rw [← infWord_eq]
    exact drives_add_of_eq ((addRecords_infinities _ rm hA hB).trans (if_neg (not_not.mpr hs)))
  · rw [← infWord_eq]
    exact drives_add_of_eq (addRecords_infinity_finite _ rm hA hB)
  · rw [← infWord_eq]
    exact drives_add_of_eq (addRecords_finite_infinity _ rm hA hB)

/-! ### Exactly zero sums (R217, R251) -/

theorem biased_quantumExp (r : Record) : biased (quantumExp r) = r.E.toNat := by
  simp [biased, quantumExp]

theorem QMIN_le_quantumExp (r : Record) : Config.QMIN ≤ quantumExp r := by
  simp only [quantumExp, Config.QMIN, Config.BIAS]
  omega

/-- The smaller exponent of two decoded operands is that of the smaller exponent field. -/
theorem biased_min_quantumExp (x y : Record) :
    biased (min (quantumExp x) (quantumExp y)) = min x.E.toNat y.E.toNat := by
  rw [← biased_quantumExp x, ← biased_quantumExp y]
  exact Monotone.map_min (fun a b h => Int.toNat_le_toNat (add_le_add_left h _))

/-- Settles O48: an exact sum of 0 is an integer 0, which `sumResult` answers by the sign rule. -/
theorem exactZeroSumsOfAdd : Obligations.ExactZeroSumsOfAdd := by
  intro rm s hA hB hzero
  have hE : min (operandA s).E.toNat (operandB s).E.toNat ≤ Config.EBMAX :=
    min_le_of_left_le (wf_exponent_le _ _ (unpack_wf _ _))
  rw [exactSum_value] at hzero
  have hresult := addRecords_finite s.args.tininess rm hA hB
  rw [sumResult_zero _ rm _ _ _ hzero, biased_min_quantumExp] at hresult
  exact ⟨_, drives_add_of_eq hresult, packWord_isStandardForm _ hE (Nat.zero_le _)⟩

/-! ### The flag sets (R214, R249, R353, R360) -/

theorem pow_mul_le_atExp {v : Magnitude} (hn : v.num ≠ 0) (hd : v.den ≠ 0) {q : Int} {k : Nat}
    (h : q + k ≤ floorLog10 v) : 10 ^ k * (atExp v q).2 ≤ (atExp v q).1 := by
  have hpos : (0 : ℚ) < (atExp v q).2 := by exact_mod_cast Nat.pos_of_ne_zero (atExp_den_ne_zero v q hd)
  have hle : (10 : ℚ) ^ (q + k) ≤ magnitudeValue v :=
    (zpow_le_zpow_right₀ (by norm_num) h).trans (floorLog10_spec v hn hd).1
  have hdiv : (10 : ℚ) ^ k ≤ magnitudeValue v / (10 : ℚ) ^ q := by
    rwa [le_div_iff₀ (by positivity), mul_comm, ← zpow_natCast, ← zpow_add₀ (by norm_num)]
  rw [← atExp_value v q hd, le_div_iff₀ hpos] at hdiv
  exact_mod_cast hdiv

/-- A value of at least `10^EMIN` is not tiny under either policy: 34 digits do not round below `10^33` (R214). -/
theorem tiny_eq_false (policy : Tininess) (s : Bool) {v : Magnitude} (rm : Rm) (hn : v.num ≠ 0) (hd : v.den ≠ 0)
    (h : Config.EMIN ≤ floorLog10 v) : tiny policy s v rm = false := by
  cases policy with
  | before => exact decide_eq_false (not_lt.mpr h)
  | after =>
    have hround := le_roundInt s rm _ _ _ (atExp_den_ne_zero v (floorLog10 v - 33) hd)
      (pow_mul_le_atExp hn hd (k := 33) (by omega))
    rw [← Nat.cast_le (α := ℚ), Nat.cast_pow, Nat.cast_ofNat, ← zpow_natCast] at hround
    simp only [tiny]
    rw [Bool.eq_false_iff, Ne, scaledLt_iff, roundAt_value, Nat.cast_one, one_mul, not_lt]
    calc (10 : ℚ) ^ Config.EMIN ≤ (10 : ℚ) ^ floorLog10 v := zpow_le_zpow_right₀ (by norm_num) h
      _ = (10 : ℚ) ^ ((33 : Nat) : Int) * (10 : ℚ) ^ (floorLog10 v - 33) := by
          rw [← zpow_add₀ (by norm_num)]
          congr 1
          omega
      _ ≤ _ := mul_le_mul_of_nonneg_right hround (by positivity)

/-- An integer at an exponent of the format does not underflow: where digits are discarded, the last kept exponent
is above `QMIN`, so the value is not tiny (R249). -/
theorem roundToFormat_integer_not_underflow (policy : Tininess) (s : Bool) {N : Nat} {e : Int} (pref : Int)
    (rm : Rm) (hN : N ≠ 0) (he : Config.QMIN ≤ e) :
    (roundToFormat policy s ⟨N, 1, e⟩ pref rm).2 ≠ 0x30#6 := by
  rcases le_or_gt (lastKept ⟨N, 1, e⟩) e with h | h
  · rw [roundToFormat_integer policy s pref rm hN h]
    split_ifs
    · exact (by decide : overflowFlags ≠ 0x30#6)
    · exact (by decide : noFlags ≠ 0x30#6)
  · have htiny := tiny_eq_false policy s (v := ⟨N, 1, e⟩) rm hN one_ne_zero (by
      simp only [lastKept, Config.P, Config.QMIN, Config.EMIN] at *
      omega)
    simp only [roundToFormat, htiny]
    split_ifs
    · exact (by decide : overflowFlags ≠ 0x30#6)
    · exact (by decide : finiteFlags true false ≠ 0x30#6)
    · exact (by decide : noFlags ≠ 0x30#6)

theorem nanResult_flags (order : List Record) : (nanResult order).2 = nanFlags order := by
  unfold nanResult
  split <;> rfl

/-- Every operand is an integer at an exponent of the format, and so is the sum (R249). -/
theorem addRecords_not_underflow (policy : Tininess) (rm : Rm) (x y : Record) :
    (addRecords policy rm x y).2 ≠ 0x30#6 := by
  have hIE : flagIE ≠ 0x30#6 := by decide
  have hnone : noFlags ≠ 0x30#6 := by decide
  have hmin := le_min (QMIN_le_quantumExp x) (QMIN_le_quantumExp y)
  simp only [addRecords, sumResult]
  split_ifs with _ _ _ _ _ hm
  · rw [nanResult_flags, nanFlags]
    split_ifs
    · exact hIE
    · exact hnone
  · exact hIE
  · exact hnone
  · exact hnone
  · exact hnone
  · exact hnone
  · exact roundToFormat_integer_not_underflow policy _ _ rm (Int.natAbs_ne_zero.mpr hm) hmin

/-- Settles O59: the sets each operation's rule can answer, for `ADD` without the underflow of the shared ones. -/
theorem possibleFlagSets : Obligations.PossibleFlagSets := by
  have hadd : ∀ F ∈ arithmeticFlagSets, F ≠ 0x30#6 → F ∈ [0x00#6, 0x01#6, 0x20#6, 0x28#6] := by decide
  have harith : ∀ F ∈ arithmeticFlagSets, F ∈ [0x00#6, 0x01#6, 0x20#6, 0x30#6, 0x28#6] := by decide
  have hdiv : ∀ F ∈ operationFlagSets, F ∈ [0x00#6, 0x01#6, 0x04#6, 0x20#6, 0x30#6, 0x28#6] := by decide
  exact fun rm s =>
    ⟨⟨_, _, drives_add rm s, hadd _ (addRecords_flags_mem ..) (addRecords_not_underflow _ rm _ _)⟩,
      ⟨_, _, drives_mul rm s, harith _ (mulRecords_flags_mem ..)⟩,
      ⟨_, _, drives_fma rm s, harith _ (fmaRecords_flags_mem ..)⟩,
      ⟨_, _, drives_div rm s, hdiv _ (divRecords_flags_mem ..)⟩⟩

/-! ### A zero operand (R215, R248) -/

theorem RoundsTo_le {s : Bool} {rm : Rm} {N : ℚ} {C M : Nat} (h : RoundsTo s rm N C) (hN : N ≤ M) : C ≤ M := by
  have hlt : (C : ℚ) < N + 1 := by
    cases rm with
    | rn | ra => linarith [(abs_le.mp h.1).1]
    | rz => linarith [h.1]
    | ru | rd => cases s <;> linarith [h.1, h.2]
  have hlt : (C : ℚ) < M + 1 := hlt.trans_le (add_le_add_left hN 1)
  exact Nat.lt_succ_iff.mp (by exact_mod_cast hlt)

/-- A value the format represents is rounded to itself. -/
theorem CorrectlyRounded.exact_of_representable {policy : Tininess} {rm : Rm} {pref : Int} {a : ℚ} {w : Word}
    {F : FlagWord} {C : Nat} {q : Int} (h : CorrectlyRounded policy rm pref a w F)
    (hrep : RepresentableAs |a| C q) :
    ExactResult (decide (a < 0)) pref |a| w F := by
  rcases h with ⟨⟨D, hD, hover⟩, -⟩ | hexact | ⟨hnot, -⟩
  · obtain ⟨hC, -, hmax, hvalue⟩ := hrep
    refine absurd (RoundsTo_le (M := Config.CMAX) hD ?_) (not_le.mpr hover)
    rw [hvalue, div_le_iff₀ (by positivity)]
    exact mul_le_mul (by exact_mod_cast hC) (zpow_le_zpow_right₀ (by norm_num) hmax) (by positivity) (by positivity)
  · exact hexact
  · exact absurd hrep (hnot C q)

theorem valueOf_unpack_packWord (limit : Nat) {a : ℚ} {C : Nat} {q : Int} (hrep : RepresentableAs |a| C q) :
    valueOf (unpack limit (packWord (decide (a < 0)) (biased q) C)) = a := by
  obtain ⟨hC, hmin, hmax, hvalue⟩ := hrep
  have hE := biased_le q hmax
  have hEN : (BitVec.ofNat 14 (biased q)).toNat = biased q := Nat.mod_eq_of_lt (lt_of_le_of_lt hE (by decide))
  have hCN : (BitVec.ofNat 113 C).toNat = C := Nat.mod_eq_of_lt (lt_of_le_of_lt hC (by decide))
  rw [unpack_packWord limit _ _ C hE hC]
  simp only [valueOf, signedCoef, quantumExp, hEN, hCN, biased_eq q hmin, add_sub_cancel_right, decide_eq_true_eq]
  split_ifs with ha
  · rw [Int.cast_neg, neg_mul, Int.cast_natCast, ← hvalue, abs_of_neg ha, neg_neg]
  · rw [Int.cast_natCast, ← hvalue, abs_of_nonneg (not_lt.mp ha)]

/-- A decoded finite operand is a value of the format. -/
theorem operandA_representable (s : State) :
    RepresentableAs |valueOf (operandA s)| (operandA s).Cf.toNat (quantumExp (operandA s)) :=
  ⟨wf_coefficient_le (unpack_wf _ _), QMIN_le_quantumExp _, wf_quantumExp_le (unpack_wf _ _), abs_valueOf _⟩

/-- Settles O60: the exact sum is the operand's value, which the format represents; with the operand's exponent
preferred, the closest exponent is that one. -/
theorem addingAZeroKeepsTheValue : Obligations.AddingAZeroKeepsTheValue := by
  intro rm s hA hB
  have hfinA : isFinite (operandA s) = true := (isFinite_iff _).mpr (.inr hA)
  have hfinB : isFinite (operandB s) = true := (isFinite_iff _).mpr (.inl hB)
  have hB0 : valueOf (operandB s) = 0 := (operandB_zero_iff s hfinB).mp hB
  have hA0 : valueOf (operandA s) ≠ 0 := mt (operandA_zero_iff s hfinA).mpr (by simp [hA])
  obtain ⟨w, F, hdrives, hround⟩ := addIsCorrectlyRounded rm s hfinA hfinB (by rwa [hB0, add_zero])
  rw [hB0, add_zero] at hround
  obtain ⟨rfl, C, q, ⟨hC, hmin, hmax, hvalue⟩, rfl, hclosest⟩ :=
    hround.exact_of_representable (operandA_representable s)
  refine ⟨_, hdrives, valueOf_unpack_packWord _ ⟨hC, hmin, hmax, hvalue⟩, fun hE => ?_⟩
  have hpref : min (quantumExp (operandA s)) (quantumExp (operandB s)) = quantumExp (operandA s) :=
    min_eq_left (sub_le_sub_right (Int.ofNat_le.mpr hE) _)
  have hq := hclosest _ _ (operandA_representable s)
  rw [hpref, sub_self, abs_zero, abs_nonpos_iff, sub_eq_zero] at hq
  rw [abs_valueOf, hq, mul_left_inj' (by positivity), Nat.cast_inj] at hvalue
  rw [← sign_eq_decide_valueOf_neg hA0, hq, biased_quantumExp, ← hvalue]
  exact packWord_isStandardForm _ (wf_exponent_le _ _ (unpack_wf _ _)) (wf_coefficient_le (unpack_wf _ _))

end Sys2Proof.Machine
end

section
/-!
PROOFS. The family of 44_add.md, the datapath: `ALIGN_ADD`, the absorb region and the exact region.
-/
namespace Sys2Proof.Machine

/-! ### The alignment unit (R242, R243) -/

theorem alignAdd_ok {x y : Record} (hx : IsFiniteNonzero x) (hy : IsFiniteNonzero y) :
    alignAdd x y = .ok (if leadPos y ≤ leadPos x then alignOrdered x y else alignOrdered y x) := by
  rw [alignAdd, (finiteNonzero_iff x).mpr hx, (finiteNonzero_iff y).mpr hy]
  rfl

section
variable (L S : Record)

theorem alignOrdered_operands : (alignOrdered L S).L = L ∧ (alignOrdered L S).S = S ∧
    (alignOrdered L S).d = leadPos L - leadPos S ∧
    (alignOrdered L S).pow10 = (decide (L.s ≠ S.s) && decide (L.Cf.toNat = 10 ^ (coefDigits L - 1))) := by
  simp only [alignOrdered]
  split_ifs <;> exact ⟨rfl, rfl, rfl, rfl⟩

theorem alignOrdered_absorb (h : (Config.P : Int) < leadPos L - leadPos S) :
    (alignOrdered L S).region = .absorb ∧ (alignOrdered L S).kL = Config.P - coefDigits L ∧
      (alignOrdered L S).kS = 0 ∧ (alignOrdered L S).eA = quantumExp L - (Config.P - coefDigits L) := by
  simp only [alignOrdered, if_pos h, true_and]

theorem alignOrdered_exact (h : ¬ (Config.P : Int) < leadPos L - leadPos S) :
    (alignOrdered L S).region = .exact ∧ (alignOrdered L S).eA = min (quantumExp L) (quantumExp S) ∧
      (alignOrdered L S).kL = quantumExp L - min (quantumExp L) (quantumExp S) ∧
      (alignOrdered L S).kS = quantumExp S - min (quantumExp L) (quantumExp S) := by
  simp only [alignOrdered, if_neg h, true_and]

end

/-- What the unit says of the operands it has put in order (R243). -/
theorem alignOrdered_spec (L S : Record) :
    let a := alignOrdered L S
    (a.pow10 = true ↔ a.L.s ≠ a.S.s ∧ a.L.Cf.toNat = 10 ^ (digits a.L.Cf.toNat - 1)) ∧
      (34 < a.d → a.region = .absorb ∧ a.kL = 34 - digits a.L.Cf.toNat ∧ a.kS = 0 ∧
        a.eA = quantumExp a.L - a.kL) ∧
      (a.d ≤ 34 → a.region = .exact ∧ a.eA = min (quantumExp a.L) (quantumExp a.S) ∧
        a.kL = quantumExp a.L - a.eA ∧ a.kS = quantumExp a.S - a.eA) := by
  intro a
  obtain ⟨hL, hS, hd, hpow⟩ := alignOrdered_operands L S
  simp only [a, hL, hS, hd]
  refine ⟨?_, fun h => ?_, fun h => ?_⟩
  · rw [hpow, Bool.and_eq_true, decide_eq_true_eq, decide_eq_true_eq, coefDigits]
  · obtain ⟨hregion, hkL, hkS, heA⟩ := alignOrdered_absorb L S h
    exact ⟨hregion, hkL, hkS, by rw [heA, hkL]⟩
  · obtain ⟨hregion, heA, hkL, hkS⟩ := alignOrdered_exact L S (not_lt.mpr h)
    exact ⟨hregion, heA, by rw [hkL, heA], by rw [hkS, heA]⟩

/-- Settles O41: the unit aligns the operands in the order of their leading digits, so `d` is not negative. -/
theorem alignAddOrdersAndScales : Obligations.AlignAddOrdersAndScales := by
  intro s hx hy
  have halign := alignAdd_ok hx hy
  rcases le_or_gt (leadPos s.unitPorts.y) (leadPos s.unitPorts.x) with h | h
  · rw [if_pos h] at halign
    obtain ⟨hL, hS, hd, -⟩ := alignOrdered_operands s.unitPorts.x s.unitPorts.y
    exact ⟨_, unitDrives_of_ok rfl rfl halign, fun _ => ⟨hL, hS⟩, fun hlt => absurd h (not_le.mpr hlt),
      hd.trans (abs_of_nonneg (sub_nonneg.mpr h)).symm, alignOrdered_spec _ _⟩
  · rw [if_neg (not_le.mpr h)] at halign
    obtain ⟨hL, hS, hd, -⟩ := alignOrdered_operands s.unitPorts.y s.unitPorts.x
    rw [← abs_of_nonneg (sub_nonneg.mpr h.le), abs_sub_comm] at hd
    exact ⟨_, unitDrives_of_ok rfl rfl halign, fun hle => absurd h (not_lt.mpr hle), fun _ => ⟨hL, hS⟩, hd,
      alignOrdered_spec _ _⟩

/-! ### The engine's view of an absorbed sum (R193, R244) -/

theorem nearestEven_mul_add (Q : Nat) {R x : Nat} (hR : R < 10 ^ x) :
    nearestEven (Q * 10 ^ x + R) x = classify Q R (5 * 10 ^ (x - 1)) := by
  have hpos : 0 < 10 ^ x := by positivity
  rw [nearestEven, Nat.add_div_of_dvd_right (Nat.dvd_mul_left _ _), Nat.mul_div_cancel _ hpos,
    Nat.div_eq_of_lt hR, Nat.add_zero, Nat.mul_add_mod_of_lt hR]

theorem mul_sub_eq {C T u : Nat} (hC : C ≠ 0) (hT : T ≤ u) : C * u - T = (C - 1) * u + (u - T) := by
  obtain ⟨D, rfl⟩ := Nat.exists_eq_succ_of_ne_zero hC
  rw [Nat.succ_mul, Nat.succ_sub_one, Nat.add_sub_assoc hT]

section
variable {C T x : Nat} (hx : 1 ≤ x) (hT : T ≠ 0)
include hx hT

/-- `C` units plus less than half a unit: rounded down to `C` (R193). -/
theorem nearestEven_above (hhalf : 2 * T < 10 ^ x) : nearestEven (C * 10 ^ x + T) x = (C, indLtMid) := by
  have htwice := twice_halfUlp x hx
  rw [nearestEven_mul_add C (by omega), classify, if_neg hT, if_pos (by omega)]

variable (hC : C ≠ 0)
include hC

/-- `C` units minus less than half a unit: rounded up to `C` (R193). -/
theorem nearestEven_below (hhalf : 2 * T < 10 ^ x) : nearestEven (C * 10 ^ x - T) x = (C, indGtMid) := by
  have htwice := twice_halfUlp x hx
  rw [mul_sub_eq hC (by omega), nearestEven_mul_add _ (by omega), classify, if_neg (by omega),
    if_neg (by omega), if_pos (by omega), Nat.sub_one_add_one hC]

/-- `C` units minus half a unit, `C` even: the quotient is odd, and the tie is rounded up to `C` (R193). -/
theorem nearestEven_tie (heven : C % 2 = 0) (hhalf : 2 * T = 10 ^ x) :
    nearestEven (C * 10 ^ x - T) x = (C, indMidUp) := by
  have htwice := twice_halfUlp x hx
  rw [mul_sub_eq hC (by omega), nearestEven_mul_add _ (by omega), classify, if_neg (by omega),
    if_neg (by omega), if_neg (by omega), if_neg (by omega), Nat.sub_one_add_one hC]

end

/-- `C` units minus more than half a unit: rounded down to `C - 1` (R193). -/
theorem nearestEven_below_half {C T x : Nat} (hx : 1 ≤ x) (hC : C ≠ 0) (hhalf : 10 ^ x < 2 * T)
    (hlt : T < 10 ^ x) : nearestEven (C * 10 ^ x - T) x = (C - 1, indLtMid) := by
  have htwice := twice_halfUlp x hx
  rw [mul_sub_eq hC hlt.le, nearestEven_mul_add _ (by omega), classify, if_neg (by omega),
    if_pos (by omega)]

/-- A quotient the engine rounded up is not incremented (R203). -/
theorem rmIncrements_of_nearestEven_up (s : Bool) (rm : Rm) {M T x : Nat} {ind : Indicators}
    (h : nearestEven M x = (T, ind)) (hup : T ≠ M / 10 ^ x) : rmIncrements s rm ind = false := by
  have hfalse := classify_up s rm (M / 10 ^ x) (M % 10 ^ x) (5 * 10 ^ (x - 1))
  rw [← nearestEven, h] at hfalse
  exact hfalse hup

/-! ### The absorb region (R244) -/

theorem lastKept_of_digits {M x : Nat} {e : Int} (hlo : 10 ^ (Config.P - 1) * 10 ^ x ≤ M)
    (hhi : M < 10 ^ Config.P * 10 ^ x) (hmin : Config.QMIN ≤ e + x) : lastKept ⟨M, 1, e⟩ = e + x := by
  have hM : M ≠ 0 := (lt_of_lt_of_le (by positivity) hlo).ne'
  have hdigits : digits M = Config.P + x := by
    refine digits_unique M _ (by simp only [Config.P]; omega) ?_ ?_
    · rwa [Nat.sub_add_comm (by decide), pow_add]
    · rwa [pow_add]
  rw [lastKept_integer e hM, hdigits]
  simp only [Config.P, Config.QMIN] at *
  omega

/-- The magnitude of an absorbed sum in units of the smaller operand, `C` units of `10^k` with `T` on one side. -/
def absorbedSum (C T k : Nat) (below : Bool) : Nat := if below then C * 10 ^ k - T else C * 10 ^ k + T

section
variable (policy : Tininess) (s : Bool) (rm : Rm) {e : Int} (pref : Int)

/-- An inexact quotient of the engine, given to correction and assembler as it stands or, where it is `10^P`, as
a decade carry, is the value rounded once. -/
theorem assemble_nearestEven {M T x : Nat} {ind : Indicators} {Cstar : Nat} {carried : Bool} (hx : 1 ≤ x)
    (hM : M ≠ 0) (hkept : lastKept ⟨M, 1, e⟩ = e + x) (hT : nearestEven M x = (T, ind))
    (hinexact : anyIndicator ind = true)
    (hstate : (carried = true ∧ T = 10 ^ Config.P ∧ Cstar = 10 ^ (Config.P - 1)) ∨
      (carried = false ∧ T ≠ 10 ^ Config.P ∧ Cstar = T)) :
    let r := rmcorr s rm Cstar (e + x + if carried then 1 else 0) ind Config.P carried
    assemble s r.1.toNat r.2 rm true (tiny policy s ⟨M, 1, e⟩ rm) =
      .ok (roundToFormat policy s ⟨M, 1, e⟩ pref rm) := by
  intro r
  have hquot : M / 10 ^ x < 10 ^ Config.P := by
    have hlt := atExp_lastKept_lt ⟨M, 1, e⟩ hM one_ne_zero
    rw [hkept, atExp_integer_add] at hlt
    exact (Nat.div_lt_iff_lt_mul (by positivity)).mpr hlt
  have hle : T ≤ 10 ^ Config.P := by
    have hnext := (nearestEven_quotient M x).2
    rw [hT] at hnext
    exact hnext.trans hquot
  have hZ := roundInt_eq_nearestEven_add s rm M hx
  rw [hT] at hZ
  have hr : r = if roundInt s rm M (10 ^ x) = 10 ^ Config.P then (10 ^ (Config.P - 1), e + x + 1)
      else ((roundInt s rm M (10 ^ x) : Int), e + x) := by
    refine rmcorr_eq_carry s rm (e + x) hle hZ (hstate.imp_left fun ⟨hc, hten, hCstar⟩ => ?_)
    exact ⟨hc, hten, hCstar, rfl, rmIncrements_of_nearestEven_up s rm hT (hten.trans_ne hquot.ne')⟩
  have hround := assemble_roundAt (v := ⟨M, 1, e⟩) policy s pref rm hM one_ne_zero (by
    rw [hkept, inexactAt_integer_add, decide_eq_true_eq, Ne, ← nearestEven_exact_iff, hT, hinexact]
    exact Bool.noConfusion)
  rw [hkept, roundAt_integer_add] at hround
  rw [hr, ← hround]
  split_ifs <;> rfl

/-! The larger operand's `C` is of `P` digits at the exponent `e + (j + 1)`, and the smaller operand's `T`, at the
exponent `e`, is below a tenth of its unit. -/

variable {C T j : Nat} (hlo : 10 ^ (Config.P - 1) ≤ C) (hhi : C < 10 ^ Config.P) (hT : T ≠ 0) (hTlt : T < 10 ^ j)
  (hmin : Config.QMIN ≤ e + j)
include hlo hhi hT hTlt hmin

theorem assemble_absorb_above :
    let r := rmcorr s rm C (e + (j + 1 : Nat)) indLtMid Config.P false
    let M := C * 10 ^ (j + 1) + T
    assemble s r.1.toNat r.2 rm true (tiny policy s ⟨M, 1, e⟩ rm) =
      .ok (roundToFormat policy s ⟨M, 1, e⟩ pref rm) := by
  have hhalf : 2 * T < 10 ^ (j + 1) := by rw [pow_succ]; omega
  have hkept : lastKept ⟨C * 10 ^ (j + 1) + T, 1, e⟩ = e + (j + 1 : Nat) := by
    refine lastKept_of_digits (Nat.le_add_right_of_le (Nat.mul_le_mul_right _ hlo)) ?_ (by push_cast; omega)
    exact lt_of_lt_of_le (by rw [Nat.succ_mul]; omega) (Nat.mul_le_mul_right _ hhi)
  have h := assemble_nearestEven policy s rm pref (carried := false) (by omega) (by omega) hkept
    (nearestEven_above (by omega) hT hhalf) rfl (.inr ⟨rfl, hhi.ne, rfl⟩)
  simpa using h

theorem assemble_absorb_below (hne : C ≠ 10 ^ (Config.P - 1)) :
    let r := rmcorr s rm C (e + (j + 1 : Nat)) indGtMid Config.P false
    let M := C * 10 ^ (j + 1) - T
    assemble s r.1.toNat r.2 rm true (tiny policy s ⟨M, 1, e⟩ rm) =
      .ok (roundToFormat policy s ⟨M, 1, e⟩ pref rm) := by
  have hhalf : 2 * T < 10 ^ (j + 1) := by rw [pow_succ]; omega
  have hC : C ≠ 0 := (lt_of_lt_of_le (by decide) hlo).ne'
  have hsplit := mul_sub_eq hC (show T ≤ 10 ^ (j + 1) by omega)
  have hkept : lastKept ⟨C * 10 ^ (j + 1) - T, 1, e⟩ = e + (j + 1 : Nat) := by
    refine lastKept_of_digits ?_ ((Nat.sub_le _ _).trans_lt (Nat.mul_lt_mul_of_pos_right hhi (by positivity)))
      (by push_cast; omega)
    rw [hsplit]
    exact Nat.le_add_right_of_le (Nat.mul_le_mul_right _ (Nat.le_sub_one_of_lt (lt_of_le_of_ne hlo hne.symm)))
  have h := assemble_nearestEven policy s rm pref (carried := false) (by omega) (by omega) hkept
    (nearestEven_below (by omega) hT hC hhalf) rfl (.inr ⟨rfl, hhi.ne, rfl⟩)
  simpa using h

omit hlo hhi in
/-- Below a power of ten the unit is a tenth, and the engine compares with half of that (R244). -/
theorem assemble_absorb_power :
    let i := absorbIndicator (10 ^ (Config.P - 1)) (e + (j + 1 : Nat)) true true (2 * T) (10 ^ j)
    let r := rmcorr s rm i.1 i.2.1 i.2.2.1 Config.P i.2.2.2
    let M := 10 ^ (Config.P - 1) * 10 ^ (j + 1) - T
    assemble s r.1.toNat r.2 rm true (tiny policy s ⟨M, 1, e⟩ rm) =
      .ok (roundToFormat policy s ⟨M, 1, e⟩ pref rm) := by
  have hj : 1 ≤ j := by
    by_contra hj
    rw [show j = 0 by omega] at hTlt
    omega
  have hunits : 10 ^ (Config.P - 1) * 10 ^ (j + 1) = 10 ^ Config.P * 10 ^ j := by
    rw [pow_succ' 10 j, ← mul_assoc, ← pow_succ, Nat.sub_add_cancel (by decide)]
  have hten : 10 ^ Config.P ≠ 0 := by decide
  have hpos : 0 < 10 ^ j := by positivity
  have hsplit := mul_sub_eq hten hTlt.le
  have hM : 10 ^ Config.P * 10 ^ j - T ≠ 0 := by
    rw [hsplit]
    omega
  have hkept : lastKept ⟨10 ^ Config.P * 10 ^ j - T, 1, e⟩ = e + j := by
    refine lastKept_of_digits ?_ (Nat.sub_lt (by positivity) (Nat.pos_of_ne_zero hT)) hmin
    rw [hsplit]
    exact Nat.le_add_right_of_le (Nat.mul_le_mul_right _ (by decide))
  rw [hunits]
  rcases lt_trichotomy (2 * T) (10 ^ j) with hhalf | hhalf | hhalf
  · have h := assemble_nearestEven policy s rm pref (carried := true) hj hM hkept
      (nearestEven_below hj hT hten hhalf) rfl (.inl ⟨rfl, rfl, rfl⟩)
    simpa [absorbIndicator, hhalf, add_assoc] using h
  · have h := assemble_nearestEven policy s rm pref (carried := true) hj hM hkept
      (nearestEven_tie hj hT hten (by decide) hhalf) rfl (.inl ⟨rfl, rfl, rfl⟩)
    simpa [absorbIndicator, hhalf, add_assoc] using h
  · have h := assemble_nearestEven policy s rm pref (carried := false) hj hM hkept
      (nearestEven_below_half hj hten hhalf hTlt) rfl (.inr ⟨rfl, by decide, rfl⟩)
    simpa [absorbIndicator, hhalf.not_gt, hhalf.ne', ← add_assoc] using h

/-- In the absorb region indicator, correction and assembler round the exact sum (R244). -/
theorem assemble_absorb (below : Bool) :
    let i := absorbIndicator C (e + (j + 1 : Nat)) below (below && decide (C = 10 ^ (Config.P - 1))) (2 * T)
      (10 ^ j)
    let r := rmcorr s rm i.1 i.2.1 i.2.2.1 Config.P i.2.2.2
    let v : Magnitude := ⟨absorbedSum C T (j + 1) below, 1, e⟩
    assemble s r.1.toNat r.2 rm true (tiny policy s v rm) = .ok (roundToFormat policy s v pref rm) := by
  cases below with
  | false => exact assemble_absorb_above policy s rm pref hlo hhi hT hTlt hmin
  | true =>
    by_cases hC : C = 10 ^ (Config.P - 1)
    · subst hC
      exact assemble_absorb_power policy s rm pref hT hTlt hmin
    · rw [decide_eq_false hC]
      exact assemble_absorb_below policy s rm pref hlo hhi hT hTlt hmin hC

omit hhi hT hmin in
theorem pow_le_absorbedSum (below : Bool) : 10 ^ (Config.P - 1) ≤ absorbedSum C T (j + 1) below := by
  have hone : 1 ≤ 10 ^ j := Nat.one_le_pow _ _ (by decide)
  have hC : 1 ≤ C := le_trans (by decide) hlo
  have hscale : C ≤ C * 10 ^ j := Nat.le_mul_of_pos_right _ hone
  have hunit : 10 ^ j ≤ C * 10 ^ j := Nat.le_mul_of_pos_left _ hC
  have hsucc : C * 10 ^ (j + 1) = 10 * (C * 10 ^ j) := by ring
  unfold absorbedSum
  split_ifs <;> omega

end

/-! ### The datapath on two decoded records (R244, R245) -/

theorem sumResult_signed (policy : Tininess) (rm : Rm) {M : Nat} (hM : M ≠ 0) (s : Bool) (e pref : Int)
    (sa sb : Bool) :
    sumResult policy rm (if s then -(M : Int) else M) e pref sa sb =
      roundToFormat policy s ⟨M, 1, e⟩ pref rm := by
  have hnonneg : ¬ (M : Int) < 0 := by omega
  cases s <;> simp [sumResult, hM, Nat.pos_of_ne_zero hM, hnonneg]

theorem isFinite_of_decoded {r : Record} (h : IsDecodedFinite r) : isFinite r = true :=
  (isFinite_iff r).mpr (.inr h.1)

theorem toNat_ne_zero_of_decoded {r : Record} (h : IsDecodedFinite r) : r.Cf.toNat ≠ 0 := by
  obtain ⟨-, hC, -, -⟩ := h
  exact fun h0 => hC (BitVec.eq_of_toNat_eq h0)

theorem coefDigits_le_of_decoded {r : Record} (h : IsDecodedFinite r) : coefDigits r ≤ Config.P := by
  obtain ⟨-, -, -, hC⟩ := h
  exact (digits_le_iff _ _ (by decide)).mpr (lt_of_le_of_lt hC (by decide))

theorem alignAdd_decoded {x y : Record} (hx : IsDecodedFinite x) (hy : IsDecodedFinite y) :
    alignAdd x y = .ok (if leadPos y ≤ leadPos x then alignOrdered x y else alignOrdered y x) :=
  alignAdd_ok ⟨hx.1, hx.2.1⟩ ⟨hy.1, hy.2.1⟩

theorem quantumExp_le_of_decoded {r : Record} (h : IsDecodedFinite r) : quantumExp r ≤ Config.QMAX := by
  obtain ⟨-, -, hE, -⟩ := h
  simp only [quantumExp, Config.EBMAX, Config.BIAS, Config.QMAX] at *
  omega

theorem signedCoef_mul_pow (r : Record) (k : Nat) :
    signedCoef r * 10 ^ k =
      if r.s then -((r.Cf.toNat * 10 ^ k : Nat) : Int) else ((r.Cf.toNat * 10 ^ k : Nat) : Int) := by
  unfold signedCoef
  split_ifs <;> push_cast <;> ring

theorem exactSum_eq (x y : Record) :
    exactSum x y = signedCoef x * 10 ^ (quantumExp x - min (quantumExp x) (quantumExp y)).toNat +
      signedCoef y * 10 ^ (quantumExp y - min (quantumExp x) (quantumExp y)).toNat := rfl

/-- A sum whose first term is at least as large as the second has the first term's sign. -/
theorem signed_add_of_le {a t : Nat} (h : t ≤ a) (sa st : Bool) :
    ((if sa then -(a : Int) else a) + if st then -(t : Int) else t) =
      if sa then -((if decide (sa ≠ st) then a - t else a + t : Nat) : Int)
      else (if decide (sa ≠ st) then a - t else a + t : Nat) := by
  cases sa <;> cases st <;> simp <;> omega

/-- A coefficient scaled to `P` digits. -/
def scaledCoef (r : Record) : Nat := r.Cf.toNat * 10 ^ (Config.P - coefDigits r)

theorem scaledCoef_bounds {r : Record} (h : IsDecodedFinite r) :
    10 ^ (Config.P - 1) ≤ scaledCoef r ∧ scaledCoef r < 10 ^ Config.P := by
  have hne := toNat_ne_zero_of_decoded h
  have hdigits : digits (scaledCoef r) = Config.P := by
    rw [scaledCoef, digits_mul_pow hne, ← coefDigits, Nat.add_sub_cancel' (coefDigits_le_of_decoded h)]
  have hlo := pow_digits_le (scaledCoef r) (by unfold scaledCoef; positivity)
  have hhi := lt_pow_digits (scaledCoef r)
  rw [hdigits] at hlo hhi
  exact ⟨hlo, hhi⟩

theorem scaledCoef_eq_pow_iff {r : Record} (h : IsDecodedFinite r) :
    scaledCoef r = 10 ^ (Config.P - 1) ↔ r.Cf.toNat = 10 ^ (coefDigits r - 1) := by
  have hle := coefDigits_le_of_decoded h
  have hpos : 1 ≤ coefDigits r := digits_pos _
  have hpow : 10 ^ (Config.P - 1) = 10 ^ (coefDigits r - 1) * 10 ^ (Config.P - coefDigits r) := by
    rw [← pow_add]
    congr 1
    omega
  rw [scaledCoef, hpow, Nat.mul_left_inj (by positivity)]

section
variable (policy : Tininess) (rm : Rm) {L S : Record}

/-- In the absorb region the smaller operand is less than a tenth of a unit of the larger (R244). -/
theorem absorb_gap (h : (Config.P : Int) < leadPos L - leadPos S) :
    ∃ j : Nat, quantumExp L - (Config.P - coefDigits L) = quantumExp S + (j + 1 : Nat) ∧ S.Cf.toNat < 10 ^ j := by
  unfold leadPos at h
  refine ⟨(quantumExp L - (Config.P - coefDigits L) - quantumExp S - 1).toNat, by omega, ?_⟩
  exact (lt_pow_digits _).trans_le (Nat.pow_le_pow_right (by decide) (by rw [← coefDigits]; omega))

variable (hL : IsDecodedFinite L) (hS : IsDecodedFinite S)
include hL

section
variable {j : Nat} (hlt : S.Cf.toNat < 10 ^ j)
include hlt

/-- An absorbed sum has at least `P` digits, so it is not below `10^EMIN` (R244). -/
theorem tiny_absorbedSum :
    tiny policy L.s ⟨absorbedSum (scaledCoef L) S.Cf.toNat (j + 1) (decide (L.s ≠ S.s)), 1, quantumExp S⟩ rm =
      false := by
  have hlo := pow_le_absorbedSum (scaledCoef_bounds hL).1 hlt (decide (L.s ≠ S.s))
  have hne := (lt_of_lt_of_le (by decide : 0 < 10 ^ (Config.P - 1)) hlo).ne'
  have hdigits := digits_mono hlo
  rw [digits_unique (10 ^ (Config.P - 1)) Config.P (by decide) le_rfl (by decide)] at hdigits
  have hmin := QMIN_le_quantumExp S
  refine tiny_eq_false policy L.s rm hne one_ne_zero ?_
  rw [floorLog10_integer _ hne]
  simp only [Config.P, Config.QMIN, Config.EMIN] at *
  omega

variable (hgap : quantumExp L - (Config.P - coefDigits L) = quantumExp S + (j + 1 : Nat))
include hgap

theorem exactSum_absorb :
    exactSum L S =
      if L.s then -(absorbedSum (scaledCoef L) S.Cf.toNat (j + 1) (decide (L.s ≠ S.s)) : Int)
      else absorbedSum (scaledCoef L) S.Cf.toNat (j + 1) (decide (L.s ≠ S.s)) := by
  have hle := coefDigits_le_of_decoded hL
  have hmin : min (quantumExp L) (quantumExp S) = quantumExp S := by omega
  have hexp : (quantumExp L - quantumExp S).toNat = Config.P - coefDigits L + (j + 1) := by omega
  have hscale : L.Cf.toNat * 10 ^ (Config.P - coefDigits L + (j + 1)) = scaledCoef L * 10 ^ (j + 1) := by
    rw [scaledCoef, pow_add, mul_assoc]
  have hsub : S.Cf.toNat ≤ scaledCoef L * 10 ^ (j + 1) := by
    have hC := le_trans (by decide : 1 ≤ 10 ^ (Config.P - 1)) (scaledCoef_bounds hL).1
    have hunit := Nat.le_mul_of_pos_left (10 ^ (j + 1)) hC
    rw [pow_succ] at hunit ⊢
    omega
  rw [exactSum_eq, hmin, hexp, sub_self, Int.toNat_zero, signedCoef_mul_pow, signedCoef_mul_pow, hscale, pow_zero,
    mul_one]
  exact signed_add_of_le hsub L.s S.s

include hS

theorem addRecords_absorb :
    addRecords policy rm L S =
      roundToFormat policy L.s
        ⟨absorbedSum (scaledCoef L) S.Cf.toNat (j + 1) (decide (L.s ≠ S.s)), 1, quantumExp S⟩
        (min (quantumExp L) (quantumExp S)) rm := by
  have hle := coefDigits_le_of_decoded hL
  have hmin : min (quantumExp L) (quantumExp S) = quantumExp S := by omega
  have hlo := pow_le_absorbedSum (scaledCoef_bounds hL).1 hlt (decide (L.s ≠ S.s))
  rw [addRecords_finite policy rm (isFinite_of_decoded hL) (isFinite_of_decoded hS),
    exactSum_absorb hL hlt hgap, sumResult_signed policy rm (lt_of_lt_of_le (by decide) hlo).ne', hmin]

end

include hS

theorem addDatapath_absorb (habsorb : (Config.P : Int) < leadPos L - leadPos S) :
    addDatapath policy rm L S = .ok (addRecords policy rm L S) := by
  obtain ⟨j, hgap, hlt⟩ := absorb_gap habsorb
  obtain ⟨hlo, hhi⟩ := scaledCoef_bounds hL
  obtain ⟨hregion, hkL, -, heA⟩ := alignOrdered_absorb L S habsorb
  obtain ⟨hopL, hopS, -, hpow⟩ := alignOrdered_operands L S
  have halign := alignAdd_decoded hL hS
  rw [if_pos (by simp only [Config.P] at habsorb; omega)] at halign
  have hscale : L.Cf.toNat * 10 ^ ((Config.P : Int) - coefDigits L).toNat = scaledCoef L := by
    rw [← Nat.cast_sub (coefDigits_le_of_decoded hL), Int.toNat_natCast, scaledCoef]
  have hunit : (quantumExp S + (j + 1 : Nat) - 1 - quantumExp S).toNat = j := by omega
  have hmin := QMIN_le_quantumExp S
  have hround := assemble_absorb policy L.s rm (min (quantumExp L) (quantumExp S)) hlo hhi
    (toNat_ne_zero_of_decoded hS) hlt (show Config.QMIN ≤ quantumExp S + j by omega) (decide (L.s ≠ S.s))
  simp only [tiny_absorbedSum policy rm hL hlt, ← addRecords_absorb policy rm hL hS hlt hgap,
    decide_eq_decide.mpr (scaledCoef_eq_pow_iff hL)] at hround
  simp only [addDatapath, halign, hregion, hopL, hopS, hpow, hkL, heA, hgap, hscale, hunit]
  exact hround

/-- The exact region: the aligned integers' sum is the exact sum, and its one rounding is that of R219. -/
theorem addDatapath_exact (hle : leadPos S ≤ leadPos L) (hexact : ¬ (Config.P : Int) < leadPos L - leadPos S) :
    addDatapath policy rm L S = .ok (addRecords policy rm L S) := by
  obtain ⟨hregion, heA, hkL, hkS⟩ := alignOrdered_exact L S hexact
  obtain ⟨hopL, hopS, -, -⟩ := alignOrdered_operands L S
  have halign := alignAdd_decoded hL hS
  rw [if_pos hle] at halign
  have hmax : min (quantumExp L) (quantumExp S) ≤ Config.QMAX := min_le_of_left_le (quantumExp_le_of_decoded hL)
  rw [addRecords_finite policy rm (isFinite_of_decoded hL) (isFinite_of_decoded hS)]
  simp only [addDatapath, halign, hregion, heA, hkL, hkS, hopL, hopS, ← signedCoef_mul_pow, ← exactSum_eq]
  by_cases hm : exactSum L S = 0
  · rw [if_pos hm, packed, pack_ok _ (biased_le _ hmax) (Nat.zero_le _), sumResult, if_pos hm]
  · rw [if_neg hm, sumResult, if_neg hm]
    exact unitsRealizeOneRounding policy _ _ _ _ rm (Int.natAbs_pos.mpr hm)

end

theorem addDatapath_comm (policy : Tininess) (rm : Rm) {x y : Record} (hx : IsDecodedFinite x)
    (hy : IsDecodedFinite y) (h : leadPos x < leadPos y) : addDatapath policy rm x y = addDatapath policy rm y x := by
  have hxy := alignAdd_decoded hx hy
  have hyx := alignAdd_decoded hy hx
  rw [if_neg (not_le.mpr h)] at hxy
  rw [if_pos h.le] at hyx
  simp only [addDatapath, hxy, hyx, min_comm (quantumExp x), zsign_comm x.s]

/-- The regions are the two sides of one bound (R243). -/
theorem addDatapath_ordered (policy : Tininess) (rm : Rm) {x y : Record} (hx : IsDecodedFinite x)
    (hy : IsDecodedFinite y) (hle : leadPos y ≤ leadPos x) :
    addDatapath policy rm x y = .ok (addRecords policy rm x y) := by
  by_cases h : (Config.P : Int) < leadPos x - leadPos y
  · exact addDatapath_absorb policy rm hx hy h
  · exact addDatapath_exact policy rm hx hy hle h

/-- Settles O38: in either order of the leading positions, because datapath and rule treat both operands alike. -/
theorem addDatapathGivesTheSum : Obligations.AddDatapathGivesTheSum := by
  intro policy rm x y hx hy
  rcases le_or_gt (leadPos y) (leadPos x) with h | h
  · exact addDatapath_ordered policy rm hx hy h
  · obtain ⟨hxnan, -⟩ := not_special_of_isFinite x (isFinite_of_decoded hx)
    rw [addDatapath_comm policy rm hx hy h, addRecords_comm policy rm (by simp [hxnan])]
    exact addDatapath_ordered policy rm hy hx h.le

end Sys2Proof.Machine
end

section
/-!
PROOFS. The family of 45_fma_mul.md, the operations: their infinite operands, `MUL` as an `FMA`, and the alignment
unit `ALIGN_FMA`.
-/
namespace Sys2Proof.Machine

/-! ### Infinite operands (R281, R290, R351) -/

theorem isNaN_eq_false_of_finite {x : Record} (hx : x.cls = .finite) : isNaN x = false := by simp [isNaN, hx]

theorem isNaN_eq_false_of_zero {x : Record} (hx : x.cls = .zero) : isNaN x = false := by simp [isNaN, hx]

/-- One factor is infinite and the other is a zero (R281, R290). -/
abbrev InvalidFactors (x y : Record) : Prop :=
  (x.cls = .inf ∧ y.cls = .zero) ∨ (x.cls = .zero ∧ y.cls = .inf)

/-- One factor is infinite and the other is infinite or finite nonzero (R281, R290). -/
abbrev InfiniteFactors (x y : Record) : Prop :=
  (x.cls = .inf ∧ y.cls ∈ [.inf, .finite]) ∨ (x.cls = .finite ∧ y.cls = .inf)

theorem InvalidFactors.classes {x y : Record} (h : InvalidFactors x y) :
    isNaN x = false ∧ isNaN y = false ∧ (x.cls = .inf ∨ y.cls = .inf) ∧ (x.cls = .zero ∨ y.cls = .zero) := by
  rcases h with ⟨hx, hy⟩ | ⟨hx, hy⟩
  · exact ⟨isNaN_eq_false_of_inf hx, isNaN_eq_false_of_zero hy, .inl hx, .inr hy⟩
  · exact ⟨isNaN_eq_false_of_zero hx, isNaN_eq_false_of_inf hy, .inr hy, .inl hx⟩

theorem InfiniteFactors.classes {x y : Record} (h : InfiniteFactors x y) :
    isNaN x = false ∧ isNaN y = false ∧ (x.cls = .inf ∨ y.cls = .inf) ∧ ¬ (x.cls = .zero ∨ y.cls = .zero) := by
  simp only [InfiniteFactors, List.mem_pair] at h
  rcases h with ⟨hx, hy | hy⟩ | ⟨hx, hy⟩
  · exact ⟨isNaN_eq_false_of_inf hx, isNaN_eq_false_of_inf hy, .inl hx, by simp [hx, hy]⟩
  · exact ⟨isNaN_eq_false_of_inf hx, isNaN_eq_false_of_finite hy, .inl hx, by simp [hx, hy]⟩
  · exact ⟨isNaN_eq_false_of_finite hx, isNaN_eq_false_of_inf hy, .inr hy, by simp [hx, hy]⟩

section
variable (policy : Tininess) (rm : Rm) {x y z : Record}

theorem mulRecords_infinite (first : NanFirst) (hx : isNaN x = false) (hy : isNaN y = false)
    (hinf : x.cls = .inf ∨ y.cls = .inf) :
    mulRecords policy first rm x y =
      if x.cls = .zero ∨ y.cls = .zero then (dnan, flagIE) else (infWord (x.s ^^ y.s), noFlags) := by
  simp only [mulRecords, hx, hy, Bool.or_false, Bool.false_eq_true, if_false, if_pos hinf]

theorem fmaRecords_infinite_factor (hx : isNaN x = false) (hy : isNaN y = false) (hz : isNaN z = false)
    (hinf : x.cls = .inf ∨ y.cls = .inf) :
    fmaRecords policy rm x y z =
      if x.cls = .zero ∨ y.cls = .zero then (dnan, flagIE)
      else if z.cls = .inf ∧ z.s ≠ (x.s ^^ y.s) then (dnan, flagIE)
      else (infWord (x.s ^^ y.s), noFlags) := by
  simp only [fmaRecords, hx, hy, hz, Bool.or_false, Bool.false_eq_true, if_false, if_pos hinf]

theorem fmaRecords_infinite_addend (hx : isFinite x = true) (hy : isFinite y = true) (hz : z.cls = .inf) :
    fmaRecords policy rm x y z = (infWord z.s, noFlags) := by
  obtain ⟨hxnan, hxinf⟩ := not_special_of_isFinite x hx
  obtain ⟨hynan, hyinf⟩ := not_special_of_isFinite y hy
  simp only [fmaRecords, hxnan, hynan, isNaN_eq_false_of_inf hz, Bool.or_false, Bool.false_eq_true, if_false,
    if_neg (not_or.mpr ⟨hxinf, hyinf⟩), if_pos hz]

end

theorem drives_mul_of_eq {rm : Rm} {s : State} {w : Word} {F : FlagWord}
    (h : mulRecords s.args.tininess s.args.mulNanFirst rm (operandA s) (operandB s) = (w, F)) :
    Drives (.mul rm) s w F := by
  have hdrives := drives_mul rm s
  rwa [h] at hdrives

theorem drives_fma_of_eq {rm : Rm} {s : State} {w : Word} {F : FlagWord}
    (h : fmaRecords s.args.tininess rm (operandA s) (operandB s) (operandC s) = (w, F)) :
    Drives (.fma rm) s w F := by
  have hdrives := drives_fma rm s
  rwa [h] at hdrives

/-- Settles O53: with an infinite factor the class of the other decides. -/
theorem mulOfInfinities : Obligations.MulOfInfinities := by
  intro rm s A B
  refine ⟨fun h => ?_, fun h => ?_⟩
  · obtain ⟨hA, hB, hinf, hzero⟩ := InvalidFactors.classes h
    rw [← dnan_eq]
    exact drives_mul_of_eq ((mulRecords_infinite _ rm _ hA hB hinf).trans (if_pos hzero))
  · obtain ⟨hA, hB, hinf, hzero⟩ := InfiniteFactors.classes h
    rw [← infWord_eq]
    exact drives_mul_of_eq ((mulRecords_infinite _ rm _ hA hB hinf).trans (if_neg hzero))

/-- Settles O54: the rows with an infinite factor by the class of the other and the sign of an infinite addend,
the last row by the addend alone. -/
theorem fmaOfInfinities : Obligations.FmaOfInfinities := by
  intro rm s A B C ps infiniteProduct
  refine ⟨fun h hC => ?_, fun h hC hs => ?_, fun h hC => ?_, fun hA hB hC => ?_⟩
  · obtain ⟨hA, hB, hinf, hzero⟩ := InvalidFactors.classes h
    rw [← dnan_eq]
    exact drives_fma_of_eq ((fmaRecords_infinite_factor _ rm hA hB hC hinf).trans (if_pos hzero))
  · obtain ⟨hA, hB, hinf, hzero⟩ := InfiniteFactors.classes h
    have hresult := fmaRecords_infinite_factor s.args.tininess rm hA hB (isNaN_eq_false_of_inf hC) hinf
    rw [if_neg hzero, if_pos ⟨hC, hs⟩, dnan_eq] at hresult
    exact drives_fma_of_eq hresult
  · obtain ⟨hA, hB, hinf, hzero⟩ := InfiniteFactors.classes h
    have hclass : isNaN C = false ∧ ¬ (C.cls = .inf ∧ C.s ≠ ps) := by
      rcases hC with ⟨hC, hs⟩ | hC
      · exact ⟨isNaN_eq_false_of_inf hC, fun hne => hne.2 hs⟩
      · obtain ⟨hnan, hnotinf⟩ := not_special_of_isFinite C hC
        exact ⟨hnan, fun hne => hnotinf hne.1⟩
    obtain ⟨hnan, hsign⟩ := hclass
    have hresult := fmaRecords_infinite_factor s.args.tininess rm hA hB hnan hinf
    rw [if_neg hzero, if_neg hsign, infWord_eq] at hresult
    exact drives_fma_of_eq hresult
  · rw [← infWord_eq]
    exact drives_fma_of_eq (fmaRecords_infinite_addend _ rm hA hB hC)

/-! ### The exact product and sum (R282) -/

theorem signedCoef_mul (x y : Record) :
    signedCoef x * signedCoef y =
      if (x.s ^^ y.s) = true then -((x.Cf.toNat * y.Cf.toNat : Nat) : Int)
      else ((x.Cf.toNat * y.Cf.toNat : Nat) : Int) := by
  unfold signedCoef
  cases x.s <;> cases y.s <;> simp

/-- The integer `FMA` rounds, as the signed sum of the scaled product and the scaled addend (R282). -/
theorem exactFma_eq (x y z : Record) :
    let e4 := quantumExp x + quantumExp y
    let P4 := x.Cf.toNat * y.Cf.toNat * 10 ^ (e4 - min e4 (quantumExp z)).toNat
    let P3 := z.Cf.toNat * 10 ^ (quantumExp z - min e4 (quantumExp z)).toNat
    exactFma x y z =
      (if (x.s ^^ y.s) = true then -(P4 : Int) else P4) + (if z.s = true then -(P3 : Int) else P3) := by
  intro e4 P4 P3
  simp only [exactFma, signedCoef_mul, signedCoef_mul_pow]
  congr 1
  split_ifs <;> simp [P4, e4]

/-! ### `MUL` as an `FMA` (R291) -/

theorem magnitudeValue_rescale (N : Nat) {e q : Int} (h : q ≤ e) :
    magnitudeValue ⟨N * 10 ^ (e - q).toNat, 1, q⟩ = magnitudeValue ⟨N, 1, e⟩ := by
  rw [magnitudeValue_integer, magnitudeValue_integer, Nat.cast_mul, natCast_pow_toNat _ _ h]
  field_simp

/-- A zero addend at the largest exponent adds nothing, and lowers no preferred exponent of the format. -/
theorem fmaRecords_largestZero (policy : Tininess) (first : NanFirst) (rm : Rm) {x y z : Record}
    (hx : IsDecodedFinite x) (hy : IsDecodedFinite y) (hz : z.cls = .zero) (hC : z.Cf.toNat = 0)
    (hexp : quantumExp z = Config.QMAX) :
    fmaRecords policy rm x y z = mulRecords policy first rm x y := by
  have hfinx := isFinite_of_decoded hx
  have hfiny := isFinite_of_decoded hy
  have hne : x.Cf.toNat * y.Cf.toNat ≠ 0 :=
    Nat.mul_ne_zero (toNat_ne_zero_of_decoded hx) (toNat_ne_zero_of_decoded hy)
  obtain ⟨e4, he4⟩ : ∃ e4, e4 = quantumExp x + quantumExp y := ⟨_, rfl⟩
  have hpref : clamp (min e4 Config.QMAX) Config.QMIN Config.QMAX = clamp e4 Config.QMIN Config.QMAX := by
    simp only [clamp]
    omega
  have hscaled : x.Cf.toNat * y.Cf.toNat * 10 ^ (e4 - min e4 Config.QMAX).toNat ≠ 0 :=
    Nat.mul_ne_zero hne (by positivity)
  have hsum := exactFma_eq x y z
  simp only [hC, Nat.zero_mul, Nat.cast_zero, neg_zero, ite_self, add_zero, hexp, ← he4] at hsum
  rw [fmaRecords_finite policy rm hfinx hfiny ((isFinite_iff z).mpr (.inl hz)), hexp,
    mulRecords_finite policy rm hfinx hfiny, if_neg (by simp [hx.1, hy.1]), ← he4, hsum,
    sumResult_signed policy rm hscaled, hpref]
  exact roundToFormat_congr policy _ _ rm _ _ hscaled one_ne_zero hne one_ne_zero
    (magnitudeValue_rescale _ (min_le_left _ _))

theorem unpack_decodedFinite {limit : Nat} {w : Word} (h : (unpack limit w).cls = .finite) :
    IsDecodedFinite (unpack limit w) := by
  have hwf := unpack_wf limit w
  refine ⟨h, ?_, wf_exponent_le limit _ hwf, wf_coefficient_le hwf⟩
  simp only [Record.wf, h, Bool.and_eq_true, decide_eq_true_eq] at hwf
  obtain ⟨⟨⟨-, hC⟩, -⟩, -⟩ := hwf
  exact hC

/-- Settles O58: port `C` holds the standard form of plus zero at the largest exponent. -/
theorem mulIsFmaWithTheLargestZero : Obligations.MulIsFmaWithTheLargestZero := by
  intro rm s hA hB hC
  have hword : (0x5FFE0000000000000000000000000000#128 : Word) = packWord false Config.EBMAX 0 := by decide +kernel
  have hz : operandC s = ⟨.zero, false, 12287#14, 0, 0⟩ := by
    rw [operandC, hC, hword, unpack_packWord _ _ _ _ le_rfl (Nat.zero_le _)]
    rfl
  have heq := fmaRecords_largestZero s.args.tininess s.args.mulNanFirst rm (unpack_decodedFinite hA)
    (unpack_decodedFinite hB) (z := operandC s) (by rw [hz]) (by rw [hz]; rfl) (by rw [hz]; rfl)
  exact ⟨_, _, drives_mul rm s, drives_fma_of_eq heq⟩

/-! ### The alignment unit (R284, R285) -/

/-- What `ALIGN_FMA` puts out for a nonzero product and a finite nonzero addend (R285). -/
def alignedFma (p : Product) (z : Record) : FmaAlignment where
  d := leadPos z - (p.q4 + p.e4)
  region :=
    if (Config.P : Int) < leadPos z - (p.q4 + p.e4) then .addendDominates
    else if leadPos z - (p.q4 + p.e4) < -(Config.P : Int) then .productDominates
    else .comparable
  eA := min (quantumExp z) p.e4
  k4 := p.e4 - min (quantumExp z) p.e4
  k3 := quantumExp z - min (quantumExp z) p.e4

theorem alignFma_ok {p : Product} {z : Record} (hp : p.C4 ≠ 0) (hz : IsFiniteNonzero z) :
    alignFma p z = .ok (alignedFma p z) := by
  rw [alignFma, (finiteNonzero_iff z).mpr hz, if_neg (not_or.mpr ⟨hp, Bool.noConfusion⟩)]
  rfl

/-- Settles O42: the three regions are the sides of the two bounds. -/
theorem alignFmaGivesTheRegion : Obligations.AlignFmaGivesTheRegion := by
  intro s hp hz
  refine ⟨_, unitDrives_of_ok rfl rfl (alignFma_ok hp hz), rfl, fun h => if_pos h, fun h => ?_, fun hlo hhi => ?_,
    rfl, rfl, rfl⟩
  · exact (if_neg (not_lt.mpr (h.le.trans (by decide)))).trans (if_pos h)
  · exact (if_neg (not_lt.mpr hhi)).trans (if_neg (not_lt.mpr hlo))

end Sys2Proof.Machine
end

section
/-!
PROOFS. The family of 45_fma_mul.md, the datapath: a far smaller term as a sticky digit, one term far above the
other, and the regions of `FMA`.
-/
namespace Sys2Proof.Machine

/-! ### A smaller term below half a unit is a sticky digit (R211, R286) -/

/-- Off the half units, the half unit below a value says what its rounding compares (R211). -/
theorem divMod_of_halfUnits {n d : Nat} (hd : 0 < d) (hn : 2 * n % d ≠ 0) :
    n / d = 2 * n / d / 2 ∧ n % d ≠ 0 ∧ (2 * (n % d) < d ↔ 2 * n / d % 2 = 0) ∧
      (d < 2 * (n % d) ↔ 2 * n / d % 2 = 1) := by
  have hlt := Nat.mod_lt n hd
  have hrem : 2 * n % d = 2 * (n % d) % d := (Nat.mul_mod_mod 2 n d).symm
  have hquot : 2 * n / d = 2 * (n / d) + 2 * (n % d) / d := by
    conv_lhs => rw [← Nat.div_add_mod n d, mul_add, mul_left_comm, Nat.mul_add_div hd]
  have hpos : n % d ≠ 0 := fun h => hn (by rw [hrem, h, mul_zero, Nat.zero_mod])
  rcases lt_trichotomy (2 * (n % d)) d with h | h | h
  · rw [Nat.div_eq_of_lt h] at hquot
    omega
  · exact absurd (by rw [hrem, h, Nat.mod_self]) hn
  · have hone : 2 * (n % d) / d = 1 := Nat.div_eq_of_lt_le (by omega) (by omega)
    omega

theorem roundInt_congr_of_halfUnits (s : Bool) (rm : Rm) {n n' d : Nat} (hd : 0 < d)
    (h : 2 * n / d = 2 * n' / d) (hn : 2 * n % d ≠ 0) (hn' : 2 * n' % d ≠ 0) :
    roundInt s rm n d = roundInt s rm n' d := by
  obtain ⟨hquot, hrem, hbelow, habove⟩ := divMod_of_halfUnits hd hn
  obtain ⟨hquot', hrem', hbelow', habove'⟩ := divMod_of_halfUnits hd hn'
  simp only [roundInt, if_neg hrem, if_neg hrem', hbelow, habove, hbelow', habove', hquot, hquot', h]

theorem digits_div_pow {N k : Nat} (h : N / 10 ^ k ≠ 0) : digits N = digits (N / 10 ^ k) + k := by
  have hle : k ≤ Nat.log 10 N :=
    Nat.le_log_of_pow_le (by decide) (not_lt.mp fun hlt => h (Nat.div_eq_of_lt hlt))
  rw [digits, digits, Nat.log_div_base_pow]
  omega

section
variable (policy : Tininess) (s : Bool) (rm : Rm) (pref : Int) {e : Int} {k : Nat} (hmin : Config.QMIN ≤ e + k)
include hmin

/-- A value that is on no half unit of `10^k`, `P + x` digits above that unit, is inexact at its last kept exponent
and not tiny. -/
theorem rounding_of_halfUnits {M x : Nat} (hdigits : digits M = Config.P + k + x) (hhalf : 2 * M % 10 ^ k ≠ 0) :
    lastKept ⟨M, 1, e⟩ = e + (k + x : Nat) ∧ 2 * M % 10 ^ (k + x) ≠ 0 ∧
      inexactAt ⟨M, 1, e⟩ (e + (k + x : Nat)) = true ∧ tiny policy s ⟨M, 1, e⟩ rm = false := by
  have hM : M ≠ 0 := by
    rintro rfl
    exact hhalf (Nat.zero_mod _)
  have hmod : 2 * M % 10 ^ (k + x) ≠ 0 := fun h =>
    hhalf (Nat.mod_eq_zero_of_dvd ((pow_dvd_pow 10 (Nat.le_add_right k x)).trans (Nat.dvd_of_mod_eq_zero h)))
  obtain ⟨-, hinexact, -, -⟩ := divMod_of_halfUnits (by positivity) hmod
  refine ⟨?_, hmod, by rw [inexactAt_integer_add, decide_eq_true hinexact], ?_⟩
  · rw [lastKept_integer e hM, hdigits]
    push_cast
    omega
  · refine tiny_eq_false policy s rm hM one_ne_zero ?_
    rw [floorLog10_integer e hM, hdigits]
    simp only [Config.P, Config.QMIN, Config.EMIN] at *
    omega

/-- Values of at least `P` digits above a unit `10^k` that lie between the same half units of it are rounded alike:
every rounding position is a multiple of the unit (R212, R214). -/
theorem roundToFormat_congr_of_halfUnits {N N' : Nat} (h : 2 * N / 10 ^ k = 2 * N' / 10 ^ k)
    (hN : 2 * N % 10 ^ k ≠ 0) (hN' : 2 * N' % 10 ^ k ≠ 0) (hlo : 10 ^ (Config.P - 1) ≤ N / 10 ^ k) :
    roundToFormat policy s ⟨N, 1, e⟩ pref rm = roundToFormat policy s ⟨N', 1, e⟩ pref rm := by
  have hunit : 0 < 10 ^ k := by positivity
  obtain ⟨hdiv, -, -, -⟩ := divMod_of_halfUnits hunit hN
  obtain ⟨hdiv', -, -, -⟩ := divMod_of_halfUnits hunit hN'
  have hquot : N / 10 ^ k = N' / 10 ^ k := by rw [hdiv, hdiv', h]
  have hne : N / 10 ^ k ≠ 0 := (lt_of_lt_of_le (by decide) hlo).ne'
  have hdigits := digits_div_pow hne
  have hdigits' := digits_div_pow (hquot ▸ hne)
  rw [← hquot] at hdigits'
  obtain ⟨x, hx⟩ := Nat.exists_eq_add_of_le (digits_mono hlo)
  rw [digits_unique (10 ^ (Config.P - 1)) Config.P (by decide) le_rfl (by decide)] at hx
  obtain ⟨hkept, hhalf, hinexact, htiny⟩ :=
    rounding_of_halfUnits policy s rm hmin (x := x) (by omega) hN
  obtain ⟨hkept', hhalf', hinexact', htiny'⟩ :=
    rounding_of_halfUnits policy s rm hmin (x := x) (by omega) hN'
  have hround : roundInt s rm N (10 ^ (k + x)) = roundInt s rm N' (10 ^ (k + x)) := by
    refine roundInt_congr_of_halfUnits s rm (by positivity) ?_ hhalf hhalf'
    rw [pow_add, ← Nat.div_div_eq_div_mul, ← Nat.div_div_eq_div_mul, h]
  simp only [roundToFormat, hkept, hkept', roundAt_integer_add, hround, hinexact, hinexact', htiny, htiny', if_true]

end

/-- On either side of `C` units, within half a unit: the half unit below the value (R286). -/
theorem twice_absorbedSum {C T k : Nat} (hC : C ≠ 0) (hT : T ≠ 0) (hhalf : 2 * T < 10 ^ k) (below : Bool) :
    2 * absorbedSum C T k below / 10 ^ k = (if below then 2 * C - 1 else 2 * C) ∧
      2 * absorbedSum C T k below % 10 ^ k ≠ 0 := by
  have hpos : 0 < 10 ^ k := by positivity
  have hform : ∃ R, R ≠ 0 ∧ R < 10 ^ k ∧
      2 * absorbedSum C T k below = 10 ^ k * (if below then 2 * C - 1 else 2 * C) + R := by
    cases below with
    | false => exact ⟨2 * T, by omega, hhalf, by
      simp only [absorbedSum, Bool.false_eq_true, if_false]
      ring⟩
    | true =>
      refine ⟨10 ^ k - 2 * T, by omega, by omega, ?_⟩
      have hsplit := mul_sub_eq (C := 2 * C) (by omega) hhalf.le
      simp only [absorbedSum, if_true]
      rw [mul_comm (10 ^ k), ← hsplit, Nat.mul_sub, mul_assoc]
  obtain ⟨R, hR, hRlt, hform⟩ := hform
  rw [hform, Nat.mul_add_div hpos, Nat.div_eq_of_lt hRlt, Nat.mul_add_mod, Nat.mod_eq_of_lt hRlt, Nat.add_zero]
  exact ⟨rfl, hR⟩

/-- A term below half a unit of a larger one of more than `P` digits matters by its sign only (R286). -/
theorem roundToFormat_sticky (policy : Tininess) (s : Bool) (rm : Rm) (pref : Int) {e : Int} {C T T' k : Nat}
    (hmin : Config.QMIN ≤ e + k) (hC : 10 ^ Config.P ≤ C) (hT : T ≠ 0) (hT' : T' ≠ 0) (hhalf : 2 * T < 10 ^ k)
    (hhalf' : 2 * T' < 10 ^ k) (below : Bool) :
    roundToFormat policy s ⟨absorbedSum C T k below, 1, e⟩ pref rm =
      roundToFormat policy s ⟨absorbedSum C T' k below, 1, e⟩ pref rm := by
  have hne : C ≠ 0 := (lt_of_lt_of_le (by decide) hC).ne'
  obtain ⟨hquot, hrem⟩ := twice_absorbedSum hne hT hhalf below
  obtain ⟨hquot', hrem'⟩ := twice_absorbedSum hne hT' hhalf' below
  refine roundToFormat_congr_of_halfUnits policy s rm pref hmin (hquot.trans hquot'.symm) hrem hrem' ?_
  obtain ⟨hdiv, -, -, -⟩ := divMod_of_halfUnits (by positivity) hrem
  rw [hdiv, hquot]
  simp only [Config.P] at *
  split_ifs <;> omega

theorem absorbedSum_tenth (C j : Nat) (below : Bool) :
    absorbedSum C (10 ^ j) (j + 1) below = (if below then 10 * C - 1 else 10 * C + 1) * 10 ^ j := by
  unfold absorbedSum
  rw [pow_succ', mul_left_comm, ← mul_assoc]
  split_ifs
  · rw [Nat.sub_one_mul]
  · rw [Nat.add_mul (10 * C), one_mul]

/-- The sticky digit, one unit below the larger term's last digit, gives the rounding of the exact sum (log entry
17). -/
theorem realize_sticky (policy : Tininess) (s : Bool) (rm : Rm) (pref : Int) {e : Int} {C T j : Nat}
    (hmin : Config.QMIN ≤ e + (j + 1 : Nat)) (hC : 10 ^ Config.P ≤ C) (hT : T ≠ 0) (hlt : T < 10 ^ j)
    (below : Bool) :
    realize policy s (if below then 10 * C - 1 else 10 * C + 1) (e + j) pref rm =
      .ok (roundToFormat policy s ⟨absorbedSum C T (j + 1) below, 1, e⟩ pref rm) := by
  obtain ⟨M, hM⟩ : ∃ M, (if below then 10 * C - 1 else 10 * C + 1) = M := ⟨_, rfl⟩
  have hpos : 1 ≤ M := by
    simp only [Config.P] at hC
    rw [← hM]
    split_ifs <;> omega
  have hM0 : M ≠ 0 := Nat.one_le_iff_ne_zero.mp hpos
  have hsucc : 10 ^ (j + 1) = 10 * 10 ^ j := pow_succ' 10 j
  have hvalue := magnitudeValue_rescale M (Int.le_add_of_nonneg_right (Int.natCast_nonneg j) : e ≤ e + j)
  rw [add_sub_cancel_left, Int.toNat_natCast] at hvalue
  rw [roundToFormat_sticky policy s rm pref hmin hC hT (T' := 10 ^ j) (by positivity) (by omega) (by omega),
    absorbedSum_tenth, hM, unitsRealizeOneRounding policy s M _ pref rm hpos,
    roundToFormat_congr policy s pref rm _ _ (by positivity) one_ne_zero hM0 one_ne_zero hvalue]

/-! ### One term far above the other (R244, R286) -/

theorem lt_pow_of_digits_le {n k : Nat} (h : digits n ≤ k) : n < 10 ^ k :=
  (lt_pow_digits n).trans_le (Nat.pow_le_pow_right (by decide) h)

theorem absorbedSum_mul_pow (C T i k : Nat) (below : Bool) :
    absorbedSum (C * 10 ^ i) T k below = absorbedSum C T (i + k) below := by
  simp only [absorbedSum, mul_assoc, pow_add]

theorem absorbedSum_ne_zero {C T k : Nat} (hC : C ≠ 0) (hlt : T < 10 ^ k) (below : Bool) :
    absorbedSum C T k below ≠ 0 := by
  have hle := Nat.le_mul_of_pos_left (10 ^ k) (Nat.pos_of_ne_zero hC)
  unfold absorbedSum
  split_ifs <;> omega

/-- `C` units with less than half a unit on one side are rounded to `C` (R193). -/
theorem nearestEven_absorbedSum {C T x : Nat} (hx : 1 ≤ x) (hT : T ≠ 0) (hC : C ≠ 0) (hhalf : 2 * T < 10 ^ x)
    (below : Bool) :
    nearestEven (absorbedSum C T x below) x = (C, if below then indGtMid else indLtMid) := by
  cases below with
  | false => exact nearestEven_above hx hT hhalf
  | true => exact nearestEven_below hx hT hC hhalf

/-- Without a power-of-ten case the indicator says the side of the smaller term only (R244). -/
theorem absorbIndicator_unit (C : Nat) (eA : Int) (below : Bool) (twiceS unit : Nat) :
    absorbIndicator C eA below false twiceS unit = (C, eA, if below then indGtMid else indLtMid, false) := by
  cases below <;> rfl

theorem lastKept_eq_QMIN {M x : Nat} {e : Int} (hM : M ≠ 0) (hhi : M < 10 ^ Config.P * 10 ^ x)
    (hexp : e + x = Config.QMIN) : lastKept ⟨M, 1, e⟩ = e + x := by
  rw [← pow_add, ← digits_le_iff _ _ (Nat.le_add_right_of_le (by decide))] at hhi
  rw [lastKept_integer e hM]
  omega

section
variable (policy : Tininess) (rm : Rm) (pref : Int)

/-- Where `QMIN` stops the scaling, the larger term is rounded at `QMIN` whatever the number of its digits, and no
power-of-ten case arises (log entry 17). -/
theorem assemble_absorb_at_QMIN (s : Bool) {C T j : Nat} {e : Int} (hC : C ≠ 0) (hhi : C < 10 ^ Config.P)
    (hT : T ≠ 0) (hTlt : T < 10 ^ j) (hexp : e + (j + 1 : Nat) = Config.QMIN) (below : Bool) (twiceS unit : Nat) :
    let i := absorbIndicator C (e + (j + 1 : Nat)) below false twiceS unit
    let r := rmcorr s rm i.1 i.2.1 i.2.2.1 Config.P i.2.2.2
    let v : Magnitude := ⟨absorbedSum C T (j + 1) below, 1, e⟩
    assemble s r.1.toNat r.2 rm true (tiny policy s v rm) = .ok (roundToFormat policy s v pref rm) := by
  have hhalf : 2 * T < 10 ^ (j + 1) := by rw [pow_succ]; omega
  have hne := absorbedSum_ne_zero hC (show T < 10 ^ (j + 1) by omega) below
  have hlt : absorbedSum C T (j + 1) below < 10 ^ Config.P * 10 ^ (j + 1) := by
    have htop : (C + 1) * 10 ^ (j + 1) ≤ 10 ^ Config.P * 10 ^ (j + 1) := Nat.mul_le_mul_right _ hhi
    rw [Nat.succ_mul] at htop
    unfold absorbedSum
    split_ifs <;> omega
  have hinexact : anyIndicator (if below then indGtMid else indLtMid) = true := by cases below <;> rfl
  have h := assemble_nearestEven policy s rm pref (carried := false) (by omega) hne (lastKept_eq_QMIN hne hlt hexp)
    (nearestEven_absorbedSum (by omega) hT hC hhalf below) hinexact (.inr ⟨rfl, hhi.ne, rfl⟩)
  simpa [absorbIndicator_unit] using h

/-- A term more than `P` digit positions above the other, of at most `P` digits and at an exponent of the format:
scaling and indicators round the exact sum (R286). -/
theorem dominated_eq {sL sS : Bool} {CL CS : Nat} {eL eS : Int} (hCL : CL ≠ 0) (hCS : CS ≠ 0)
    (hP : digits CL ≤ Config.P) (hmin : Config.QMIN ≤ eL)
    (hgap : (Config.P : Int) < digits CL + eL - (digits CS + eS)) :
    let v : Magnitude := ⟨absorbedSum CL CS (eL - eS).toNat (decide (sL ≠ sS)), 1, eS⟩
    dominated policy rm v sL CL eL sS CS eS = .ok (roundToFormat policy sL v pref rm) := by
  obtain ⟨k, hk⟩ : ∃ k, min (Config.P - digits CL) (eL - Config.QMIN).toNat = k := ⟨_, rfl⟩
  have hC : CL * 10 ^ k ≠ 0 := by positivity
  have hdigits := digits_mul_pow hCL k
  have hhi : CL * 10 ^ k < 10 ^ Config.P := lt_pow_of_digits_le (by omega)
  obtain ⟨j, hj⟩ : ∃ j : Nat, eL - k = eS + (j + 1 : Nat) := ⟨(eL - k - eS - 1).toNat, by omega⟩
  have hlt : CS < 10 ^ j := lt_pow_of_digits_le (by omega)
  have hsum : absorbedSum CL CS (eL - eS).toNat (decide (sL ≠ sS)) =
      absorbedSum (CL * 10 ^ k) CS (j + 1) (decide (sL ≠ sS)) := by
    rw [absorbedSum_mul_pow]
    congr 1
    omega
  have hunit : (eS + (j + 1 : Nat) - 1 - eS).toNat = j := by omega
  simp only [dominated, hk, hj, hsum, hunit]
  rcases (show Config.QMIN ≤ eL - k by omega).lt_or_eq with hq | hq
  · have hlo : 10 ^ (Config.P - 1) ≤ CL * 10 ^ k := by
      have hle := pow_digits_le _ hC
      rwa [show digits (CL * 10 ^ k) = Config.P by omega] at hle
    rw [hj] at hq
    rw [decide_eq_true hq, Bool.and_true]
    exact assemble_absorb policy sL rm pref hlo hhi hCS hlt (by push_cast at hq; omega) _
  · rw [hj] at hq
    rw [decide_eq_false hq.not_lt, Bool.and_false]
    exact assemble_absorb_at_QMIN policy rm pref sL hC hhi hCS hlt hq.symm _ _ _

end

/-! ### The regions of `FMA` (R285, R286) -/

theorem product_ne_zero {x y : Record} (hx : IsDecodedFinite x) (hy : IsDecodedFinite y) :
    x.Cf.toNat * y.Cf.toNat ≠ 0 :=
  Nat.mul_ne_zero (toNat_ne_zero_of_decoded hx) (toNat_ne_zero_of_decoded hy)

/-- An exact sum given to the realization of one rounding, or its zero packed, is the shared result (R219, R288). -/
theorem realize_sum (policy : Tininess) (rm : Rm) (m e : Int) {pref : Int} (sa sb : Bool)
    (hpref : pref ≤ Config.QMAX) :
    (if m = 0 then packed (zsign sa sb rm) (biased pref) 0 noFlags
      else realize policy (decide (m < 0)) m.natAbs e pref rm) = .ok (sumResult policy rm m e pref sa sb) := by
  by_cases hm : m = 0
  · rw [if_pos hm, sumResult, if_pos hm, packed, pack_ok _ (biased_le _ hpref) (Nat.zero_le _)]
  · rw [if_neg hm, sumResult, if_neg hm]
    exact unitsRealizeOneRounding policy _ _ _ _ rm (Int.natAbs_pos.mpr hm)

theorem natAbs_signed (s : Bool) (M : Nat) : (if s = true then -(M : Int) else (M : Int)).natAbs = M := by
  cases s <;> simp

/-- The sum of two signed terms, one of them below a unit of the other, has the larger term's sign. -/
theorem signed_add_absorbed {C T k : Nat} (hC : C ≠ 0) (hlt : T < 10 ^ k) (sa st : Bool) :
    ((if sa then -((C * 10 ^ k : Nat) : Int) else (C * 10 ^ k : Nat)) + if st then -(T : Int) else T) =
      if sa then -(absorbedSum C T k (decide (sa ≠ st)) : Int) else absorbedSum C T k (decide (sa ≠ st)) :=
  signed_add_of_le (hlt.le.trans (Nat.le_mul_of_pos_left _ (Nat.pos_of_ne_zero hC))) sa st

/-- How far the addend's leading digit lies above the product's (R284). -/
def leadGap (x y z : Record) : Int :=
  digits z.Cf.toNat + quantumExp z - (digits (x.Cf.toNat * y.Cf.toNat) + (quantumExp x + quantumExp y))

/-- The region of two decoded factors and a decoded addend (R285). -/
def fmaRegion (x y z : Record) : FmaRegion :=
  if (Config.P : Int) < leadGap x y z then .addendDominates
  else if leadGap x y z < -(Config.P : Int) then .productDominates
  else .comparable

theorem fmaRegion_cases (x y z : Record) :
    (fmaRegion x y z = .addendDominates ∧ (Config.P : Int) < leadGap x y z) ∨
      (fmaRegion x y z = .productDominates ∧ leadGap x y z < -(Config.P : Int)) ∨
      fmaRegion x y z = .comparable := by
  unfold fmaRegion
  split_ifs with h h'
  · exact .inl ⟨rfl, h⟩
  · exact .inr (.inl ⟨rfl, h'⟩)
  · exact .inr (.inr rfl)

section
variable (policy : Tininess) (rm : Rm) {x y z : Record} (hx : IsDecodedFinite x) (hy : IsDecodedFinite y)
  (hz : IsDecodedFinite z)
include hx hy hz

/-- The product of two coefficients fits 256 bits (R282), so `ALIGN_FMA` accepts it. -/
theorem alignFma_product :
    alignFma
        { s4 := x.s ^^ y.s, C4 := BitVec.ofNat 256 (x.Cf.toNat * y.Cf.toNat),
          q4 := digits (x.Cf.toNat * y.Cf.toNat), e4 := quantumExp x + quantumExp y } z =
      .ok
        { d := leadGap x y z, region := fmaRegion x y z,
          eA := min (quantumExp x + quantumExp y) (quantumExp z),
          k4 := quantumExp x + quantumExp y - min (quantumExp x + quantumExp y) (quantumExp z),
          k3 := quantumExp z - min (quantumExp x + quantumExp y) (quantumExp z) } := by
  have hne := product_ne_zero hx hy
  obtain ⟨-, -, -, hCx⟩ := hx
  obtain ⟨-, -, -, hCy⟩ := hy
  have hlt : x.Cf.toNat * y.Cf.toNat < 2 ^ 256 := lt_of_le_of_lt (Nat.mul_le_mul hCx hCy) (by decide)
  have hC4 : BitVec.ofNat 256 (x.Cf.toNat * y.Cf.toNat) ≠ 0 := fun h =>
    hne (by rw [← Nat.mod_eq_of_lt hlt, ← BitVec.toNat_ofNat, h]; rfl)
  rw [alignFma_ok hC4 ⟨hz.1, hz.2.1⟩, alignedFma, min_comm (quantumExp z)]
  rfl

theorem fmaDatapath_of_addendDominates (hregion : fmaRegion x y z = .addendDominates) :
    fmaDatapath policy rm x y z =
      dominated policy rm ⟨(exactFma x y z).natAbs, 1, min (quantumExp x + quantumExp y) (quantumExp z)⟩ z.s
        z.Cf.toNat (quantumExp z) (x.s ^^ y.s) (x.Cf.toNat * y.Cf.toNat) (quantumExp x + quantumExp y) := by
  simp only [fmaDatapath, alignFma_product hx hy hz, hregion, ← exactFma_eq]

theorem fmaDatapath_of_productDominates (hregion : fmaRegion x y z = .productDominates) :
    fmaDatapath policy rm x y z =
      if digits (x.Cf.toNat * y.Cf.toNat) ≤ Config.P then
        dominated policy rm ⟨(exactFma x y z).natAbs, 1, min (quantumExp x + quantumExp y) (quantumExp z)⟩
          (x.s ^^ y.s) (x.Cf.toNat * y.Cf.toNat) (quantumExp x + quantumExp y) z.s z.Cf.toNat (quantumExp z)
      else if leadPos z < quantumExp x + quantumExp y then
        realize policy (x.s ^^ y.s)
          (if (x.s ^^ y.s) = z.s then 10 * (x.Cf.toNat * y.Cf.toNat) + 1 else 10 * (x.Cf.toNat * y.Cf.toNat) - 1)
          (quantumExp x + quantumExp y - 1)
          (clamp (min (quantumExp x + quantumExp y) (quantumExp z)) Config.QMIN Config.QMAX) rm
      else .ok (fmaRecords policy rm x y z) := by
  rw [fmaRecords_finite policy rm (isFinite_of_decoded hx) (isFinite_of_decoded hy) (isFinite_of_decoded hz),
    ← realize_sum policy rm _ _ _ _ (clamp_le_QMAX _)]
  simp only [fmaDatapath, alignFma_product hx hy hz, hregion, ← exactFma_eq]

theorem fmaDatapath_comparable (hregion : fmaRegion x y z = .comparable) :
    fmaDatapath policy rm x y z = .ok (fmaRecords policy rm x y z) := by
  rw [fmaRecords_finite policy rm (isFinite_of_decoded hx) (isFinite_of_decoded hy) (isFinite_of_decoded hz),
    ← realize_sum policy rm _ _ _ _ (clamp_le_QMAX _)]
  simp only [fmaDatapath, alignFma_product hx hy hz, hregion, ← exactFma_eq]

/-- An addend has at most `P` digits, and its exponent is one of the format. -/
theorem fmaDatapath_addendDominates (hregion : fmaRegion x y z = .addendDominates)
    (hgap : (Config.P : Int) < leadGap x y z) :
    fmaDatapath policy rm x y z = .ok (fmaRecords policy rm x y z) := by
  have hproduct := product_ne_zero hx hy
  have haddend := toNat_ne_zero_of_decoded hz
  have hP := coefDigits_le_of_decoded hz
  have hpos := digits_pos (x.Cf.toNat * y.Cf.toNat)
  simp only [leadGap, coefDigits] at hgap hP
  have hexp : quantumExp x + quantumExp y ≤ quantumExp z := by omega
  have hlt : x.Cf.toNat * y.Cf.toNat < 10 ^ (quantumExp z - (quantumExp x + quantumExp y)).toNat :=
    lt_pow_of_digits_le (by omega)
  have hsum := (exactFma_eq x y z).trans (add_comm _ _)
  simp only [min_eq_left hexp, sub_self, Int.toNat_zero, pow_zero, mul_one] at hsum
  rw [signed_add_absorbed haddend hlt] at hsum
  rw [fmaDatapath_of_addendDominates policy rm hx hy hz hregion,
    fmaRecords_finite policy rm (isFinite_of_decoded hx) (isFinite_of_decoded hy) (isFinite_of_decoded hz), hsum,
    natAbs_signed, sumResult_signed policy rm (absorbedSum_ne_zero haddend hlt _), min_eq_left hexp]
  exact dominated_eq policy rm _ haddend hproduct hP (QMIN_le_quantumExp z) (by omega)

section
variable (hexp : quantumExp z ≤ quantumExp x + quantumExp y)
  (hlt : z.Cf.toNat < 10 ^ (quantumExp x + quantumExp y - quantumExp z).toNat)
include hexp hlt

/-- With the addend below the product's last digit, the exact sum in units of the addend has the product's sign
(R280). -/
theorem fmaRecords_of_addend_lt :
    fmaRecords policy rm x y z =
      roundToFormat policy (x.s ^^ y.s)
        ⟨absorbedSum (x.Cf.toNat * y.Cf.toNat) z.Cf.toNat (quantumExp x + quantumExp y - quantumExp z).toNat
          (decide ((x.s ^^ y.s) ≠ z.s)), 1, quantumExp z⟩
        (clamp (quantumExp z) Config.QMIN Config.QMAX) rm ∧
    (exactFma x y z).natAbs =
      absorbedSum (x.Cf.toNat * y.Cf.toNat) z.Cf.toNat (quantumExp x + quantumExp y - quantumExp z).toNat
        (decide ((x.s ^^ y.s) ≠ z.s)) := by
  have hproduct := product_ne_zero hx hy
  have hsum := exactFma_eq x y z
  simp only [min_eq_right hexp, sub_self, Int.toNat_zero, pow_zero, mul_one] at hsum
  rw [signed_add_absorbed hproduct hlt] at hsum
  rw [fmaRecords_finite policy rm (isFinite_of_decoded hx) (isFinite_of_decoded hy) (isFinite_of_decoded hz), hsum,
    natAbs_signed, sumResult_signed policy rm (absorbedSum_ne_zero hproduct hlt _), min_eq_right hexp]
  exact ⟨rfl, rfl⟩

end

/-- A product this far above an addend of the format has its exponent above `QMIN` when it has at most `P` digits. -/
theorem fmaDatapath_productDominates_short (hregion : fmaRegion x y z = .productDominates)
    (hgap : leadGap x y z < -(Config.P : Int)) (hP : digits (x.Cf.toNat * y.Cf.toNat) ≤ Config.P) :
    fmaDatapath policy rm x y z = .ok (fmaRecords policy rm x y z) := by
  have hmin := QMIN_le_quantumExp z
  have hpos := digits_pos z.Cf.toNat
  simp only [leadGap] at hgap
  have hexp : quantumExp z ≤ quantumExp x + quantumExp y := by omega
  obtain ⟨hresult, habs⟩ := fmaRecords_of_addend_lt policy rm hx hy hz hexp (lt_pow_of_digits_le (by omega))
  rw [fmaDatapath_of_productDominates policy rm hx hy hz hregion, if_pos hP, hresult, habs, min_eq_right hexp]
  exact dominated_eq policy rm _ (product_ne_zero hx hy) (toNat_ne_zero_of_decoded hz) hP (by omega) (by omega)

/-- A longer product takes an addend below its last digit as a sticky digit. -/
theorem fmaDatapath_productDominates_sticky (hregion : fmaRegion x y z = .productDominates)
    (hP : ¬ digits (x.Cf.toNat * y.Cf.toNat) ≤ Config.P) (hbelow : leadPos z < quantumExp x + quantumExp y) :
    fmaDatapath policy rm x y z = .ok (fmaRecords policy rm x y z) := by
  rw [fmaDatapath_of_productDominates policy rm hx hy hz hregion, if_neg hP, if_pos hbelow]
  have hmin := QMIN_le_quantumExp z
  have hpos := digits_pos z.Cf.toNat
  simp only [leadPos, coefDigits] at hbelow
  obtain ⟨j, hj⟩ : ∃ j : Nat, quantumExp x + quantumExp y = quantumExp z + (j + 1 : Nat) :=
    ⟨(quantumExp x + quantumExp y - 1 - quantumExp z).toNat, by omega⟩
  have hexp : quantumExp z ≤ quantumExp x + quantumExp y := by omega
  have hlt : z.Cf.toNat < 10 ^ j := lt_pow_of_digits_le (by omega)
  have hlong : 10 ^ Config.P ≤ x.Cf.toNat * y.Cf.toNat := by rwa [digits_le_iff _ _ (by decide), not_lt] at hP
  obtain ⟨hresult, -⟩ := fmaRecords_of_addend_lt policy rm hx hy hz hexp (lt_pow_of_digits_le (by omega))
  have hround := realize_sticky policy (x.s ^^ y.s) rm (clamp (quantumExp z) Config.QMIN Config.QMAX)
    (show Config.QMIN ≤ quantumExp z + (j + 1 : Nat) by omega) hlong (toNat_ne_zero_of_decoded hz) hlt
    (decide ((x.s ^^ y.s) ≠ z.s))
  rw [show (quantumExp x + quantumExp y - quantumExp z).toNat = j + 1 by omega] at hresult
  rw [← hresult] at hround
  rw [min_eq_right hexp, show quantumExp x + quantumExp y - 1 = quantumExp z + j by omega, ← hround]
  simp only [decide_eq_true_eq, ne_eq, ite_not]

end

/-- Settles O39: where one term dominates, scaling and indicators round the exact sum of a term of at most `P` digits,
and a longer product takes an addend below its last digit as a sticky digit; everywhere else the exact sum itself is
rounded. -/
theorem fmaDatapathGivesTheResult : Obligations.FmaDatapathGivesTheResult := by
  intro policy rm x y z hx hy hz
  rcases fmaRegion_cases x y z with ⟨hregion, hgap⟩ | ⟨hregion, hgap⟩ | hregion
  · exact fmaDatapath_addendDominates policy rm hx hy hz hregion hgap
  · by_cases hP : digits (x.Cf.toNat * y.Cf.toNat) ≤ Config.P
    · exact fmaDatapath_productDominates_short policy rm hx hy hz hregion hgap hP
    · by_cases hbelow : leadPos z < quantumExp x + quantumExp y
      · exact fmaDatapath_productDominates_sticky policy rm hx hy hz hregion hP hbelow
      · rw [fmaDatapath_of_productDominates policy rm hx hy hz hregion, if_neg hP, if_neg hbelow]
  · exact fmaDatapath_comparable policy rm hx hy hz hregion

end Sys2Proof.Machine
end

section
/-!
PROOFS. The family of 46_divide.md, the operation and its scaling unit: the special operands of `DIV`, a value
divided by itself, and `DIVSCALE`.
-/
namespace Sys2Proof.Machine

/-! ### Special operands (R321, R351, R353) -/

section
variable (args : ModelArgs) (rm : Rm) {x y : Record}

theorem divRecords_infinite_dividend (hx : x.cls = .inf) (hy : isNaN y = false) :
    divRecords args rm x y =
      if y.cls = .inf then (dnan, flagIE)
      else (infWord (x.s ^^ y.s), if y.cls = .zero ∧ args.infDivZeroDz = true then flagZE else noFlags) := by
  simp only [divRecords, isNaN_eq_false_of_inf hx, hy, Bool.or_false, Bool.false_eq_true, if_false, if_pos hx]

theorem divRecords_infinite_divisor (hx : isFinite x = true) (hy : y.cls = .inf) :
    divRecords args rm x y = (packWord (x.s ^^ y.s) 0 0, noFlags) := by
  obtain ⟨hxnan, hxinf⟩ := not_special_of_isFinite x hx
  simp only [divRecords, hxnan, isNaN_eq_false_of_inf hy, Bool.or_false, Bool.false_eq_true, if_false,
    if_neg hxinf, if_pos hy]

theorem divRecords_zero_divisor (hx : isFinite x = true) (hy : y.cls = .zero) :
    divRecords args rm x y = if x.cls = .zero then (dnan, flagIE) else (infWord (x.s ^^ y.s), flagZE) := by
  obtain ⟨hxnan, hxinf⟩ := not_special_of_isFinite x hx
  have hyinf : y.cls ≠ .inf := by simp [hy]
  simp only [divRecords, hxnan, isNaN_eq_false_of_zero hy, Bool.or_false, Bool.false_eq_true, if_false,
    if_neg hxinf, if_neg hyinf, if_pos hy]

end

theorem drives_div_of_eq {rm : Rm} {s : State} {w : Word} {F : FlagWord}
    (h : divRecords s.args rm (operandA s) (operandB s) = (w, F)) : Drives (.div rm) s w F := by
  have hdrives := drives_div rm s
  rwa [h] at hdrives

/-- Settles O55: the rows with an infinite dividend by the class of the divisor, the row with an infinite divisor,
and the rows with a zero divisor by the class of the dividend. -/
theorem divOfSpecialOperands : Obligations.DivOfSpecialOperands := by
  intro rm s A B sign
  have hinf {F : FlagWord} (h : divRecords s.args rm A B = (infWord sign, F)) :
      Drives (.div rm) s (infinityOf sign) F := by
    rw [← infWord_eq]
    exact drives_div_of_eq h
  have hinvalid (h : divRecords s.args rm A B = (dnan, flagIE)) : Drives (.div rm) s defaultNaN 0x01#6 := by
    rw [← dnan_eq]
    exact drives_div_of_eq h
  refine ⟨fun hA hB => hinvalid ?_, fun hA hB => hinf ?_, fun hA hB => hinf ?_,
    fun hA hB => ⟨_, drives_div_of_eq (divRecords_infinite_divisor _ rm hA hB), ?_⟩,
    fun hA hB => hinvalid ?_, fun hA hB => hinf ?_⟩
  · exact (divRecords_infinite_dividend _ rm hA (isNaN_eq_false_of_inf hB)).trans (if_pos hB)
  · rw [divRecords_infinite_dividend _ rm hA (isNaN_eq_false_of_finite hB), if_neg (by simp [hB]),
      if_neg (by simp [hB]), noFlags]
  · rw [divRecords_infinite_dividend _ rm hA (isNaN_eq_false_of_zero hB), if_neg (by simp [hB])]
    simp only [hB, true_and]
    rfl
  · exact packWord_isStandardForm sign (Nat.zero_le _) (Nat.zero_le _)
  · exact (divRecords_zero_divisor _ rm ((isFinite_iff A).mpr (.inl hA)) hB).trans (if_pos hA)
  · exact (divRecords_zero_divisor _ rm ((isFinite_iff A).mpr (.inr hA)) hB).trans (if_neg (by simp [hA]))

/-! ### A value divided by itself (R215, R327) -/

/-- The value one, at the preferred exponent 0, is rounded to the word of one. -/
theorem CorrectlyRounded.word_of_one {policy : Tininess} {rm : Rm} {w : Word} {F : FlagWord}
    (h : CorrectlyRounded policy rm 0 1 w F) : w = 0x30400000000000000000000000000001#128 ∧ F = 0#6 := by
  have hone : RepresentableAs |1| 1 0 := ⟨by decide, by decide, by decide, by norm_num⟩
  obtain ⟨hF, C, q, ⟨-, -, -, hvalue⟩, hw, hclosest⟩ := h.exact_of_representable hone
  obtain rfl : q = 0 := by simpa using hclosest 1 0 hone
  obtain rfl : C = 1 := by simpa using hvalue.symm
  rw [decide_eq_false (by norm_num)] at hw
  exact ⟨hw.trans (by decide +kernel), hF⟩

/-- Settles O56: the exact quotient is 1, at the difference 0 of equal exponents. -/
theorem divByItselfIsOne : Obligations.DivByItselfIsOne := by
  intro rm s hA hports
  have hB : operandB s = operandA s := congrArg (unpack s.args.nanPayloadLimit) hports
  have hfin : isFinite (operandA s) = true := (isFinite_iff _).mpr (.inr hA)
  have hne : valueOf (operandA s) ≠ 0 := mt (operandA_zero_iff s hfin).mpr (by simp [hA])
  obtain ⟨w, F, hdrives, hround⟩ := divIsCorrectlyRounded rm s hfin (by rwa [hB]) hne (by rwa [hB])
  rw [hB, div_self hne, sub_self] at hround
  obtain ⟨rfl, rfl⟩ := hround.word_of_one
  exact hdrives

/-! ### The scaling unit (R322) -/

section
variable {C1 C2 : Nat}

/-- Every scale passed over leaves fewer than `P` digits. -/
theorem lt_of_lt_leastScale {fuel k0 j : Nat} (hj : k0 ≤ j) (hlt : j < leastScale C1 C2 fuel k0) :
    C1 * 10 ^ j / C2 < 10 ^ (Config.P - 1) := by
  induction fuel generalizing k0 with
  | zero => exact absurd hj (not_le.mpr hlt)
  | succ fuel ih =>
    unfold leastScale at hlt
    split_ifs at hlt with htest
    · exact absurd hj (not_le.mpr hlt)
    · rcases hj.eq_or_lt with rfl | hj
      · exact not_le.mp htest
      · exact ih hj hlt

/-- Where the last scale in reach gives `P` digits, so does the scale found. -/
theorem pow_le_leastScale {fuel k0 : Nat} (h : 10 ^ (Config.P - 1) ≤ C1 * 10 ^ (k0 + fuel) / C2) :
    10 ^ (Config.P - 1) ≤ C1 * 10 ^ leastScale C1 C2 fuel k0 / C2 := by
  induction fuel generalizing k0 with
  | zero => exact h
  | succ fuel ih =>
    unfold leastScale
    split_ifs with htest
    · exact htest
    · exact ih (by rwa [Nat.succ_add_eq_add_succ])

end

/-- The scale of two finite nonzero records. -/
def scaleOf (x y : Record) : Nat := leastScale x.Cf.toNat y.Cf.toNat 68 0

theorem scaleOf_le (x y : Record) : scaleOf x y ≤ 68 := leastScale_le _ _ _ _

theorem lt_of_lt_scaleOf {x y : Record} {j : Nat} (h : j < scaleOf x y) :
    x.Cf.toNat * 10 ^ j / y.Cf.toNat < 10 ^ 33 :=
  lt_of_lt_leastScale (Nat.zero_le j) h

theorem toNat_ne_zero_of_finiteNonzero {r : Record} (h : IsFiniteNonzero r) : r.Cf.toNat ≠ 0 :=
  fun h0 => h.2 (BitVec.eq_of_toNat_eq h0)

section
variable {x y : Record} (hx : IsFiniteNonzero x) (hy : IsFiniteNonzero y)
include hx hy

/-- A dividend scaled by `10^k` is at least `10^k`: 34 digits over a divisor of at most `10^(k - 33)`. -/
theorem pow_le_scaled_quotient {k : Nat} (h : 10 ^ 33 * y.Cf.toNat ≤ 10 ^ k) :
    10 ^ 33 ≤ x.Cf.toNat * 10 ^ k / y.Cf.toNat := by
  rw [Nat.le_div_iff_mul_le (Nat.pos_of_ne_zero (toNat_ne_zero_of_finiteNonzero hy))]
  exact h.trans (Nat.le_mul_of_pos_left _ (Nat.pos_of_ne_zero (toNat_ne_zero_of_finiteNonzero hx)))

/-- A divisor of 113 bits is below `10^35`, so 68 digits suffice. -/
theorem pow_le_scaleOf_quotient : 10 ^ 33 ≤ x.Cf.toNat * 10 ^ scaleOf x y / y.Cf.toNat := by
  have hlt := y.Cf.isLt
  exact pow_le_leastScale (pow_le_scaled_quotient hx hy (by omega))

theorem divScale_ok :
    divScale x y = .ok { k := scaleOf x y, N := x.Cf.toNat * 10 ^ scaleOf x y,
                         eq := quantumExp x - quantumExp y - scaleOf x y } := by
  have hk : scaleOf x y ≤ 76 := (scaleOf_le x y).trans (by decide)
  have hpow := entryOf_toNat _ (pow_ten_lt_entry _ hk)
  simp only [scaleOf] at hk hpow ⊢
  simp only [divScale, (finiteNonzero_iff x).mpr hx, (finiteNonzero_iff y).mpr hy, Bool.and_self, if_true,
    romTenPow_ok _ hk, hpow]

/-- A decoded divisor is below `10^34`, so 67 digits suffice. -/
theorem scaleOf_le_of_divisor_le (hC : y.Cf.toNat ≤ Config.CMAX) : scaleOf x y ≤ 67 := by
  by_contra h
  have hshort := lt_of_lt_scaleOf (not_le.mp h)
  simp only [Config.CMAX] at hC
  exact absurd (pow_le_scaled_quotient hx hy (k := 67) (by omega)) (not_le.mpr hshort)

omit hx in
/-- One digit fewer leaves the quotient below `10^33`; with none to leave, the dividend itself is below `10^34`. -/
theorem scaleOf_quotient_lt (hC : x.Cf.toNat ≤ Config.CMAX) :
    x.Cf.toNat * 10 ^ scaleOf x y / y.Cf.toNat < 10 ^ 34 := by
  have hpos := Nat.pos_of_ne_zero (toNat_ne_zero_of_finiteNonzero hy)
  cases hk : scaleOf x y with
  | zero =>
    rw [pow_zero, mul_one]
    exact (Nat.div_le_self _ _).trans_lt (Nat.lt_succ_of_le hC)
  | succ k =>
    have hshort := lt_of_lt_scaleOf (hk ▸ Nat.lt_succ_self k : k < scaleOf x y)
    rw [Nat.div_lt_iff_lt_mul hpos] at hshort ⊢
    rw [pow_succ, ← mul_assoc]
    omega

end

/-- Settles O43: the scale found gives 34 digits, none below it does, and `TEN_POW` holds its power. -/
theorem divscaleGivesTheLeastScale : Obligations.DivscaleGivesTheLeastScale := fun _ hx hy =>
  ⟨_, unitDrives_of_ok rfl rfl (divScale_ok hx hy), rfl, rfl, pow_le_scaleOf_quotient hx hy,
    fun _ => lt_of_lt_scaleOf,
    fun hCx hCy => ⟨scaleOf_le_of_divisor_le hx hy hCy, scaleOf_quotient_lt hy hCx⟩⟩

end Sys2Proof.Machine
end

section
/-!
PROOFS. The family of 46_divide.md, the datapath: the rounding of a scaled quotient by its remainder, and the
subnormal path.
-/
namespace Sys2Proof.Machine

/-! ### A nonzero remainder as a sticky digit (R211, R324) -/

/-- `RoundInt` does not change when the fraction is expanded. -/
theorem roundInt_mul_mul_left (s : Bool) (rm : Rm) {k n d : Nat} (hk : k ≠ 0) (hd : d ≠ 0) :
    roundInt s rm (k * n) (k * d) = roundInt s rm n d := by
  refine roundInt_congr s rm _ _ _ _ (Nat.mul_ne_zero hk hd) hd ?_
  rw [Nat.cast_mul, Nat.cast_mul, mul_div_mul_left _ _ (Nat.cast_ne_zero.mpr hk)]

/-- Digits discarded from a quotient with a remainder: every half unit is an integer, so the exact quotient and the
truncated one with a sticky digit lie between the same half units. -/
theorem roundInt_sticky_remainder (s : Bool) (rm : Rm) {N D x : Nat} (hD : D ≠ 0) (hx : 1 ≤ x) (hR : N % D ≠ 0) :
    roundInt s rm (10 * (N / D) + 1) (10 * 10 ^ x) = roundInt s rm N (D * 10 ^ x) := by
  obtain ⟨half, hhalf⟩ : ∃ half, half = 5 * 10 ^ (x - 1) := ⟨_, rfl⟩
  have hpos : 0 < half := by
    rw [hhalf]
    positivity
  have hunit : 10 * 10 ^ x = 2 * (10 * half) := by
    rw [hhalf, ← twice_halfUlp x hx]
    ring
  rw [← roundInt_mul_mul_left s rm hD (show 10 * 10 ^ x ≠ 0 by positivity),
    ← roundInt_mul_mul_left s rm (n := N) (show 10 ≠ 0 by decide) (show D * 10 ^ x ≠ 0 by positivity),
    mul_left_comm 10 D, hunit, mul_left_comm D 2]
  refine roundInt_congr_of_halfUnits s rm (by positivity) ?_ ?_ ?_
  · rw [Nat.mul_div_mul_left _ _ two_pos, Nat.mul_div_mul_left _ _ two_pos]
    calc D * (10 * (N / D) + 1) / (D * (10 * half)) = N / D / half := by
          rw [Nat.mul_div_mul_left _ _ (Nat.pos_of_ne_zero hD), ← Nat.div_div_eq_div_mul]
          congr 1
          omega
      _ = 10 * N / (D * (10 * half)) := by
          rw [mul_left_comm, Nat.mul_div_mul_left _ _ (by decide), Nat.div_div_eq_div_mul]
  · rw [Nat.mul_mod_mul_left, Nat.mul_mod_mul_left]
    refine Nat.mul_ne_zero two_ne_zero (Nat.mul_ne_zero hD fun h => ?_)
    have hten : 10 ∣ 10 * (N / D) + 1 := (Nat.dvd_mul_right 10 half).trans (Nat.dvd_of_mod_eq_zero h)
    omega
  · rw [Nat.mul_mod_mul_left, mul_left_comm, Nat.mul_mod_mul_left]
    refine Nat.mul_ne_zero two_ne_zero (Nat.mul_ne_zero (by decide) fun h => hR ?_)
    exact Nat.mod_eq_zero_of_dvd ((Nat.dvd_mul_right D half).trans (Nat.dvd_of_mod_eq_zero h))

/-! ### The rounding of a quotient of `P` digits (R323 to R325) -/

section
variable {N D : Nat} {q : Int}

theorem atExp_fraction_add (x : Nat) : atExp ⟨N, D, q⟩ (q + x) = (N, D * 10 ^ x) := by
  simp [atExp]

/-- A quotient with a remainder stays inexact at its own exponent and every one above. -/
theorem inexactAt_quotient (hR : N % D ≠ 0) (x : Nat) : inexactAt ⟨N, D, q⟩ (q + x) = true := by
  simp only [inexactAt, atExp_fraction_add, decide_eq_true_eq]
  exact fun h => hR (Nat.mod_eq_zero_of_dvd ((Nat.dvd_mul_right D _).trans (Nat.dvd_of_mod_eq_zero h)))

variable (hD : D ≠ 0)
include hD

/-- A quotient without a remainder is an integer at the exponent. -/
theorem magnitudeValue_of_dvd (hR : N % D = 0) : magnitudeValue ⟨N, D, q⟩ = magnitudeValue ⟨N / D, 1, q⟩ := by
  rw [magnitudeValue_integer, magnitudeValue, Nat.cast_div (Nat.dvd_of_mod_eq_zero hR) (by exact_mod_cast hD)]

variable (hlo : 10 ^ (Config.P - 1) ≤ N / D) (hhi : N / D < 10 ^ Config.P)
include hlo

omit hD in
theorem dividend_ne_zero : N ≠ 0 := by
  rintro rfl
  rw [Nat.zero_div] at hlo
  exact absurd hlo (by decide)

include hhi

/-- A quotient of `P` digits has its last one at the exponent. -/
theorem floorLog10_quotient : floorLog10 ⟨N, D, q⟩ = q + (Config.P - 1 : Nat) := by
  have hpos : (0 : ℚ) < D := by exact_mod_cast Nat.pos_of_ne_zero hD
  have hN := dividend_ne_zero hlo
  rw [Nat.le_div_iff_mul_le (Nat.pos_of_ne_zero hD)] at hlo
  rw [Nat.div_lt_iff_lt_mul (Nat.pos_of_ne_zero hD)] at hhi
  have hloQ : (10 : ℚ) ^ (Config.P - 1) ≤ N / D := by
    rw [le_div_iff₀ hpos]
    exact_mod_cast hlo
  have hhiQ : (N : ℚ) / D < (10 : ℚ) ^ Config.P := by
    rw [div_lt_iff₀ hpos]
    exact_mod_cast hhi
  refine floorLog10_unique _ hN hD _ ?_ ?_
  · rw [add_comm, zpow_add₀ (by norm_num), zpow_natCast]
    exact mul_le_mul_of_nonneg_right hloQ (by positivity)
  · rw [show q + ((Config.P - 1 : Nat) : Int) + 1 = (Config.P : Nat) + q by rw [add_assoc, add_comm]; rfl,
      zpow_add₀ (by norm_num), zpow_natCast]
    exact mul_lt_mul_of_pos_right hhiQ (by positivity)

theorem lastKept_quotient : lastKept ⟨N, D, q⟩ = max q Config.QMIN := by
  rw [lastKept, floorLog10_quotient hD hlo hhi, add_sub_cancel_right]

variable (policy : Tininess) (s : Bool) (rm : Rm) (pref : Int)

omit hhi in
/-- An exact quotient is rounded as the integer it is (R325). -/
theorem roundToFormat_of_dvd (hR : N % D = 0) :
    roundToFormat policy s ⟨N / D, 1, q⟩ pref rm = roundToFormat policy s ⟨N, D, q⟩ pref rm :=
  roundToFormat_congr policy s pref rm _ _ (lt_of_lt_of_le (by decide) hlo).ne' one_ne_zero
    (dividend_ne_zero hlo) hD (magnitudeValue_of_dvd hD hR).symm

theorem assembleExact_quotient (hq : Config.QMIN ≤ q) (hR : N % D = 0) :
    assembleExact s (N / D) q pref rm = .ok (roundToFormat policy s ⟨N, D, q⟩ pref rm) := by
  have hQ : N / D ≠ 0 := (lt_of_lt_of_le (by decide) hlo).ne'
  have hkept : lastKept ⟨N / D, 1, q⟩ ≤ q := by
    rw [lastKept_integer q hQ, digits_unique _ Config.P (by decide) hlo hhi]
    omega
  rw [assembleExact_eq policy s pref rm hQ hkept, roundToFormat_of_dvd hD hlo policy s rm pref hR]

omit hhi in
theorem realize_quotient (hR : N % D = 0) :
    realize policy s (N / D) q pref rm = .ok (roundToFormat policy s ⟨N, D, q⟩ pref rm) := by
  rw [unitsRealizeOneRounding policy s _ q pref rm (le_trans (by decide) hlo),
    roundToFormat_of_dvd hD hlo policy s rm pref hR]

/-- Below `QMIN` the truncated quotient is rounded there with the remainder as a sticky digit; it stays below `10^34`
(R324). -/
theorem assemble_subnormal_quotient (hq : q < Config.QMIN) (hR : N % D ≠ 0) :
    assemble s (roundInt s rm (10 * (N / D) + 1) (10 * 10 ^ (Config.QMIN - q).toNat)) Config.QMIN rm true
        (tiny policy s ⟨N, D, q⟩ rm) =
      .ok (roundToFormat policy s ⟨N, D, q⟩ pref rm) := by
  obtain ⟨x, hx⟩ : ∃ x, (Config.QMIN - q).toNat = x := ⟨_, rfl⟩
  have hexp : Config.QMIN = q + x := by omega
  have hkept : lastKept ⟨N, D, q⟩ = q + x := by
    rw [lastKept_quotient hD hlo hhi]
    omega
  have hinexact : inexactAt ⟨N, D, q⟩ (lastKept ⟨N, D, q⟩) = true := by
    rw [hkept]
    exact inexactAt_quotient hR x
  have hle : roundInt s rm N (D * 10 ^ x) ≤ 10 ^ (Config.P - 1) := by
    refine roundInt_le s rm _ _ _ ?_
    rw [Nat.div_lt_iff_lt_mul (Nat.pos_of_ne_zero hD)] at hhi
    have hten : 10 ^ 1 ≤ 10 ^ x := Nat.pow_le_pow_right (by decide) (by omega)
    calc N ≤ 10 ^ (Config.P - 1) * (D * 10 ^ 1) := by simp only [Config.P] at hhi ⊢; omega
      _ ≤ 10 ^ (Config.P - 1) * (D * 10 ^ x) := Nat.mul_le_mul_left _ (Nat.mul_le_mul_left _ hten)
  have hround : roundAt s rm ⟨N, D, q⟩ (q + x) = (roundInt s rm N (D * 10 ^ x), q + x) := by
    simp only [roundAt, atExp_fraction_add]
    exact if_neg (lt_of_le_of_lt hle (by decide)).ne
  have h := assemble_roundAt policy s pref rm (dividend_ne_zero hlo) hD hinexact
  rwa [hkept, hround, ← roundInt_sticky_remainder s rm hD (by omega) hR, ← hexp, ← hx] at h

/-- The remainder's indicator and the correction round the quotient in the mode (R323, R325). -/
theorem assemble_normal_quotient (hq : Config.QMIN ≤ q) (hR : N % D ≠ 0) :
    let i := classify (N / D) (2 * (N % D)) D
    let carried := decide (i.1 = 10 ^ Config.P)
    let r := rmcorr s rm (if carried then 10 ^ (Config.P - 1) else i.1) (if carried then q + 1 else q) i.2 Config.P
      carried
    assemble s r.1.toNat r.2 rm true (tiny policy s ⟨N, D, q⟩ rm) =
      .ok (roundToFormat policy s ⟨N, D, q⟩ pref rm) := by
  intro i carried r
  have hkept : lastKept ⟨N, D, q⟩ = q := by rw [lastKept_quotient hD hlo hhi, max_eq_left hq]
  have hatExp : atExp ⟨N, D, q⟩ q = (N, D) := by simp [atExp]
  have hinexact : inexactAt ⟨N, D, q⟩ (lastKept ⟨N, D, q⟩) = true := by
    rw [hkept]
    simpa using inexactAt_quotient hR 0
  have hZ : (roundInt s rm N D : Int) = i.1 + rmStep s rm i.2 :=
    classify_corrected s rm N D _ _ (by omega) Iff.rfl Iff.rfl
  have hle : i.1 ≤ 10 ^ Config.P := by
    rcases classify_cases (N / D) (2 * (N % D)) D with
      ⟨-, h⟩ | ⟨-, -, h⟩ | ⟨-, -, h⟩ | ⟨-, -, -, h⟩ | ⟨-, -, -, h⟩ <;>
      simp only [i, h] <;> omega
  have hstate : (carried = true ∧ i.1 = 10 ^ Config.P ∧
      (if carried then 10 ^ (Config.P - 1) else i.1) = 10 ^ (Config.P - 1) ∧ Config.P = Config.P ∧
        rmIncrements s rm i.2 = false) ∨
      (carried = false ∧ i.1 ≠ 10 ^ Config.P ∧ (if carried then 10 ^ (Config.P - 1) else i.1) = i.1) := by
    by_cases hcarry : i.1 = 10 ^ Config.P
    · have hc : carried = true := decide_eq_true hcarry
      exact .inl ⟨hc, hcarry, if_pos hc, rfl, classify_up s rm _ _ _ (hcarry.trans_ne hhi.ne')⟩
    · have hc : carried = false := decide_eq_false hcarry
      exact .inr ⟨hc, hcarry, by rw [hc]; rfl⟩
  have hexp : (if carried then q + 1 else q) = q + if carried then 1 else 0 := by cases carried <;> simp
  have hr : r = (((roundAt s rm ⟨N, D, q⟩ q).1 : Int), (roundAt s rm ⟨N, D, q⟩ q).2) := by
    simp only [r, hexp, rmcorr_eq_carry s rm q hle hZ hstate, roundAt, hatExp]
    split_ifs <;> rfl
  have h := assemble_roundAt policy s pref rm (dividend_ne_zero hlo) hD hinexact
  rw [hkept] at h
  rw [hr, ← h, Int.toNat_natCast]

end

/-! ### The datapath on two decoded records (R320, R322 to R325) -/

/-- The scaled dividend at the lowered exponent, over the divisor, is the exact quotient (R322). -/
theorem magnitudeValue_scaled (N D : Nat) (e : Int) (k : Nat) :
    magnitudeValue ⟨N * 10 ^ k, D, e - k⟩ = magnitudeValue ⟨N, D, e⟩ := by
  simp only [magnitudeValue]
  rw [zpow_sub₀ (by norm_num), zpow_natCast]
  push_cast
  field_simp

/-- A quotient below `10^34` and a divisor below it fit the divider's 128 bits (R125, R323). -/
theorem longDivide_exact {N D : Nat} (hD : D ≠ 0) (hmax : D ≤ Config.CMAX) (hhi : N / D < 10 ^ Config.P) :
    ∃ Qw Rw, longDivide N D = .ok (Qw, Rw) ∧ Qw.toNat = N / D ∧ Rw.toNat = N % D := by
  have hpos := Nat.pos_of_ne_zero hD
  have hQ : N / D < 2 ^ 128 := hhi.trans (by decide)
  have hR : N % D < 2 ^ 128 := (Nat.mod_lt N hpos).trans (lt_of_le_of_lt hmax (by decide))
  exact ⟨_, _, longDivide_ok hD ((Nat.div_lt_iff_lt_mul hpos).mp hQ), Nat.mod_eq_of_lt hQ, Nat.mod_eq_of_lt hR⟩

theorem isFiniteNonzero_of_decoded {r : Record} (h : IsDecodedFinite r) : IsFiniteNonzero r := ⟨h.1, h.2.1⟩

section
variable {x y : Record} (hx : IsDecodedFinite x) (hy : IsDecodedFinite y)
include hx hy

/-- The quotient rounded once, as the scaled fraction (R320, R322). -/
theorem divRecords_scaled (args : ModelArgs) (rm : Rm) :
    divRecords args rm x y =
      roundToFormat args.tininess (x.s ^^ y.s)
        ⟨x.Cf.toNat * 10 ^ scaleOf x y, y.Cf.toNat, quantumExp x - quantumExp y - scaleOf x y⟩
        (clamp (quantumExp x - quantumExp y) Config.QMIN Config.QMAX) rm := by
  have hN := toNat_ne_zero_of_decoded hx
  have hD := toNat_ne_zero_of_decoded hy
  rw [divRecords_finite rm (isFinite_of_decoded hx) (isFinite_of_decoded hy) args (by simp [hy.1]),
    if_neg (by simp [hx.1])]
  exact (roundToFormat_congr _ _ _ rm _ _ (by positivity) hD hN hD (magnitudeValue_scaled _ _ _ _)).symm

theorem tiny_scaled (policy : Tininess) (s : Bool) (rm : Rm) :
    tiny policy s ⟨x.Cf.toNat, y.Cf.toNat, quantumExp x - quantumExp y⟩ rm =
      tiny policy s
        ⟨x.Cf.toNat * 10 ^ scaleOf x y, y.Cf.toNat, quantumExp x - quantumExp y - scaleOf x y⟩ rm := by
  have hN := toNat_ne_zero_of_decoded hx
  have hD := toNat_ne_zero_of_decoded hy
  exact (tiny_congr policy s rm _ _ (by positivity) hD hN hD (magnitudeValue_scaled _ _ _ _)).symm

end

/-- Settles O40: scaled, the dividend over the divisor is the exact quotient with 34 digits; an exact one is rounded
as an integer, and one with a remainder by its indicator, or below `QMIN` by a sticky digit. -/
theorem divDatapathGivesTheQuotient : Obligations.DivDatapathGivesTheQuotient := by
  intro args rm x y hx hy
  have hxfin := isFiniteNonzero_of_decoded hx
  have hyfin := isFiniteNonzero_of_decoded hy
  have hD := toNat_ne_zero_of_decoded hy
  have hresult := divRecords_scaled hx hy args rm
  have htiny := tiny_scaled hx hy args.tininess (x.s ^^ y.s) rm
  obtain ⟨-, -, -, hCx⟩ := hx
  obtain ⟨-, -, -, hCy⟩ := hy
  have hlo := pow_le_scaleOf_quotient hxfin hyfin
  have hhi := scaleOf_quotient_lt hyfin hCx
  obtain ⟨Qw, Rw, hdivide, hQ, hR⟩ := longDivide_exact hD hCy hhi
  rw [hresult]
  simp only [divDatapath, divScale_ok hxfin hyfin, hdivide, hQ, hR, htiny]
  by_cases hq : quantumExp x - quantumExp y - scaleOf x y < Config.QMIN <;>
    by_cases hrem : x.Cf.toNat * 10 ^ scaleOf x y % y.Cf.toNat = 0
  · rw [if_pos hq, if_pos hrem]
    exact realize_quotient hD hlo _ _ rm _ hrem
  · rw [if_pos hq, if_neg hrem]
    exact assemble_subnormal_quotient hD hlo hhi _ _ rm _ hq hrem
  · rw [if_neg hq, if_pos hrem]
    exact assembleExact_quotient hD hlo hhi _ _ rm _ (not_lt.mp hq) hrem
  · rw [if_neg hq, if_neg hrem]
    exact assemble_normal_quotient hD hlo hhi _ _ rm _ (not_lt.mp hq) hrem

end Sys2Proof.Machine
end

section
/-!
PROOFS. The families of 60_exceptions.md and 70_reset_and_hazards.md: what a unit function leaves unchanged, the
propagation of NaNs, and the run of the host's requests.
-/
namespace Sys2Proof.Machine

/-! ### A unit function is its output or its fault (R361, R397, R398) -/

/-- Settles O15: output and fault are those of `unitResult`, which takes the model arguments and the unit's inputs. -/
theorem unitFunctionsTouchNothingElse : Obligations.UnitFunctionsTouchNothingElse := by
  intro i args u hi
  cases h : unitResult args u i with
  | ok o =>
    refine .inl ⟨o, ?_⟩
    rintro s rfl rfl
    exact unitDrives_of_unitResult hi h
  | error e =>
    refine .inr ⟨e, ?_⟩
    rintro s rfl rfl
    exact unitFaults_of_unitResult hi h

/-! ### NaN operands (R350, R358) -/

theorem nanResult_of_find {order : List Record} {r : Record} (h : order.find? isNaN = some r) :
    nanResult order = (qnanWord r.s r.PL, nanFlags order) := by
  simp only [nanResult, h]

theorem nanFlags_of_signaling {order : List Record} (h : ∃ x ∈ order, x.cls = .snan) :
    nanFlags order = 0x01#6 :=
  if_pos (by simpa using h)

theorem nanFlags_of_not_signaling {order : List Record} (h : ∀ x ∈ order, x.cls ≠ .snan) :
    nanFlags order = 0#6 :=
  if_neg (by simpa using h)

/-- An operation that answers `NaNResult` of an order with a NaN in it propagates the first one (R358). -/
theorem propagatesNaN_of_drives {i : Instr} {s : State} {order : List Record}
    (hdrives : Drives i s (nanResult order).1 (nanResult order).2) (hnan : ∃ x ∈ order, isNaN x = true) :
    PropagatesNaN i s order := by
  obtain ⟨r, hr⟩ := Option.isSome_iff_exists.mp (List.find?_isSome.mpr hnan)
  rw [nanResult_of_find hr] at hdrives
  exact ⟨r, _, _, hdrives, hr, qnanWord_toNat r.s r.PL, nanFlags_of_signaling, nanFlags_of_not_signaling⟩

section
variable {x y z : Record}

theorem addRecords_nan (policy : Tininess) (rm : Rm) (h : isNaN x = true ∨ isNaN y = true) :
    addRecords policy rm x y = nanResult [x, y] :=
  if_pos (Bool.or_eq_true_iff.mpr h)

theorem mulRecords_nan (policy : Tininess) (first : NanFirst) (rm : Rm) (h : isNaN x = true ∨ isNaN y = true) :
    mulRecords policy first rm x y = nanResult (mulOrder first x y) :=
  if_pos (Bool.or_eq_true_iff.mpr h)

theorem divRecords_nan (args : ModelArgs) (rm : Rm) (h : isNaN x = true ∨ isNaN y = true) :
    divRecords args rm x y = nanResult [x, y] :=
  if_pos (Bool.or_eq_true_iff.mpr h)

theorem fmaRecords_nan (policy : Tininess) (rm : Rm) (h : isNaN x = true ∨ isNaN y = true ∨ isNaN z = true) :
    fmaRecords policy rm x y z = nanResult [y, z, x] :=
  if_pos (by simpa [or_assoc] using h)

theorem exists_isNaN_mulOrder (first : NanFirst) (h : isNaN x = true ∨ isNaN y = true) :
    ∃ r ∈ mulOrder first x y, isNaN r = true := by
  cases first with
  | a => simpa [mulOrder] using h
  | b => simpa [mulOrder, or_comm] using h

end

theorem mul_propagatesNaN {rm : Rm} {s : State} {first : NanFirst} (hfirst : s.args.mulNanFirst = first)
    (h : isNaN (operandA s) = true ∨ isNaN (operandB s) = true) :
    PropagatesNaN (.mul rm) s (mulOrder first (operandA s) (operandB s)) := by
  subst hfirst
  exact propagatesNaN_of_drives (drives_mul_of_eq (mulRecords_nan _ _ rm h)) (exists_isNaN_mulOrder _ h)

/-- Settles O51: with a NaN operand every operation answers `NaNResult` of its own order, which for `MUL` is that of
`MUL_NAN_FIRST`. -/
theorem nanOperandsPropagate : Obligations.NaNOperandsPropagate := by
  intro rm s A B C
  refine ⟨fun h => ⟨?_, ?_, fun hfirst => mul_propagatesNaN hfirst h, fun hfirst => mul_propagatesNaN hfirst h⟩,
    fun h => ?_⟩
  · exact propagatesNaN_of_drives (drives_add_of_eq (addRecords_nan _ rm h)) (by simpa using h)
  · exact propagatesNaN_of_drives (drives_div_of_eq (divRecords_nan _ rm h)) (by simpa using h)
  · have hnan : ∃ x ∈ [B, C, A], isNaN x = true := by simpa [or_comm, or_left_comm] using h
    exact propagatesNaN_of_drives (drives_fma_of_eq (fmaRecords_nan _ rm h)) hnan

/-! ### A step takes one request (R396, R400) -/

theorem exec_keeps_pending (i : Instr) (s : State) : ∃ t, exec i s = .next t ∧ t.pending = s.pending := by
  rcases exec_cases i s with ⟨-, r, h⟩ | ⟨-, ⟨o, h⟩ | ⟨e, h⟩⟩
  · exact ⟨_, h, State.complete_pending s r⟩
  · exact ⟨_, h, State.emit_pending s o⟩
  · exact ⟨_, h, State.recordFault_pending s e⟩

theorem runCode_keeps_pending (c : Except DecodeError Instr) (s : State) :
    ∃ t, runCode c s = .next t ∧ t.pending = s.pending := by
  cases c with
  | ok i => exact exec_keeps_pending i s
  | error e => exact ⟨_, runCode_error e s, State.recordRefusal_pending s _⟩

theorem perform_keeps_pending (r : Request) (s : State) :
    ∃ t, perform r s = .next t ∧ t.pending = s.pending := by
  rcases perform_cases r s with
    ⟨cmd, p, -, h⟩ | ⟨ufc, u, -, h⟩ | ⟨-, h⟩ | ⟨mask, value, -, h⟩ | ⟨-, h⟩
  · rw [h]; exact runCode_keeps_pending (decodeCommand cmd) (s.present p)
  · rw [h]; exact runCode_keeps_pending (decodeUnit ufc) (s.presentUnit u)
  · exact ⟨_, h, State.recordRefusal_pending s _⟩
  · exact ⟨_, h, State.writeFlags_pending s mask value⟩
  · exact ⟨_, h, State.readFlags_pending s⟩

/-- Settles O7: an idle step answers its own state, and any other takes the oldest request before it performs it. -/
theorem everyRequestIsAccepted : Obligations.EveryRequestIsAccepted := by
  intro s
  cases h : s.pending with
  | nil => exact ⟨s, step_idle s h, h, fun _ => rfl⟩
  | cons r rest =>
    obtain ⟨t, ht, hpending⟩ := perform_keeps_pending r (s.withPending rest)
    exact ⟨t, (step_pending s r rest h).trans ht, hpending, fun hnil => absurd hnil (List.cons_ne_nil r rest)⟩

/-! ### A run of operation requests (R398, R400) -/

/-- A run of as many steps as there are operation requests pending takes them all, drives one output for each and
leaves no mark. -/
theorem run_definedOperations (l : List Request) (s : State) (hs : s.pending = l)
    (hl : ∀ r ∈ l, ∃ cmd p, r = Request.operation cmd p ∧ CommandWord.wf cmd = true) :
    ∃ t : State, Host.Core.run core l.length s = .next t ∧ t.faults = s.faults ∧ t.refusals = s.refusals ∧
      t.pending = [] ∧ t.outputs.length = s.outputs.length + l.length := by
  induction l generalizing s with
  | nil => exact ⟨s, rfl, rfl, rfl, hs, rfl⟩
  | cons r rest ih =>
    obtain ⟨hr, hrest⟩ := List.forall_mem_cons.mp hl
    obtain ⟨cmd, p, rfl, hwf⟩ := hr
    obtain ⟨result, hanswer⟩ := exists_answeredBy s.args cmd p hwf
    obtain ⟨t, hrun, hfaults, hrefusals, hpending, houtputs⟩ :=
      ih (((s.withPending rest).present p).complete result) rfl hrest
    refine ⟨t, (core_run_succ_of_step (hanswer s rest rfl hs) rest.length).trans hrun, hfaults, hrefusals,
      hpending, ?_⟩
    simp only [houtputs, State.complete_outputs, State.present_outputs, State.withPending_outputs,
      List.length_append, List.length_cons, List.length_nil]
    omega

/-- Settles O12: each request is answered by a result, so the run leaves the marks as they are. -/
theorem runOfDefinedOperationsSucceeds : Obligations.RunOfDefinedOperationsSucceeds := by
  rintro s ⟨hfaults, hrefusals⟩ hpending
  obtain ⟨t, hrun, htfaults, htrefusals, htpending, houtputs⟩ := run_definedOperations s.pending s rfl hpending
  exact ⟨t, hrun, ⟨htfaults.trans hfaults, htrefusals.trans hrefusals⟩, htpending, houtputs⟩

/-! ### The outputs after reset (R391, R399) -/

/-- Settles O11: after reset no output has been driven. -/
theorem resetOutputsCanonical : Obligations.ResetOutputsCanonical := by
  intro args o ho
  rw [State.resetWith_outputs] at ho
  exact absurd ho List.not_mem_nil

end Sys2Proof.Machine
end
